-- ==== Sys2Proof/Word.lean ====
section
/-! DEFINITION. The words of PNGE: bytes, 32-bit words and byte sequences (00_scope.md R10, R11). -/

namespace Sys2Proof

/-- A byte (R10). -/
abbrev Byte := BitVec 8

/-- A 32-bit word: a register or a command (R8, REGW). -/
abbrev Word := BitVec 32

/-- A byte sequence (R11). -/
abbrev Bytes := List Byte

end Sys2Proof
end

