-- ==== Sys2Proof/Syntax.lean ====
section
/-! DEFINITION. The commands of PNGE: one constructor per row of spec/opcode_table.json
(30_encoding.md R92). -/

namespace Sys2Proof

/-- A command. `imm8` is the only operand a command word carries (R91): an unsigned byte. -/
inductive Instr where
  | nop
  | srst
  | crcInit
  | crcByte (imm8 : Byte)
  | adlInit
  | adlByte (imm8 : Byte)
  | outClr
  | pngSig
  | pngIhdr
  | pngScan
  | pngZcomp
  | pngIdat
  | pngIend
  | pngEncode
  deriving DecidableEq, Repr

end Sys2Proof
end

