-- ==== Sys2Proof/Decode.lean ====
section
/-! DEFINITION. Decoding and encoding of the command word (30_encoding.md Part A, R90 to R94). -/

namespace Sys2Proof

/-- `op`, bits 7:0 (R90). -/
def opField (w : Word) : Byte := w.extractLsb' 0 8

/-- `imm8`, bits 15:8 (R90, R91). -/
def imm8Field (w : Word) : Byte := w.extractLsb' 8 8

/-- `zero`, bits 31:16 (R90). -/
def zeroField (w : Word) : BitVec 16 := w.extractLsb' 16 16

/-- One row of the opcode map (R92): `w` selects the row exactly when `(w and mask) = pattern`. -/
structure OpcodeRow where
  mnemonic : String
  pattern : Word
  mask : Word
  build : Byte → Instr

/-- R92: "a word `w` selects the row exactly when `(w and mask) = match`". -/
def OpcodeRow.selects (r : OpcodeRow) (w : Word) : Bool := (w &&& r.mask) == r.pattern

/-- The opcode map (R92). -/
def opcodeMap : List OpcodeRow :=
  [ { mnemonic := "NOP", pattern := 0x00000000, mask := 0xFFFFFFFF, build := fun _ => .nop },
    { mnemonic := "SRST", pattern := 0x00000001, mask := 0xFFFFFFFF, build := fun _ => .srst } ] ++
  [ { mnemonic := "CRC.INIT", pattern := 0x00000010, mask := 0xFFFFFFFF, build := fun _ => .crcInit },
    { mnemonic := "CRC.BYTE", pattern := 0x00000011, mask := 0xFFFF00FF, build := .crcByte },
    { mnemonic := "ADL.INIT", pattern := 0x00000018, mask := 0xFFFFFFFF, build := fun _ => .adlInit },
    { mnemonic := "ADL.BYTE", pattern := 0x00000019, mask := 0xFFFF00FF, build := .adlByte } ] ++
  [ { mnemonic := "OUT.CLR", pattern := 0x00000020, mask := 0xFFFFFFFF, build := fun _ => .outClr },
    { mnemonic := "PNG.SIG", pattern := 0x00000021, mask := 0xFFFFFFFF, build := fun _ => .pngSig },
    { mnemonic := "PNG.IHDR", pattern := 0x00000022, mask := 0xFFFFFFFF, build := fun _ => .pngIhdr },
    { mnemonic := "PNG.SCAN", pattern := 0x00000023, mask := 0xFFFFFFFF, build := fun _ => .pngScan },
    { mnemonic := "PNG.ZCOMP", pattern := 0x00000024, mask := 0xFFFFFFFF, build := fun _ => .pngZcomp },
    { mnemonic := "PNG.IDAT", pattern := 0x00000025, mask := 0xFFFFFFFF, build := fun _ => .pngIdat },
    { mnemonic := "PNG.IEND", pattern := 0x00000026, mask := 0xFFFFFFFF, build := fun _ => .pngIend },
    { mnemonic := "PNG.ENCODE", pattern := 0x0000002F, mask := 0xFFFFFFFF,
      build := fun _ => .pngEncode } ]

/-- Why a word is illegal: the three classes R93 lists. -/
inductive IllegalWord where
  /-- "any word with `w[31:16] != 0`" -/
  | zeroFieldNotZero
  /-- "any word whose `op` is not one of the fourteen listed" -/
  | opcodeUnassigned
  /-- "any word with a listed `op` other than `0x11` and `0x19` and `imm8 != 0`" -/
  | immediateNotZero
  deriving DecidableEq, Repr

/-- The class of R93 an illegal word falls in, the first that applies. -/
def illegalReason (w : Word) : IllegalWord :=
  if zeroField w ≠ 0 then .zeroFieldNotZero
  else if opcodeMap.all (fun r => opField w != r.pattern.extractLsb' 0 8) then .opcodeUnassigned
  else .immediateNotZero

/-- Decode one command word (R92, R93, R94): total, rejecting every illegal word by name. -/
def decode (w : Word) : Except IllegalWord Instr :=
  match opcodeMap.find? (fun r => r.selects w) with
  | some r => .ok (r.build (imm8Field w))
  | none => .error (illegalReason w)

/-- Format `C` (R90): the word with these `op` and `imm8` and the zero field 0. -/
def commandWord (op imm8 : Byte) : Word := (0#16 ++ imm8) ++ op

/-- The word of a command (R90, R92). -/
def encode : Instr → Word
  | .nop => commandWord 0x00 0
  | .srst => commandWord 0x01 0
  | .crcInit => commandWord 0x10 0
  | .crcByte imm8 => commandWord 0x11 imm8
  | .adlInit => commandWord 0x18 0
  | .adlByte imm8 => commandWord 0x19 imm8
  | .outClr => commandWord 0x20 0
  | .pngSig => commandWord 0x21 0
  | .pngIhdr => commandWord 0x22 0
  | .pngScan => commandWord 0x23 0
  | .pngZcomp => commandWord 0x24 0
  | .pngIdat => commandWord 0x25 0
  | .pngIend => commandWord 0x26 0
  | .pngEncode => commandWord 0x2F 0

/-- The 32-bit word whose low `nbits` bits are those of `w`, the rest 0; none where it has a bit
above bit 31, since a command is exactly one 32-bit word (R94). -/
def tableWord (nbits w : Nat) : Option Word :=
  if w % 2 ^ nbits < 2 ^ 32 then some (BitVec.ofNat 32 (w % 2 ^ nbits)) else none

/-- What `decode` reads from a row of the opcode table. A `CMD` write transfers the word as a
number, bit 31 to bit 0 (20_memory.md R62), so the table's bit numbers are the word's. -/
def decodeTableWord (nbits w : Nat) : Option Instr :=
  (tableWord nbits w).bind fun word => (decode word).toOption

end Sys2Proof
end

