-- ==== Sys2Proof/Config.lean ====
section
/-! DEFINITION. What one PNGE fixes for its life (00_scope.md R8; 10_state.md R43; 93 U8), and the
values the spec leaves open (93 U2 to U5), as constants without a body. -/

namespace Sys2Proof

/-- COMP_MODE (R8, R191): the two instances of the spec, and the abstract compressor that R190 and
93 U8 allow ("an implementation that uses neither instance"). -/
inductive CompMode where
  | fixedLz
  | stored
  | other
  deriving DecidableEq, Repr

/-- The parameters of one implementation (R8). DESIGN CHOICE, safe: log entry 1 (State carries it,
no step changes it, statements quantify over it). -/
structure Config where
  pixCap : Nat
  scanCap : Nat
  zCap : Nat
  outCap : Nat
  compMode : CompMode
  deriving DecidableEq, Repr

namespace Config

/-- The spec's defaults "for an unbounded model" (R8; 92, Open parameters). DESIGN CHOICE, unsafe:
log entry 2. -/
def default : Config :=
  { pixCap := 2 ^ 32 - 1, scanCap := 2 ^ 32 - 1, zCap := 2 ^ 31 - 1, outCap := 2 ^ 32 - 1,
    compMode := .fixedLz }

/-- Free value: the `n`-th 32-bit draw (93 U3, U5). Safe: log entry 5. -/
opaque freeWord : Nat → Word

/-- Free value: the `n`-th 4-bit draw, for PHASE read while busy (93 U3). Safe: log entry 5. -/
opaque freePhase : Nat → BitVec 4

/-- Free value: the `n`-th byte draw, for `HostReadOut` (93 U2). Safe: log entry 5. -/
opaque freeByte : Nat → Byte

/-- Free value: what `SCAN` holds at an index nothing has written (R322, 93 U4). Log entry 7. -/
opaque scanResidue : Nat → Byte

/-- Free value: what `ZBUF` holds at an index nothing has written (R322, 93 U4). Log entry 7. -/
opaque zbufResidue : Nat → Byte

/-- The abstract compressor of R190, for `CompMode.other`. Nothing is known of it: a claim that
needs property Z1 takes it as a hypothesis (`Sys2Proof.Machine.Z1`). Safe: log entry 12. -/
opaque otherZ : Bytes → Bytes

end Config

end Sys2Proof
end

