-- ==== Sys2Proof/Machine/Turn.lean ====
section
/-! DEFINITION. The steps of an execution that are not commands (20_memory.md R70), and what the
host learns from its reads. These are the model's own data: log entries 3 and 4. -/

namespace Sys2Proof.Machine

/-- One atomic host step (R70; 30_encoding.md R95: `wr`, `rd`, `pix`, `out`). A register is named
by its byte offset, as the bus names it (R62). -/
inductive HostAction where
  | readRegister (offset : Nat)
  | writeRegister (offset : Nat) (value : Word)
  | writePix (index : Nat) (byte : Byte)
  | readOut (index : Nat)
  deriving DecidableEq, Repr

/-- Whose step it is (R70, the table): the host's, the engine's, or the environment's reset. -/
inductive Turn where
  | host (action : HostAction)
  | engine
  | hardwareReset
  deriving DecidableEq, Repr

/-- What a host read returned: a register's 32-bit value or a byte of `OUT`. -/
inductive Answer where
  | register (offset : Nat) (value : Word)
  | outByte (index : Nat) (value : Byte)
  deriving DecidableEq, Repr

end Sys2Proof.Machine
end

