-- ==== Sys2Proof/Machine/State.lean ====
section
/-! DEFINITION. The state of PNGE (10_state.md R20) with its reset values (R45; 70 R321, R322), and
the ways a step can stop. -/

namespace Sys2Proof.Machine

/-- The sequencer phase, `STATUS.PHASE` (R36). The values 7 to 15 "never occur". -/
inductive Phase where
  | idle
  | sig
  | ihdr
  | scan
  | zcomp
  | idat
  | iend
  deriving DecidableEq, Repr

/-- The error codes 1 to 4 of `STATUS.ERR` (60_exceptions.md R291). Code 0, no error, is `none` in
State's field; the codes 5 to 15 "never occur". -/
inductive PngeError where
  | unsupportedDimensions
  | bufferSizeMismatch
  | capacityExceeded
  | illegalCommand
  deriving DecidableEq, Repr

/-- A byte memory: cells with strictly rising indexes; an unlisted index holds no value. For `PIX`
that is "never written" (20_memory.md R75). -/
abbrev Memory := List Host.Cell

/-- The state. Every element of R20 is here; `CMD` stores nothing (R22), `CRC_VAL` and `ADLER_VAL`
are views (R30, R31). `cfg` is R43's configuration (log entry 1). `turns`, `answers` and `draws` are
the model's own (log entries 3, 4, 5). -/
structure State where
  cfg : Config
  busy : Bool
  done : Bool
  err : Option PngeError
  phase : Phase
  width : Word
  height : Word
  pixLen : Word
  outLen : Word
  scanLen : Word
  zLen : Word
  lastCmd : Word
  crc : Word
  ada : BitVec 16
  adb : BitVec 16
  bitbuf : BitVec 8
  bitcnt : BitVec 3
  pix : Memory
  scan : Memory
  zbuf : Memory
  out : Memory
  turns : List Turn
  answers : List Answer
  draws : Nat
  deriving DecidableEq, Repr

/-- The state after a hardware reset (R45, R321, R322). The values of `cfg`, `turns`, `answers` and
`draws` are DESIGN CHOICES: log entries 2 and 20. -/
def State.reset : State :=
  { cfg := Config.default
    busy := false, done := false, err := none, phase := .idle
    width := 0, height := 0, pixLen := 0
    outLen := 0, scanLen := 0, zLen := 0
    lastCmd := 0
    crc := 0xFFFFFFFF, ada := 1, adb := 0
    bitbuf := 0, bitcnt := 0
    pix := [], scan := [], zbuf := [], out := []
    turns := [], answers := [], draws := 0 }

/-- Why the machine stops without a next state. -/
inductive Fault where
  /-- Raised by `PNG.SCAN` and `PNG.ENCODE` when they read an index of `PIX` below `PIX_LEN` that
  the host never wrote since the hardware reset. R75: "it treats the read as a **fault** of the
  model (no final state), the safe direction". Safe. -/
  | pixNeverWritten
  deriving DecidableEq, Repr

/-- Why a step has no meaning in the model. -/
inductive Refusal where
  /-- Answered by `exec` for a command that has no meaning yet. Safe. No arm of `exec` answers it
  any more. -/
  | notModelled (mnemonic : String)
  deriving DecidableEq, Repr

end Sys2Proof.Machine
end

