-- ==== Sys2Proof/Machine/Flags.lean ====
section
/-! DEFINITION. The STATUS register: its fields, their codes, and the views `CRC_VAL` and
`ADLER_VAL` (10_state.md R23, R30, R31, R36; 60_exceptions.md R291; 44_system.md R286). -/

namespace Sys2Proof.Machine

/-- The value of `STATUS.PHASE` (R36). -/
def Phase.code : Phase → BitVec 4
  | .idle => 0
  | .sig => 1
  | .ihdr => 2
  | .scan => 3
  | .zcomp => 4
  | .idat => 5
  | .iend => 6

/-- The value of `STATUS.ERR` for an error (R291). -/
def PngeError.code : PngeError → BitVec 4
  | .unsupportedDimensions => 1
  | .bufferSizeMismatch => 2
  | .capacityExceeded => 3
  | .illegalCommand => 4

/-- The value of `STATUS.ERR`; 0 is no error (R291). -/
def errCode (e : Option PngeError) : BitVec 4 := (e.map PngeError.code).getD 0

/-- The word a read of `STATUS` returns (R286): `BUSY or (DONE << 1) or (ERR << 4) or (PHASE << 8)`;
the reserved bits 3:2 and 31:12 read as 0 (R23). -/
def statusWord (busy done : Bool) (err phase : BitVec 4) : Word :=
  (BitVec.ofBool busy).setWidth 32 ||| ((BitVec.ofBool done).setWidth 32 <<< 1) |||
    (err.setWidth 32 <<< 4) ||| (phase.setWidth 32 <<< 8)

/-- `CRC_VAL = CRC xor 0xFFFFFFFF` (R30). -/
def crcVal (s : State) : Word := s.crc ^^^ 0xFFFFFFFF

/-- `ADLER_VAL = (ADB << 16) or ADA` (R31). -/
def adlerVal (s : State) : Word := (s.adb.setWidth 32 <<< 16) ||| s.ada.setWidth 32

end Sys2Proof.Machine
end

