-- ==== Sys2Proof/Machine/Operands.lean ====
section
/-! DEFINITION. Byte orders (00_scope.md R11; 20_memory.md R61), memory reads and writes (R12), and
the implicit operands of the commands: what a command reads from the memories (30_encoding.md R91). -/

namespace Sys2Proof.Machine

/-- `be32(v)`: most significant byte first (R11). -/
def be32 (v : Word) : Bytes :=
  [v.extractLsb' 24 8, v.extractLsb' 16 8, v.extractLsb' 8 8, v.extractLsb' 0 8]

/-- `be32` of a number below `2^32` (R11; R288: every use satisfies the bound). -/
def be32Nat (n : Nat) : Bytes := be32 (BitVec.ofNat 32 n)

/-- `le16(v)`: least significant byte first (R11). -/
def le16 (v : BitVec 16) : Bytes := [v.extractLsb' 0 8, v.extractLsb' 8 8]

/-- The number whose big-endian bytes these are. -/
def beValue (bs : Bytes) : Nat := bs.foldl (fun n b => 256 * n + b.toNat) 0

namespace Memory

/-- The byte at an index; none where nothing has written it. -/
def read : Memory → Nat → Option Byte
  | [], _ => none
  | (a, b) :: rest, i => if a = i then some b else read rest i

/-- Consecutive cells from index `a`. -/
def cells : Nat → Bytes → Memory
  | _, [] => []
  | a, b :: bs => (a, b) :: cells (a + 1) bs

/-- `MemWrite(space, a, len(bs), bs)` (R12): the cells below and above stay, the cells from `a` on
are these bytes. -/
def write (m : Memory) (a : Nat) (bs : Bytes) : Memory :=
  m.filter (fun c => decide (c.1 < a)) ++ cells a bs ++
    m.filter (fun c => decide (a + bs.length ≤ c.1))

/-- `MemRead(space, a, n)` where every byte must have been written: none if one was not. -/
def readWritten (m : Memory) : Nat → Nat → Option Bytes
  | _, 0 => some []
  | a, n + 1 =>
    match read m a with
    | none => none
    | some b => (readWritten m (a + 1) n).map (b :: ·)

/-- `MemRead(space, a, n)` where an index nothing has written holds an unspecified byte
(93 U4; log entry 7). -/
def readAny (m : Memory) (residue : Nat → Byte) : Nat → Nat → Bytes
  | _, 0 => []
  | a, n + 1 => (read m a).getD (residue a) :: readAny m residue (a + 1) n

/-- The canonical form: strictly rising indexes. Every listed cell holds a byte, and an unlisted
index reads as none, so no cell equals what an unlisted index reads as. -/
abbrev wf (m : Memory) : Prop := m.Pairwise (fun c d => c.1 < d.1)

/-- Every listed index is below the capacity. -/
abbrev within (m : Memory) (cap : Nat) : Prop := ∀ c ∈ m, c.1 < cap

/-- Every index below `n` has been written. -/
abbrev filled (m : Memory) (n : Nat) : Prop := ∀ i < n, (read m i).isSome

end Memory

/-- The scanline buffer the image registers describe (R105):
`scan = Row(0) ++ ... ++ Row(HEIGHT - 1)`, `Row(r) = [00] ++ PIX[r * WIDTH * 3 .. (r + 1) * WIDTH * 3)`.
Here the rows `r .. r + n - 1` of an image of `rowBytes = WIDTH * 3` bytes a row; none if a byte of
`PIX` was never written. The filter byte is always 00. -/
def scanRows (pix : Memory) (rowBytes : Nat) : Nat → Nat → Option Bytes
  | _, 0 => some []
  | r, n + 1 =>
    match Memory.readWritten pix (r * rowBytes) rowBytes with
    | none => none
    | some row => (scanRows pix rowBytes (r + 1) n).map fun rest => (0x00 :: row) ++ rest

/-- The scanline buffer of the whole image (R105). -/
def scanlines (s : State) : Option Bytes :=
  scanRows s.pix (s.width.toNat * 3) 0 s.height.toNat

/-- `MemRead(SCAN, 0, SCAN_LEN)` (R205). -/
def scanData (s : State) : Bytes := s.scan.readAny Config.scanResidue 0 s.scanLen.toNat

/-- `MemRead(ZBUF, 0, Z_LEN)` (R245). -/
def zData (s : State) : Bytes := s.zbuf.readAny Config.zbufResidue 0 s.zLen.toNat

/-- `OUT[0 .. OUT_LEN)`, the output so far (R27), where every byte of it has been written. -/
def outData (s : State) : Option Bytes := s.out.readWritten 0 s.outLen.toNat

/-- `pixels`, `PIX[0 .. PIX_LEN)` (R21), where the host has written every byte of it. -/
def pixelData (s : State) : Option Bytes := s.pix.readWritten 0 s.pixLen.toNat

end Sys2Proof.Machine
end

