-- ==== Sys2Proof/Machine/Crc.lean ====
section
/-! DEFINITION. The CRC-32 function (40_crc32.md R150 to R153). -/

namespace Sys2Proof.Machine

/-- `CRC_POLY`, the reflected polynomial (R150). -/
def crcPoly : Word := 0xEDB88320

/-- The initial register value (R150). -/
def crcInitial : Word := 0xFFFFFFFF

/-- One shift of the register (R151): the bit shifted out selects the xor. -/
def crcShift (c : Word) : Word :=
  if c.getLsbD 0 then (c >>> 1) ^^^ crcPoly else c >>> 1

/-- The eight shifts of R151, named `S` in R159. -/
def crcShift8 (c : Word) : Word :=
  crcShift (crcShift (crcShift (crcShift (crcShift (crcShift (crcShift (crcShift c)))))))

/-- `crc_step(c, b)` (R151). -/
def crcStep (c : Word) (b : Byte) : Word := crcShift8 (c ^^^ b.setWidth 32)

/-- `fold(c, s)` (R158): `crc_step(., s[i])` for each `i` in order. -/
def crcFold (c : Word) (m : Bytes) : Word := m.foldl crcStep c

/-- `crc32(m)` (R152). -/
def crc32 (m : Bytes) : Word := crcFold crcInitial m ^^^ 0xFFFFFFFF

end Sys2Proof.Machine
end

