-- ==== Sys2Proof/Machine/Adler.lean ====
section
/-! DEFINITION. The Adler-32 function (41_adler32.md R180). -/

namespace Sys2Proof.Machine

/-- `ADLER_MOD` (R180; 00_scope.md R8). -/
def adlerMod : Nat := 65521

/-- `adler_step(a, b, x)` (R180): `a' = (a + x) mod 65521`, then `b' = (b + a') mod 65521`. -/
def adlerStep (ab : BitVec 16 × BitVec 16) (x : Byte) : BitVec 16 × BitVec 16 :=
  let a' := (ab.1.toNat + x.toNat) % adlerMod
  (BitVec.ofNat 16 a', BitVec.ofNat 16 ((ab.2.toNat + a') % adlerMod))

/-- `adler_step` over each byte in order, from the sums `ab`. -/
def adlerFold (ab : BitVec 16 × BitVec 16) (m : Bytes) : BitVec 16 × BitVec 16 :=
  m.foldl adlerStep ab

/-- The initial sums `(1, 0)` (R180). -/
def adlerInitial : BitVec 16 × BitVec 16 := (1, 0)

/-- `adler32(m)` (R180): `(b << 16) or a`. -/
def adler32 (m : Bytes) : Word :=
  let ab := adlerFold adlerInitial m
  ab.2 ++ ab.1

end Sys2Proof.Machine
end

