-- ==== Sys2Proof/Machine/Deflate.lean ====
section
/-! DEFINITION. The compressor: bit writer, matcher, tokens, the two instances and the zlib wrapper
(42_deflate.md R190 to R204; 30_encoding.md R108, R109, R121 to R128, R132, R133). -/

namespace Sys2Proof.Machine

/-! ## The bit writer (R192 to R195) -/

/-- The bit writer's state (R192): `BITBUF`, `BITCNT`, and the output being built. -/
structure BitWriter where
  bitbuf : BitVec 8
  bitcnt : BitVec 3
  output : Bytes
  deriving DecidableEq, Repr

/-- "At the start of a compression `BITBUF = 0`, `BITCNT = 0` and the output is empty" (R192). -/
def BitWriter.start : BitWriter := { bitbuf := 0, bitcnt := 0, output := [] }

/-- `PutBit(x)` (R193). -/
def putBit (w : BitWriter) (x : Bool) : BitWriter :=
  let buf := w.bitbuf ||| ((BitVec.ofBool x).setWidth 8 <<< w.bitcnt.toNat)
  if w.bitcnt = 7 then { bitbuf := 0, bitcnt := 0, output := w.output ++ [buf] }
  else { bitbuf := buf, bitcnt := w.bitcnt + 1, output := w.output }

/-- `PutBit` of each bit in order. -/
def putBitList (w : BitWriter) (bits : List Bool) : BitWriter := bits.foldl putBit w

/-- The bits of a numeric field of `n` bits, least significant first (R121). -/
def fieldBits (v : Nat) : Nat → List Bool
  | 0 => []
  | n + 1 => v.testBit 0 :: fieldBits (v / 2) n

/-- The bits of a Huffman code of `n` bits, most significant first (R121). -/
def codeBits (c n : Nat) : List Bool := (fieldBits c n).reverse

/-- `PutBits(v, n)` (R193). -/
def putBits (w : BitWriter) (v n : Nat) : BitWriter := putBitList w (fieldBits v n)

/-- `PutCode(c, n)` (R194). -/
def putCode (w : BitWriter) (c n : Nat) : BitWriter := putBitList w (codeBits c n)

/-- `FlushBits()` (R195): the padding bits are 0. -/
def flushBits (w : BitWriter) : BitWriter :=
  if w.bitcnt = 0 then w else { bitbuf := 0, bitcnt := 0, output := w.output ++ [w.bitbuf] }

/-! ## The length and distance codes (R125 to R128, R198, R199) -/

/-- `LBASE` (R125), by `symbol - 257`. -/
def lengthBase : List Nat :=
  [3, 4, 5, 6, 7, 8, 9, 10, 11, 13, 15, 17, 19, 23, 27] ++
  [31, 35, 43, 51, 59, 67, 83, 99, 115, 131, 163, 195, 227, 258]

/-- `LEXT` (R125), by `symbol - 257`. -/
def lengthExtra : List Nat :=
  [0, 0, 0, 0, 0, 0, 0, 0, 1, 1, 1, 1, 2, 2, 2] ++ [2, 3, 3, 3, 3, 4, 4, 4, 4, 5, 5, 5, 5, 0]

/-- `DBASE` (R126), by symbol. -/
def distBase : List Nat :=
  [1, 2, 3, 4, 5, 7, 9, 13, 17, 25, 33, 49, 65, 97, 129] ++
  [193, 257, 385, 513, 769, 1025, 1537, 2049, 3073, 4097, 6145, 8193, 12289, 16385, 24577]

/-- `DEXT` (R126), by symbol. -/
def distExtra : List Nat :=
  [0, 0, 0, 0, 1, 1, 2, 2, 3, 3, 4, 4, 5, 5, 6] ++ [6, 7, 7, 8, 8, 9, 9, 10, 10, 11, 11, 12, 12, 13, 13]

/-- The largest index `k` of a table, at most `bound`, whose entry is at most `v`; 0 if none. -/
def largestIndex (table : List Nat) (v : Nat) : Nat → Nat
  | 0 => 0
  | k + 1 => if table.getD (k + 1) 0 ≤ v then k + 1 else largestIndex table v k

/-- A symbol with its extra value and its extra bit count (R198). -/
structure SymbolExtra where
  symbol : Nat
  extra : Nat
  extraBits : Nat
  deriving DecidableEq, Repr

/-- `LenSym(L)` (R198): 258 has its own symbol. -/
def lenSym (len : Nat) : SymbolExtra :=
  let k := if len = 258 then 28 else largestIndex lengthBase len 27
  { symbol := 257 + k, extra := len - lengthBase.getD k 0, extraBits := lengthExtra.getD k 0 }

/-- `DistSym(D)` (R198). -/
def distSym (dist : Nat) : SymbolExtra :=
  let j := largestIndex distBase dist 29
  { symbol := j, extra := dist - distBase.getD j 0, extraBits := distExtra.getD j 0 }

/-- `FixLit(sym)` (R199): the code value and the bit count of the fixed literal/length code. -/
def fixLit (sym : Nat) : Nat × Nat :=
  if sym ≤ 143 then (0x30 + sym, 8)
  else if sym ≤ 255 then (0x190 + (sym - 144), 9)
  else if sym ≤ 279 then (sym - 256, 7)
  else (0xC0 + (sym - 280), 8)

/-! ## The matcher and the greedy parse (R196, R197) -/

/-- `MAX_MATCH` and `MIN_MATCH` (00_scope.md R8). -/
def maxMatch : Nat := 258

/-- The shortest match that is emitted (R8, R197). -/
def minMatch : Nat := 3

/-- `WINDOW` (R8): the largest distance the matcher uses. -/
def window : Nat := 32768

/-- How many leading bytes two sequences share, at most `bound`: the `while` loop of R196, with the
data from position `i` on and the data from position `i - d` on. -/
def sharedLength : Nat → Bytes → Bytes → Nat
  | n + 1, x :: xs, y :: ys => if x = y then sharedLength n xs ys + 1 else 0
  | _, _, _ => 0

/-- The body of R196's loop over the distances: a strictly longer match replaces the best. -/
def betterMatch (s : Bytes) (i bound : Nat) (best : Nat × Nat) (d : Nat) : Nat × Nat :=
  let len := sharedLength bound (s.drop i) (s.drop (i - d))
  if best.1 < len then (len, d) else best

/-- `LongestMatch(s, i)` (R196): length and distance; distances increasing, so that "a tie keeps
the smaller d". -/
def longestMatch (s : Bytes) (i : Nat) : Nat × Nat :=
  (List.range' 1 (min i window)).foldl (betterMatch s i (min maxMatch (s.length - i))) (0, 0)

/-- A token (R197). -/
inductive Token where
  | lit (byte : Byte)
  | copy (length distance : Nat)
  deriving DecidableEq, Repr

/-- The greedy parse from position `i`; `fuel` bounds the positions left, and each token moves on by
at least one (R327). -/
def tokensFrom (s : Bytes) : Nat → Nat → List Token
  | 0, _ => []
  | fuel + 1, i =>
    if i < s.length then
      let m := longestMatch s i
      if minMatch ≤ m.1 then .copy m.1 m.2 :: tokensFrom s fuel (i + m.1)
      else .lit (s.getD i 0) :: tokensFrom s fuel (i + 1)
    else []

/-- `Tokens(s)` (R197). -/
def tokens (s : Bytes) : List Token := tokensFrom s s.length 0

/-! ## The instances (R200 to R204) -/

/-- `EmitToken` (R200). -/
def emitToken (w : BitWriter) : Token → BitWriter
  | .lit b =>
    let c := fixLit b.toNat
    putCode w c.1 c.2
  | .copy len dist =>
    let l := lenSym len
    let c := fixLit l.symbol
    let d := distSym dist
    putBits (putCode (putBits (putCode w c.1 c.2) l.extra l.extraBits) d.symbol 5) d.extra d.extraBits

/-- The bit writer at the end of `DeflateFixedLZ(s)` (R201, R202). -/
def deflateFixedLzWriter (s : Bytes) : BitWriter :=
  let w := putBits (putBits .start 1 1) 1 2
  flushBits (putCode ((tokens s).foldl emitToken w) 0 7)

/-- `DeflateFixedLZ(s)` (R202). -/
def deflateFixedLz (s : Bytes) : Bytes := (deflateFixedLzWriter s).output

/-- The largest stored block (R123, R203). -/
def maxStored : Nat := 65535

/-- One stored block (R123, R203): the header byte, `LEN`, `NLEN`, the data. -/
def storedBlock (final : Bool) (data : Bytes) : Bytes :=
  let len : BitVec 16 := BitVec.ofNat 16 data.length
  [(BitVec.ofBool final).setWidth 8] ++ le16 len ++ le16 (len ^^^ 0xFFFF) ++ data

/-- The loop of R203 over the data that is left; each block takes at least one byte (R327). -/
def storedBlocks : Nat → Bytes → Bytes
  | 0, _ => []
  | fuel + 1, rest =>
    if rest = [] then []
    else storedBlock (decide (rest.length ≤ maxStored)) (rest.take maxStored) ++
      storedBlocks fuel (rest.drop maxStored)

/-- `DeflateStored(s)` (R203). -/
def deflateStored (s : Bytes) : Bytes :=
  if s = [] then storedBlock true [] else storedBlocks s.length s

/-- `ZHDR` (R109). -/
def zlibHeader : Bytes := [0x78, 0xDA]

/-- `ZHDR ++ deflate data ++ be32(adler32(s))` (R108, R204). -/
def zlibWrap (deflateData s : Bytes) : Bytes := zlibHeader ++ deflateData ++ be32 (adler32 s)

/-- A compression's result: the zlib stream, and what is left in the bit packer. -/
structure Compressed where
  stream : Bytes
  bitbuf : BitVec 8
  bitcnt : BitVec 3
  deriving DecidableEq, Repr

/-- Run the compressor of `COMP_MODE` (R191). Only `FIXED_LZ` uses the bit packer, which starts at 0
(log entry 13). -/
def compress (mode : CompMode) (s : Bytes) : Compressed :=
  match mode with
  | .fixedLz =>
    let w := deflateFixedLzWriter s
    { stream := zlibWrap w.output s, bitbuf := w.bitbuf, bitcnt := w.bitcnt }
  | .stored => { stream := zlibWrap (deflateStored s) s, bitbuf := 0, bitcnt := 0 }
  | .other => { stream := Config.otherZ s, bitbuf := 0, bitcnt := 0 }

/-- `Z(s)` (R190, R204). -/
def zStream (mode : CompMode) (s : Bytes) : Bytes := (compress mode s).stream

end Sys2Proof.Machine
end

