-- ==== Sys2Proof/Machine/Inflate.lean ====
section
/-! DEFINITION. The reference decoder, a specification function and not hardware (42_deflate.md R206
to R212; 30_encoding.md R120 to R132). `none` is the spec's `Invalid`. -/

namespace Sys2Proof.Machine

/-! ## The bit reader (R206) -/

/-- A bit position in a byte sequence (R206). -/
structure BitReader where
  data : Bytes
  pos : Nat
  deriving DecidableEq, Repr

/-- `GetBit()` (R206): 0 or 1, `Invalid` at the end of the data. -/
def getBit (r : BitReader) : Option (Nat × BitReader) :=
  match r.data[r.pos / 8]? with
  | none => none
  | some b => some ((b.getLsbD (r.pos % 8)).toNat, { r with pos := r.pos + 1 })

/-- `GetBits(n)` (R206): least significant bit first. -/
def getBits (r : BitReader) : Nat → Option (Nat × BitReader)
  | 0 => some (0, r)
  | n + 1 => do
    let (bit, r) ← getBit r
    let (high, r) ← getBits r n
    return (bit + 2 * high, r)

/-- `AlignByte()` (R206). -/
def alignByte (r : BitReader) : BitReader := { r with pos := (r.pos + 7) / 8 * 8 }

/-! ## Canonical Huffman codes (R129, R209) -/

/-- One used symbol of a code: its code length and its codeword. -/
structure CodeEntry where
  symbol : Nat
  length : Nat
  codeword : Nat
  deriving DecidableEq, Repr

/-- A code: the entries of its used symbols, symbols increasing. -/
abbrev Code := List CodeEntry

/-- `count[b]` of R129; `count[0]` is taken as 0. -/
def lengthCount (lens : List Nat) (b : Nat) : Nat := if b = 0 then 0 else lens.count b

/-- `next[b]` of R129 before any symbol is assigned: the first codeword of length `b`. -/
def firstCode (lens : List Nat) : Nat → Nat
  | 0 => 0
  | b + 1 => (firstCode lens b + lengthCount lens b) * 2

/-- The second loop of R129, from symbol `s` on; `next` lists the next codeword of each length. -/
def assignCodes : Nat → List Nat → List Nat → Code
  | _, _, [] => []
  | s, next, len :: lens =>
    if len = 0 then assignCodes (s + 1) next lens
    else
      { symbol := s, length := len, codeword := next.getD len 0 } ::
        assignCodes (s + 1) (next.set len (next.getD len 0 + 1)) lens

/-- The canonical code of a sequence of code lengths, each at most 15 (R129). -/
def canonicalCode (lens : List Nat) : Code :=
  assignCodes 0 ((List.range 16).map (firstCode lens)) lens

/-- `K` of R209: the sum over the used symbols of `2^(15 - len)`. -/
def kraftSum (lens : List Nat) : Nat :=
  ((lens.filter (· ≠ 0)).map fun n => 2 ^ (15 - n)).sum

/-- `BuildCode` (R209): the empty code is accepted; an over-subscribed code is invalid; an incomplete
one is invalid but for a literal/length or distance code whose only nonzero length is a single 1. -/
def buildCode (codeLengthCode : Bool) (lens : List Nat) : Option Code :=
  let used := lens.filter (· ≠ 0)
  if used = [] then some []
  else if kraftSum lens = 2 ^ 15 then some (canonicalCode lens)
  else if codeLengthCode = false ∧ used = [1] then some (canonicalCode lens)
  else none

/-- The symbol whose codeword of length `n` is `c`. -/
def findSymbol (code : Code) (n c : Nat) : Option Nat :=
  (code.find? fun e => e.length == n && e.codeword == c).map (·.symbol)

/-- The loop of `DecodeSym` (R209) for the lengths `n + 1 .. 15`, `fuel = 15 - n`, with the bits read
so far in `c`. -/
def decodeSymFrom (code : Code) : Nat → Nat → Nat → BitReader → Option (Nat × BitReader)
  | 0, _, _, _ => none
  | fuel + 1, n, c, r =>
    match getBit r with
    | none => none
    | some (bit, r) =>
      match findSymbol code (n + 1) (2 * c + bit) with
      | some s => some (s, r)
      | none => decodeSymFrom code fuel (n + 1) (2 * c + bit) r

/-- `DecodeSym(code)` (R209). -/
def decodeSym (code : Code) (r : BitReader) : Option (Nat × BitReader) := decodeSymFrom code 15 0 0 r

/-- The lengths of `FIXLIT` (R207, R127). -/
def fixedLitLengths : List Nat :=
  List.replicate 144 8 ++ List.replicate 112 9 ++ List.replicate 24 7 ++ List.replicate 8 8

/-- `FIXLIT` (R207). -/
def fixedLitCode : Code := canonicalCode fixedLitLengths

/-- `FIXDIST` (R207): the canonical code of 32 lengths of 5. -/
def fixedDistCode : Code := canonicalCode (List.replicate 32 5)

/-! ## Blocks (R207 to R211) -/

/-- `len` times `out.append(out[len(out) - dist])` (R210): byte by byte, so an overlap repeats. -/
def copyMatch (dist : Nat) : Nat → Bytes → Bytes
  | 0, out => out
  | len + 1, out => copyMatch dist len (out ++ [out.getD (out.length - dist) 0])

/-- `InflateCodes(lit, dist)` (R210). Each turn of the loop reads at least one bit, so a fuel of one
more than the number of bits never runs out (log entry 14). -/
def inflateCodes (lit dist : Code) : Nat → BitReader → Bytes → Option (BitReader × Bytes)
  | 0, _, _ => none
  | fuel + 1, r, out => do
    let (s, r) ← decodeSym lit r
    if s < 256 then inflateCodes lit dist fuel r (out ++ [BitVec.ofNat 8 s])
    else if s = 256 then return (r, out)
    else if 285 < s then none
    else
      let (lx, r) ← getBits r (lengthExtra.getD (s - 257) 0)
      let (j, r) ← decodeSym dist r
      if 29 < j then none
      else
        let (dx, r) ← getBits r (distExtra.getD j 0)
        let d := distBase.getD j 0 + dx
        if out.length < d then none
        else inflateCodes lit dist fuel r (copyMatch d (lengthBase.getD (s - 257) 0 + lx) out)

/-- `LEN` times `out.append(GetBits(8))` (R208). -/
def readBytes : Nat → BitReader → Bytes → Option (BitReader × Bytes)
  | 0, r, out => some (r, out)
  | n + 1, r, out => do
    let (b, r) ← getBits r 8
    readBytes n r (out ++ [BitVec.ofNat 8 b])

/-- `InflateStored` (R208). -/
def inflateStored (r : BitReader) (out : Bytes) : Option (BitReader × Bytes) := do
  let (len, r) ← getBits (alignByte r) 16
  let (nlen, r) ← getBits r 16
  if nlen ≠ len ^^^ 0xFFFF then none else readBytes len r out

/-- `ORDER` (R130, R211). -/
def codeLengthOrder : List Nat := [16, 17, 18, 0, 8, 7, 9, 6, 10, 5, 11, 4, 12, 3, 13, 2, 14, 1, 15]

/-- Read a 3-bit code length for each symbol of `order` into `cl` (R211). -/
def readCodeLengths : List Nat → BitReader → List Nat → Option (List Nat × BitReader)
  | [], r, cl => some (cl, r)
  | s :: order, r, cl => do
    let (n, r) ← getBits r 3
    readCodeLengths order r (cl.set s n)

/-- The `while` loop of R211 (and R131): code lengths until there are `total`. Each turn appends at
least one, so a fuel of `total + 1` never runs out (log entry 14). -/
def readLengths (clcode : Code) (total : Nat) : Nat → BitReader → List Nat →
    Option (List Nat × BitReader)
  | 0, _, _ => none
  | fuel + 1, r, lens =>
    if total ≤ lens.length then some (lens, r)
    else do
      let (s, r) ← decodeSym clcode r
      if s ≤ 15 then readLengths clcode total fuel r (lens ++ [s])
      else if s = 16 then
        match lens.getLast? with
        | none => none
        | some last =>
          let (n, r) ← getBits r 2
          readLengths clcode total fuel r (lens ++ List.replicate (3 + n) last)
      else if s = 17 then
        let (n, r) ← getBits r 3
        readLengths clcode total fuel r (lens ++ List.replicate (3 + n) 0)
      else
        let (n, r) ← getBits r 7
        readLengths clcode total fuel r (lens ++ List.replicate (11 + n) 0)

/-- `ReadDynamicTables` (R211, R130). -/
def readDynamicTables (r : BitReader) : Option (Code × Code × BitReader) := do
  let (hlit, r) ← getBits r 5
  let (hdist, r) ← getBits r 5
  let (hclen, r) ← getBits r 4
  let hlit := hlit + 257
  let hdist := hdist + 1
  if 286 < hlit ∨ 30 < hdist then none
  else
    let (cl, r) ← readCodeLengths (codeLengthOrder.take (hclen + 4)) r (List.replicate 19 0)
    let clcode ← buildCode true cl
    let (lens, r) ← readLengths clcode (hlit + hdist) (hlit + hdist + 1) r []
    if hlit + hdist < lens.length then none
    else if lens.getD 256 0 = 0 then none
    else
      let lit ← buildCode false (lens.take hlit)
      let dist ← buildCode false (lens.drop hlit)
      return (lit, dist, r)

/-- One block body by `BTYPE` (R207); 3 is reserved and invalid (R122). -/
def inflateBlock (btype : Nat) (r : BitReader) (out : Bytes) : Option (BitReader × Bytes) :=
  let fuel := 8 * r.data.length + 1
  if btype = 0 then inflateStored r out
  else if btype = 1 then inflateCodes fixedLitCode fixedDistCode fuel r out
  else if btype = 2 then do
    let (lit, dist, r) ← readDynamicTables r
    inflateCodes lit dist fuel r out
  else none

/-- The loop of `Inflate` (R207). Each block reads at least three bits (log entry 14). -/
def inflateBlocks : Nat → BitReader → Bytes → Option (BitReader × Bytes)
  | 0, _, _ => none
  | fuel + 1, r, out => do
    let (bfinal, r) ← getBits r 1
    let (btype, r) ← getBits r 2
    let (r, out) ← inflateBlock btype r out
    if bfinal = 1 then return (r, out) else inflateBlocks fuel r out

/-- `Inflate(d)` (R207): the data, and the number of bytes of `d` consumed. -/
def inflate (d : Bytes) : Option (Bytes × Nat) := do
  let (r, out) ← inflateBlocks (8 * d.length + 1) { data := d, pos := 0 } []
  return (out, (r.pos + 7) / 8)

/-- The header tests of `ZlibDecode` (R212): method, window, check bits, no preset dictionary. -/
def zlibHeaderOk (cmf flg : Byte) : Bool :=
  cmf.toNat % 16 == 8 && decide (cmf.toNat / 16 ≤ 7) && (cmf.toNat * 256 + flg.toNat) % 31 == 0 &&
    !flg.getLsbD 5

/-- `ZlibDecode(z)` (R212). -/
def zlibDecode (z : Bytes) : Option Bytes :=
  if z.length < 6 then none
  else if !zlibHeaderOk (z.getD 0 0) (z.getD 1 0) then none
  else
    match inflate (z.drop 2) with
    | none => none
    | some (data, used) =>
      if z.length ≠ 2 + used + 4 then none
      else if (z.drop (2 + used)).take 4 ≠ be32 (adler32 data) then none
      else some data

/-- Z1 of R190, the round trip every conforming compressor meets: `ZlibDecode(Z(s)) = Ok(s)`. -/
def Z1 (z : Bytes → Bytes) : Prop := ∀ s, zlibDecode (z s) = some s

end Sys2Proof.Machine
end

