-- ==== Sys2Proof/Machine/PngParse.lean ====
section
/-! DEFINITION. The PNG format: chunks, IHDR data, and the checker `PngParse`, a specification
function and not hardware (30_encoding.md R100 to R107; 43_png_framing.md R256). -/

namespace Sys2Proof.Machine

/-- `SIG` (R101). -/
def pngSignature : Bytes := [0x89, 0x50, 0x4E, 0x47, 0x0D, 0x0A, 0x1A, 0x0A]

/-- `ascii("IHDR")` (R103). -/
def typeIhdr : Bytes := [0x49, 0x48, 0x44, 0x52]

/-- `ascii("IDAT")` (R103). -/
def typeIdat : Bytes := [0x49, 0x44, 0x41, 0x54]

/-- `ascii("IEND")` (R103). -/
def typeIend : Bytes := [0x49, 0x45, 0x4E, 0x44]

/-- `Chunk(type, data)` (R102). The CRC covers the type and the data, not the length. -/
def chunk (type data : Bytes) : Bytes :=
  be32Nat data.length ++ type ++ data ++ be32 (crc32 (type ++ data))

/-- Bit depth 8, colour type 2, compression 0, filter 0, interlace 0 (R104). -/
def ihdrTail : Bytes := [0x08, 0x02, 0x00, 0x00, 0x00]

/-- `ihdr_data`, the 13 bytes of the IHDR chunk (R104). -/
def ihdrData (width height : Word) : Bytes := be32 width ++ be32 height ++ ihdrTail

/-- The datastream of an image whose zlib stream is `z` (R100). -/
def pngStream (width height : Word) (z : Bytes) : Bytes :=
  pngSignature ++ chunk typeIhdr (ihdrData width height) ++ chunk typeIdat z ++ chunk typeIend []

/-- DOC's `RasterImage` (R21): what a PNG decodes to. -/
structure Raster where
  width : Nat
  height : Nat
  pixels : Bytes
  deriving DecidableEq, Repr

/-- The chunks of `p`, each with its CRC checked (R256, the `while` loop). Each chunk takes at least
12 bytes, so a fuel of `len(p) + 1` never runs out (log entry 14). -/
def parseChunks : Nat → Bytes → Option (List (Bytes × Bytes))
  | 0, _ => none
  | fuel + 1, p =>
    if p = [] then some []
    else if p.length < 12 then none
    else
      let n := beValue (p.take 4)
      if 2 ^ 31 - 1 < n ∨ p.length < 12 + n then none
      else
        let type := (p.drop 4).take 4
        let data := (p.drop 8).take n
        if (p.drop (8 + n)).take 4 ≠ be32 (crc32 (type ++ data)) then none
        else (parseChunks fuel (p.drop (12 + n))).map ((type, data) :: ·)

/-- Remove the filter byte of each of `rows` rows of `rowBytes` pixel bytes; none where one is not
00 or the data is not exactly that long (R256). -/
def stripFilters (rowBytes : Nat) : Nat → Bytes → Option Bytes
  | 0, scan => if scan = [] then some [] else none
  | rows + 1, scan =>
    match scan with
    | [] => none
    | filter :: rest =>
      if filter ≠ 0x00 ∨ rest.length < rowBytes then none
      else (stripFilters rowBytes rows (rest.drop rowBytes)).map (rest.take rowBytes ++ ·)

/-- The image of an IHDR chunk's data and a zlib stream (R256, from `h = chunks[0].data` on). -/
def parseImage (h z : Bytes) : Option Raster :=
  let w := beValue (h.take 4)
  let ht := beValue ((h.drop 4).take 4)
  if w = 0 ∨ ht = 0 ∨ 2 ^ 31 - 1 < w ∨ 2 ^ 31 - 1 < ht then none
  else if h.drop 8 ≠ ihdrTail then none
  else
    match zlibDecode z with
    | none => none
    | some scan =>
      if scan.length ≠ ht * (1 + 3 * w) then none
      else (stripFilters (3 * w) ht scan).map fun pixels => { width := w, height := ht, pixels }

/-- `PngParse(p)` (R256). -/
def pngParse (p : Bytes) : Option Raster :=
  if p.length < 8 ∨ p.take 8 ≠ pngSignature then none
  else
    match parseChunks (p.length + 1) (p.drop 8) with
    | none => none
    | some [] => none
    | some (first :: rest) =>
      let middle := rest.dropLast
      match rest.getLast? with
      | none => none
      | some last =>
        if middle = [] then none
        else if first.1 ≠ typeIhdr ∨ first.2.length ≠ 13 then none
        else if last.1 ≠ typeIend ∨ last.2.length ≠ 0 then none
        else if middle.any (fun c => c.1 != typeIdat) then none
        else parseImage first.2 (middle.map (·.2)).flatten

end Sys2Proof.Machine
end

