-- ==== Sys2Proof/Machine/Ops.lean ====
section
/-! DEFINITION. The operations the commands share: the updates of the state, raising an error
(60_exceptions.md R298) and the re-initialisation that is the way back from one (R299; 44_system.md
R281), completing a command (R283), the capacity checks, and the bodies of the framing steps
(43_png_framing.md R240, R248). -/

namespace Sys2Proof.Machine

/-! ## Updates of the state -/

/-- `PHASE <- p` (00_scope.md R12). -/
def State.setPhase (s : State) (p : Phase) : State := { s with phase := p }

/-- `CRC <- c`. -/
def State.setCrc (s : State) (c : Word) : State := { s with crc := c }

/-- `ADA <- a; ADB <- b`. -/
def State.setAdler (s : State) (ab : BitVec 16 × BitVec 16) : State :=
  { s with ada := ab.1, adb := ab.2 }

/-- `SCAN[0 .. len(bs)) <- bs; SCAN_LEN <- len(bs)`. -/
def State.setScan (s : State) (bs : Bytes) : State :=
  { s with scan := s.scan.write 0 bs, scanLen := BitVec.ofNat 32 bs.length }

/-- `Z_LEN <- 0`, and the bit packer as a compression left it (R205). -/
def State.startZ (s : State) (buf : BitVec 8) (cnt : BitVec 3) : State :=
  { s with zLen := 0, bitbuf := buf, bitcnt := cnt }

/-- `MemWrite(ZBUF, 0, len(z), z); Z_LEN <- len(z)` (R205). -/
def State.setZ (s : State) (z : Bytes) : State :=
  { s with zbuf := s.zbuf.write 0 z, zLen := BitVec.ofNat 32 z.length }

/-- `OUT_LEN <- 0` (R241). -/
def State.clearOut (s : State) : State := { s with outLen := 0 }

/-- The writes of `Append(OUT, bs)` (R12), after its capacity check. -/
def State.putOut (s : State) (bs : Bytes) : State :=
  { s with out := s.out.write s.outLen.toNat bs,
           outLen := BitVec.ofNat 32 (s.outLen.toNat + bs.length) }

/-- `OUT_LEN <- 0; SCAN_LEN <- 0; Z_LEN <- 0` (R247). -/
def State.clearLengths (s : State) : State := { s with outLen := 0, scanLen := 0, zLen := 0 }

/-- The end of a command that succeeds (R283). -/
def State.complete (s : State) : State := { s with phase := .idle, busy := false, done := true }

/-! ## Raising an error, and the way back -/

/-- `raise E` (R298): the code is recorded, `PHASE` stays as the command set it, the command is
over. What the command changed before stays. -/
def State.raise (s : State) (e : PngeError) : State :=
  { s with err := some e, busy := false, done := true }

/-- `SRST` (R281; 10_state.md R45): every register to its reset value, `DONE` too; the buffers are
kept. -/
def State.softReset (s : State) : State :=
  { s with
    busy := false, done := false, err := none, phase := .idle
    width := 0, height := 0, pixLen := 0
    outLen := 0, scanLen := 0, zLen := 0
    lastCmd := 0
    crc := crcInitial, ada := 1, adb := 0
    bitbuf := 0, bitcnt := 0 }

/-! ## A command's run -/

/-- Where the pseudocode of a command stands: it goes on, it has raised an error, or it has read a
byte the model cannot give (R75). -/
inductive Flow where
  | go (s : State)
  | raised (e : PngeError) (s : State)
  | stuck (f : Fault)
  deriving DecidableEq, Repr

/-- The next piece of pseudocode; "nothing after the `raise` is performed" (R12). -/
def Flow.andThen (f : Flow) (next : State → Flow) : Flow :=
  match f with
  | .go s => next s
  | .raised e s => .raised e s
  | .stuck x => .stuck x

/-- The end of a step command: completion (R283) or the error entry (R298). -/
def Flow.finish : Flow → Host.Outcome State Fault Refusal
  | .go s => .next s.complete
  | .raised e s => .next (s.raise e)
  | .stuck x => .fault x

/-- The end of `PNG.ENCODE`: on a raise the three lengths are zeroed as well (R247, R298). -/
def Flow.finishEncode : Flow → Host.Outcome State Fault Refusal
  | .go s => .next s.complete
  | .raised e s => .next (s.clearLengths.raise e)
  | .stuck x => .fault x

/-! ## The bodies of the steps -/

/-- `Validate()` (R248): the checks in their fixed order, with unbounded products (R288). -/
def validate (s : State) : Flow :=
  if s.width = 0 ∨ s.height = 0 then .raised .unsupportedDimensions s
  else if s.pixLen.toNat ≠ s.width.toNat * s.height.toNat * 3 then .raised .bufferSizeMismatch s
  else if s.cfg.pixCap < s.pixLen.toNat then .raised .capacityExceeded s
  else if s.cfg.scanCap < s.height.toNat * (1 + s.width.toNat * 3) then .raised .capacityExceeded s
  else .go s

/-- `Append(OUT, bs)` (R12). -/
def appendOut (bs : Bytes) (s : State) : Flow :=
  if s.cfg.outCap < s.outLen.toNat + bs.length then .raised .capacityExceeded s
  else .go (s.putOut bs)

/-- `EmitChunk(type, data)` (R240): the capacity check, then the CRC unit over `type ++ data`, then
the append. The chunk is `Chunk(type, data)` of R102; its CRC field is read from the CRC unit. -/
def emitChunk (type data : Bytes) (s : State) : Flow :=
  if s.cfg.outCap < s.outLen.toNat + 12 + data.length then .raised .capacityExceeded s
  else
    let c := crcFold crcInitial (type ++ data)
    .go ((s.setCrc c).putOut (be32Nat data.length ++ type ++ data ++ be32 (c ^^^ 0xFFFFFFFF)))

/-- `PHASE <- SIG`, and the signature (R242). -/
def sigStep (s : State) : Flow := appendOut pngSignature (s.setPhase .sig)

/-- `PHASE <- IHDR`, and the IHDR chunk (R243, R247), without R243's dimension check. -/
def ihdrStep (s : State) : Flow :=
  emitChunk typeIhdr (ihdrData s.width s.height) (s.setPhase .ihdr)

/-- R243's check: `if WIDTH = 0 or HEIGHT = 0: raise UnsupportedDimensions`. -/
def checkDimensions (s : State) : Flow :=
  if s.width = 0 ∨ s.height = 0 then .raised .unsupportedDimensions s else .go s

/-- The loop of R244: the scanline buffer from `PIX`. Log entries 6 and 11. -/
def buildScan (s : State) : Flow :=
  match scanlines s with
  | none => .stuck .pixNeverWritten
  | some bs => .go (s.setScan bs)

/-- `PHASE <- SCAN`, and the loop of R244 (R247). -/
def scanStep (s : State) : Flow := buildScan (s.setPhase .scan)

/-- `PHASE <- ZCOMP`, the Adler pass, the compression and its capacity check (R205). The Adler sums
are written and `Z_LEN` is zeroed before the check. -/
def zcompStep (s : State) : Flow :=
  let data := scanData s
  let z := compress s.cfg.compMode data
  let s := ((s.setPhase .zcomp).setAdler (adlerFold adlerInitial data)).startZ z.bitbuf z.bitcnt
  if s.cfg.zCap < z.stream.length then .raised .capacityExceeded s else .go (s.setZ z.stream)

/-- `PHASE <- IDAT`, and the IDAT chunk (R245). -/
def idatStep (s : State) : Flow := emitChunk typeIdat (zData s) (s.setPhase .idat)

/-- `PHASE <- IEND`, and the IEND chunk (R246). -/
def iendStep (s : State) : Flow := emitChunk typeIend [] (s.setPhase .iend)

end Sys2Proof.Machine
end

