-- ==== Sys2Proof/Machine/Checksum.lean ====
section
/-! DEFINITION. The commands of the CRC unit (40_crc32.md) and the Adler unit (41_adler32.md). -/

namespace Sys2Proof.Machine

/-- `CRC.INIT` (R155). -/
def execCrcInit (s : State) : Host.Outcome State Fault Refusal :=
  (Flow.go (s.setCrc crcInitial)).finish

/-- `CRC.BYTE imm8` (R156). -/
def execCrcByte (imm8 : Byte) (s : State) : Host.Outcome State Fault Refusal :=
  (Flow.go (s.setCrc (crcStep s.crc imm8))).finish

/-- `ADL.INIT` (R181). -/
def execAdlInit (s : State) : Host.Outcome State Fault Refusal :=
  (Flow.go (s.setAdler adlerInitial)).finish

/-- `ADL.BYTE imm8` (R182). -/
def execAdlByte (imm8 : Byte) (s : State) : Host.Outcome State Fault Refusal :=
  (Flow.go (s.setAdler (adlerStep (s.ada, s.adb) imm8))).finish

end Sys2Proof.Machine
end

