-- ==== Sys2Proof/Machine/Compress.lean ====
section
/-! DEFINITION. The command of the Deflate unit (42_deflate.md section 5). -/

namespace Sys2Proof.Machine

/-- `PNG.ZCOMP` (R205). -/
def execPngZcomp (s : State) : Host.Outcome State Fault Refusal := (zcompStep s).finish

end Sys2Proof.Machine
end

