-- ==== Sys2Proof/Machine/Encode.lean ====
section
/-! DEFINITION. The whole operation (43_png_framing.md section 3). -/

namespace Sys2Proof.Machine

/-- The pseudocode of R247: validate, signature, IHDR, scanline buffer, compression, IDAT, IEND. -/
def encodeRun (s : State) : Flow :=
  ((((((validate (s.clearLengths.setPhase .scan)).andThen sigStep).andThen ihdrStep).andThen
    scanStep).andThen zcompStep).andThen idatStep).andThen iendStep

/-- `PNG.ENCODE` (R247): DOC's `encode`. -/
def execPngEncode (s : State) : Host.Outcome State Fault Refusal := (encodeRun s).finishEncode

end Sys2Proof.Machine
end

