-- ==== Sys2Proof/Machine/Framing.lean ====
section
/-! DEFINITION. The step commands of the Framer (43_png_framing.md section 2). -/

namespace Sys2Proof.Machine

/-- `OUT.CLR` (R241): the bytes of `OUT` are not erased. -/
def execOutClr (s : State) : Host.Outcome State Fault Refusal := (Flow.go s.clearOut).finish

/-- `PNG.SIG` (R242). -/
def execPngSig (s : State) : Host.Outcome State Fault Refusal := (sigStep s).finish

/-- `PNG.IHDR` (R243): the dimensions are checked first. -/
def execPngIhdr (s : State) : Host.Outcome State Fault Refusal :=
  ((checkDimensions (s.setPhase .ihdr)).andThen ihdrStep).finish

/-- `PNG.SCAN` (R244). -/
def execPngScan (s : State) : Host.Outcome State Fault Refusal :=
  ((validate (s.setPhase .scan)).andThen scanStep).finish

/-- `PNG.IDAT` (R245). -/
def execPngIdat (s : State) : Host.Outcome State Fault Refusal := (idatStep s).finish

/-- `PNG.IEND` (R246). -/
def execPngIend (s : State) : Host.Outcome State Fault Refusal := (iendStep s).finish

end Sys2Proof.Machine
end

