-- ==== Sys2Proof/Machine/System.lean ====
section
/-! DEFINITION. The system commands `NOP` and `SRST` (44_system.md). -/

namespace Sys2Proof.Machine

/-- `NOP` (R280): the completion flags only. -/
def execNop (s : State) : Host.Outcome State Fault Refusal := (Flow.go s).finish

/-- `SRST` (R281): `DONE` is 0 afterwards, "the one exception to rule R283's completion flags". -/
def execSrst (s : State) : Host.Outcome State Fault Refusal := .next s.softReset

end Sys2Proof.Machine
end

