-- ==== Sys2Proof/Machine/Dispatch.lean ====
section
/-! DEFINITION. Which meaning performs which command (44_system.md R283; 30_encoding.md R92). -/

namespace Sys2Proof.Machine

def exec (i : Instr) (s : State) : Host.Outcome State Fault Refusal :=
  match i with
  | .nop => Sys2Proof.Machine.execNop s
  | .srst => Sys2Proof.Machine.execSrst s
  | .crcInit => Sys2Proof.Machine.execCrcInit s
  | .crcByte imm8 => Sys2Proof.Machine.execCrcByte imm8 s
  | .adlInit => Sys2Proof.Machine.execAdlInit s
  | .adlByte imm8 => Sys2Proof.Machine.execAdlByte imm8 s
  | .outClr => Sys2Proof.Machine.execOutClr s
  | .pngSig => Sys2Proof.Machine.execPngSig s
  | .pngIhdr => Sys2Proof.Machine.execPngIhdr s
  | .pngScan => Sys2Proof.Machine.execPngScan s
  | .pngZcomp => Sys2Proof.Machine.execPngZcomp s
  | .pngIdat => Sys2Proof.Machine.execPngIdat s
  | .pngIend => Sys2Proof.Machine.execPngIend s
  | .pngEncode => Sys2Proof.Machine.execPngEncode s

end Sys2Proof.Machine
end

