-- ==== Sys2Proof/Machine/HostPort.lean ====
section
/-! DEFINITION. The host's steps (20_memory.md R65, R66, R70; 44_system.md R282, R284 to R286) and the
environment's hardware reset (70_reset_and_hazards.md R320 to R322). -/

namespace Sys2Proof.Machine

/-- The host registers (10_state.md section 2). -/
inductive Register where
  | cmd
  | status
  | width
  | height
  | pixLen
  | outLen
  | scanLen
  | zLen
  | crcVal
  | adlerVal
  | lastCmd
  deriving DecidableEq, Repr

/-- The register at a byte offset; none at the reserved offsets `0x2C` and above (R33) and at an
offset that is not a multiple of 4 (R63). -/
def registerAt (offset : Nat) : Option Register :=
  match offset with
  | 0x00 => some .cmd
  | 0x04 => some .status
  | 0x08 => some .width
  | 0x0C => some .height
  | 0x10 => some .pixLen
  | 0x14 => some .outLen
  | 0x18 => some .scanLen
  | 0x1C => some .zLen
  | 0x20 => some .crcVal
  | 0x24 => some .adlerVal
  | 0x28 => some .lastCmd
  | _ => none

/-- A result register: its value, or while busy an unspecified value (R286, 93 U3). -/
def whenIdle (s : State) (v : Word) : Word := if s.busy then Config.freeWord s.draws else v

/-- What a host read of a register returns (R286). -/
def registerValue (s : State) : Register → Word
  | .cmd => 0
  | .status =>
    statusWord s.busy s.done (errCode s.err)
      (if s.busy then Config.freePhase s.draws else s.phase.code)
  | .width => s.width
  | .height => s.height
  | .pixLen => s.pixLen
  | .outLen => whenIdle s s.outLen
  | .scanLen => whenIdle s s.scanLen
  | .zLen => whenIdle s s.zLen
  | .crcVal => whenIdle s (crcVal s)
  | .adlerVal => whenIdle s (adlerVal s)
  | .lastCmd => s.lastCmd

/-- What a host read at an offset returns: a reserved offset reads 0 (R33); an offset that is not a
multiple of 4 reads an unspecified value (R63; log entry 9). -/
def readRegister (offset : Nat) (s : State) : Word :=
  if offset % 4 ≠ 0 then Config.freeWord s.draws
  else
    match registerAt offset with
    | none => 0
    | some r => registerValue s r

/-- Issue (R282, after its test of `BUSY`): refused while `ERR != 0` unless the word is `SRST`
(R285), else accepted. The word is not decoded. -/
def issue (w : Word) (s : State) : State :=
  if s.err ≠ none ∧ w ≠ 0x00000001 then s
  else { s with lastCmd := w, busy := true, done := false }

/-- A host write of `v` at an offset (R286): ignored while busy (R284), at a read-only or reserved
offset, and at an offset that is not a multiple of 4 (R63). -/
def writeRegister (offset : Nat) (v : Word) (s : State) : State :=
  if s.busy then s
  else
    match registerAt offset with
    | some .cmd => issue v s
    | some .width => { s with width := v }
    | some .height => { s with height := v }
    | some .pixLen => { s with pixLen := v }
    | _ => s

/-- `HostWritePix(i, b)` (R65): ignored while busy and outside `0 .. PIX_CAP`. -/
def writePix (i : Nat) (b : Byte) (s : State) : State :=
  if s.busy then s
  else if i < s.cfg.pixCap then { s with pix := s.pix.write i [b] }
  else s

/-- What `HostReadOut(i)` returns (R66): `OUT[i]` when not busy and below `OUT_LEN`, else an
unspecified value (93 U2). -/
def readOut (i : Nat) (s : State) : Byte :=
  if s.busy = false ∧ i < s.outLen.toNat then (s.out.read i).getD (Config.freeByte s.draws)
  else Config.freeByte s.draws

/-- The host learns an answer, and the next read draws anew (93 U2, U3). Nothing of PNGE changes
(R67). Log entries 4 and 5. -/
def answer (a : Answer) (s : State) : State :=
  { s with answers := s.answers ++ [a], draws := s.draws + 1 }

/-- One host step (R70). -/
def hostStep (action : HostAction) (s : State) : State :=
  match action with
  | .readRegister offset => answer (.register offset (readRegister offset s)) s
  | .writeRegister offset v => writeRegister offset v s
  | .writePix i b => writePix i b s
  | .readOut i => answer (.outByte i (readOut i s)) s

/-- The hardware reset (R320, R321, R322), in any state: PNGE is as after reset. The configuration
and the model's own fields are not PNGE's registers and stay (log entries 1 and 20). -/
def hardwareReset (s : State) : State :=
  { State.reset with cfg := s.cfg, turns := s.turns, answers := s.answers, draws := s.draws }

end Sys2Proof.Machine
end

