-- ==== Sys2Proof/Machine/Perform.lean ====
section
/-! DEFINITION. The engine's step, and one step of an execution (44_system.md R283; 20_memory.md R70). -/

namespace Sys2Proof.Machine

/-- Perform (R283): decode `LAST_CMD` and run the command as one atomic step. A word that matches no
row gives `IllegalCommand` with `PHASE = IDLE` and changes nothing else (R295). -/
def perform (s : State) : Host.Outcome State Fault Refusal :=
  match decode s.lastCmd with
  | .error _ => .next ((s.setPhase .idle).raise .illegalCommand)
  | .ok i => exec i s

/-- The engine's turn: it performs exactly when `BUSY = 1`, else it does nothing (R283). -/
def engineStep (s : State) : Host.Outcome State Fault Refusal :=
  if s.busy then perform s else .next s

/-- The step that the turn at the head of `turns` names, with that turn taken off; with no turn
left, the engine's (R283: "the perform step does occur"; R329). Log entry 3. -/
def stepTurn (s : State) : Host.Outcome State Fault Refusal :=
  match s.turns with
  | [] => engineStep s
  | .engine :: rest => engineStep { s with turns := rest }
  | .host action :: rest => .next (hostStep action { s with turns := rest })
  | .hardwareReset :: rest => .next (hardwareReset { s with turns := rest })

/-- The state in which the command word `w` has been issued and the next turn is the engine's
(R282, R283). Log entry 10. -/
def issued (w : Word) (s : State) : State :=
  { s with lastCmd := w, busy := true, done := false, turns := .engine :: s.turns }

end Sys2Proof.Machine
end

