-- ==== Sys2Proof/Machine/Step.lean ====
section
/-! DEFINITION. One step of the machine (20_memory.md R70). -/

namespace Sys2Proof.Machine

/-- One step (R70). -/
def step (s : State) : Host.Outcome State Fault Refusal := stepTurn s

/-- `s` with the command word of a table row issued and the engine's turn next, so that the next
step performs exactly that command (log entry 10). A number that is no 32-bit word issues nothing. -/
def State.withFetchWord (s : State) (nbits w : Nat) : State :=
  match tableWord nbits w with
  | none => s
  | some word => issued word s

end Sys2Proof.Machine
end

