-- ==== Sys2Proof/WellFormed.lean ====
section
/-! DEFINITION. Which terms are well formed: commands (all of them: R91), host actions (R60, R62,
R63) and configurations (R8). -/

namespace Sys2Proof

/-- R91: `imm8` is an unsigned byte 0 to 255 "with no extension, scaling or shifting", which its
type says; no command has another operand. So every term is a well-formed command. -/
def Instr.wellFormed : Instr → Bool
  | .nop => true
  | .srst => true
  | .crcInit => true
  | .crcByte _ => true
  | .adlInit => true
  | .adlByte _ => true
  | .outClr => true
  | .pngSig => true
  | .pngIhdr => true
  | .pngScan => true
  | .pngZcomp => true
  | .pngIdat => true
  | .pngIend => true
  | .pngEncode => true

/-- R62, R63: a register access is one whole word at an offset that is a multiple of 4. R60: an
index into `PIX` or `OUT` is at most 32 bits wide. -/
def Machine.HostAction.wellFormed : Machine.HostAction → Bool
  | .readRegister offset => offset % 4 == 0
  | .writeRegister offset _ => offset % 4 == 0
  | .writePix index _ => decide (index < 2 ^ 32)
  | .readOut index => decide (index < 2 ^ 32)

/-- A turn is well formed when the host action in it is. -/
def Machine.Turn.wellFormed : Machine.Turn → Bool
  | .host action => action.wellFormed
  | .engine => true
  | .hardwareReset => true

/-- The ranges of R8. -/
def Config.wellFormed (c : Config) : Bool :=
  decide (3 ≤ c.pixCap ∧ c.pixCap < 2 ^ 32) && decide (4 ≤ c.scanCap ∧ c.scanCap < 2 ^ 32) &&
    decide (15 ≤ c.zCap ∧ c.zCap < 2 ^ 31) && decide (72 ≤ c.outCap ∧ c.outCap < 2 ^ 32)

end Sys2Proof
end

