-- ==== Sys2Proof/Safety.lean ====
section
/-! DEFINITION. The terms in which claims are stated: the invariant of reachable states, commands as
the host issues them, what an accepted image is, and what an append to `OUT` does. -/

namespace Sys2Proof.Machine

/-- R249, R258: `BUSY = 0` and `ERR = 0`. -/
def State.Ready (s : State) : Prop := s.busy = false ∧ s.err = none

/-- What holds in every reachable state. The first five clauses are R23's invariants, R36 and R35;
`bits` is R37's; `lengths` is R27, R28, R29; the rest says that the memories are canonical, stay
inside their capacities (R294) and hold a byte at every index below their length (93 U4). -/
structure State.Inv (s : State) : Prop where
  config : s.cfg.wellFormed = true
  busyDone : ¬(s.busy = true ∧ s.done = true)
  errState : s.err ≠ none →
    (s.busy = false ∧ s.done = true) ∨ (s.busy = true ∧ s.lastCmd = 0x00000001)
  phaseIdle : s.err = none → s.phase = .idle
  sums : s.ada.toNat < adlerMod ∧ s.adb.toNat < adlerMod
  bits : s.bitbuf = 0 ∧ s.bitcnt = 0
  lengths : s.outLen.toNat ≤ s.cfg.outCap ∧ s.scanLen.toNat ≤ s.cfg.scanCap ∧
    s.zLen.toNat ≤ s.cfg.zCap
  canonical : s.pix.wf ∧ s.scan.wf ∧ s.zbuf.wf ∧ s.out.wf
  bounded : s.pix.within s.cfg.pixCap ∧ s.scan.within s.cfg.scanCap ∧ s.zbuf.within s.cfg.zCap ∧
    s.out.within s.cfg.outCap
  filled : s.scan.filled s.scanLen.toNat ∧ s.zbuf.filled s.zLen.toNat ∧ s.out.filled s.outLen.toNat

/-- `s` with the turn at the head of `turns` taken off. -/
def State.popTurn (s : State) : State := { s with turns := s.turns.tail }

/-- It is the engine's turn: the turn says so, or none is left (log entry 3). -/
def State.EnginesTurn (s : State) : Prop := s.turns.head? = none ∨ s.turns.head? = some .engine

/-- A command statement of R95: the host writes the word to `CMD`, then waits until `BUSY = 0`. -/
def runWord (w : Word) (s : State) : Host.Outcome State Fault Refusal :=
  engineStep (writeRegister 0x00 w s)

/-- Command statements one after another (R95). -/
def runWords : List Word → State → Host.Outcome State Fault Refusal
  | [], s => .next s
  | w :: ws, s =>
    match runWord w s with
    | .next t => runWords ws t
    | .fault f => .fault f
    | .refused r => .refused r

/-- `CRC.MSG m` (R96). -/
def crcMessage (m : Bytes) : List Word := encode .crcInit :: m.map fun b => encode (.crcByte b)

/-- `ADL.MSG m` (R96). -/
def adlMessage (m : Bytes) : List Word := encode .adlInit :: m.map fun b => encode (.adlByte b)

/-- The step commands that R249 sets against `PNG.ENCODE`. -/
def stepSequence : List Word :=
  [encode .outClr, encode .pngSig, encode .pngIhdr, encode .pngScan, encode .pngZcomp,
    encode .pngIdat, encode .pngIend]

/-- `Validate` passes (R248). -/
def State.ImageAccepted (s : State) : Prop :=
  s.width ≠ 0 ∧ s.height ≠ 0 ∧ s.pixLen.toNat = s.width.toNat * s.height.toNat * 3 ∧
    s.pixLen.toNat ≤ s.cfg.pixCap ∧ s.height.toNat * (1 + s.width.toNat * 3) ≤ s.cfg.scanCap

/-- The host has written every byte of `PIX[0 .. PIX_LEN)` (R75, R328). -/
def State.PixWritten (s : State) : Prop := s.pix.filled s.pixLen.toNat

/-- `pixels[i]`, the written byte of `PIX` at `i` (R21). -/
def State.pixel (s : State) (i : Nat) : Byte := (s.pix.read i).getD 0

/-- The scanline buffer byte by byte (R105, R21): byte `j` of row `r` is the filter byte 00 for
`j = 0`, else `PIX[r * WIDTH * 3 + j - 1]`. -/
def State.scanByte (s : State) (r j : Nat) : Byte :=
  if j = 0 then 0x00 else s.pixel (r * (s.width.toNat * 3) + (j - 1))

/-- `scan` is the scanline buffer of the image in `s` (R105). -/
def State.IsScan (s : State) (scan : Bytes) : Prop :=
  scan.length = s.height.toNat * (1 + s.width.toNat * 3) ∧
    ∀ r < s.height.toNat, ∀ j < 1 + s.width.toNat * 3,
      scan[r * (1 + s.width.toNat * 3) + j]? = some (s.scanByte r j)

/-- R258's premises: an accepted image, all of it written, with scanline buffer `scan`, in an
instance whose capacities suffice. -/
structure State.CanEncode (s : State) (scan : Bytes) : Prop where
  config : s.cfg.wellFormed = true
  accepted : s.ImageAccepted
  written : s.PixWritten
  isScan : s.IsScan scan
  zFits : (zStream s.cfg.compMode scan).length ≤ s.cfg.zCap
  outFits : 57 + (zStream s.cfg.compMode scan).length ≤ s.cfg.outCap

/-- What a sequence of tokens stands for (R124, R197): a literal is its byte, a match copies
`length` bytes from `distance` bytes back, byte by byte. -/
def expandTokens (ts : List Token) : Bytes :=
  ts.foldl (fun out t => match t with
    | .lit b => out ++ [b]
    | .copy len dist => copyMatch dist len out) []

/-- `t.OUT` is `s.OUT` with `bs` appended at `s.OUT_LEN`, and no other byte changed (R12). -/
def Appends (bs : Bytes) (s t : State) : Prop :=
  t.outLen.toNat = s.outLen.toNat + bs.length ∧
    (∀ k, k < bs.length → t.out.read (s.outLen.toNat + k) = bs[k]?) ∧
    ∀ a, a < s.outLen.toNat ∨ s.outLen.toNat + bs.length ≤ a → t.out.read a = s.out.read a

/-- `bs` with bit `k` of byte `i` inverted. -/
def flipBit (bs : Bytes) (i k : Nat) : Bytes := bs.modify i (· ^^^ BitVec.twoPow 8 k)

/-- What the host can reach of PNGE (R20, the access column; R329): the registers and
`OUT[0 .. OUT_LEN)`. -/
def State.OutputsAgree (s t : State) : Prop :=
  s.busy = t.busy ∧ s.done = t.done ∧ s.err = t.err ∧ s.phase = t.phase ∧ s.outLen = t.outLen ∧
    s.scanLen = t.scanLen ∧ s.zLen = t.zLen ∧
    ∀ i < s.outLen.toNat, s.out.read i = t.out.read i

/-- Two states present the same image to the same instance (R255). -/
def State.SameImage (s t : State) : Prop :=
  s.cfg = t.cfg ∧ s.width = t.width ∧ s.height = t.height ∧ s.pixLen = t.pixLen ∧
    ∀ i < s.pixLen.toNat, s.pix.read i = t.pix.read i

end Sys2Proof.Machine
end

