-- ==== Sys2Proof/Certificates/Slice0/Obligations.lean ====
section
/-! DEFINITION. The statements for the provers. Each docstring names the rule of spec/ it formalises. -/

open Sys2Proof Sys2Proof.Machine

/-! ## The command word -/

/-- 30_encoding.md R90 to R94: decoding an encoded command gives it back, with every immediate, and a
word that decodes to a command is that command's word. -/
def Obligations.DecodeEncodeInverse : Prop :=
  (∀ i : Instr, i.wellFormed = true → decode (encode i) = .ok i) ∧
    ∀ (w : Word) (i : Instr), decode w = .ok i → encode i = w

/-- R92: the fourteen words, written out from the table. -/
def Obligations.SpecWordsDecode : Prop :=
  decode 0b00000000000000000000000000000000#32 = .ok .nop ∧
  decode 0b00000000000000000000000000000001#32 = .ok .srst ∧
  decode 0b00000000000000000000000000010000#32 = .ok .crcInit ∧
  decode 0b00000000000000001111111100010001#32 = .ok (.crcByte 0xFF) ∧
  decode 0b00000000000000000000000000011000#32 = .ok .adlInit ∧
  decode 0b00000000000000000110000100011001#32 = .ok (.adlByte 0x61) ∧
  decode 0b00000000000000000000000000100000#32 = .ok .outClr ∧
  decode 0b00000000000000000000000000100001#32 = .ok .pngSig ∧
  decode 0b00000000000000000000000000100010#32 = .ok .pngIhdr ∧
  decode 0b00000000000000000000000000100011#32 = .ok .pngScan ∧
  decode 0b00000000000000000000000000100100#32 = .ok .pngZcomp ∧
  decode 0b00000000000000000000000000100101#32 = .ok .pngIdat ∧
  decode 0b00000000000000000000000000100110#32 = .ok .pngIend ∧
  decode 0b00000000000000000000000000101111#32 = .ok .pngEncode

/-- R93, R295: exactly these words are illegal, and a busy engine that performs one sets
`IllegalCommand` with `PHASE = 0` and changes nothing else. That the step of a machine does so on the
engine's turn is in `StepRunsDecodedCommand`. -/
def Obligations.IllegalWordsRaiseIllegalCommand : Prop :=
  (∀ w : Word, (∃ e, decode w = .error e) ↔
    (w.extractLsb' 16 16 ≠ 0 ∨
      w.extractLsb' 0 8 ∉ ([0x00, 0x01, 0x10, 0x11, 0x18, 0x19, 0x20, 0x21, 0x22, 0x23, 0x24, 0x25,
        0x26, 0x2F] : List Byte) ∨
      (w.extractLsb' 0 8 ≠ 0x11 ∧ w.extractLsb' 0 8 ≠ 0x19 ∧ w.extractLsb' 8 8 ≠ 0))) ∧
  ∀ s : State, s.busy = true → (∃ e, decode s.lastCmd = .error e) →
    engineStep s = .next { s with
      phase := .idle, err := some .illegalCommand, busy := false, done := true }

/-! ## The step -/

/-- 44_system.md section 1: on the engine's turn a busy engine performs the command that `LAST_CMD`
decodes to, in one step, or raises `IllegalCommand` where it decodes to none, and an idle engine does
nothing. The model takes the turn off its list
`turns` (DESIGN CHOICE, log entry 3). -/
def Obligations.StepRunsDecodedCommand : Prop :=
  (∀ (s : State) (i : Instr), s.EnginesTurn → s.busy = true → decode s.lastCmd = .ok i →
    step s = exec i s.popTurn) ∧
  (∀ s : State, s.EnginesTurn → s.busy = true → (∃ e, decode s.lastCmd = .error e) →
    step s = .next { s.popTurn with
      phase := .idle, err := some .illegalCommand, busy := false, done := true }) ∧
  (∀ s : State, s.EnginesTurn → s.busy = false → step s = .next s.popTurn) ∧
  (∀ (s : State) (a : HostAction), s.turns.head? = some (.host a) →
    step s = .next (hostStep a s.popTurn)) ∧
  ∀ s : State, s.turns.head? = some .hardwareReset → step s = .next (hardwareReset s.popTurn)

/-- 44_system.md sections 1 and 2: a performed command leaves `BUSY = 0`, and `DONE = 1` unless it is
`SRST`; `PHASE` is 0 when there is no error. -/
def Obligations.PerformedCommandsAreDone : Prop :=
  ∀ (i : Instr) (s t : State), exec i s = .next t →
    t.busy = false ∧ (i ≠ .srst → t.done = true) ∧ (i = .srst → t.done = false) ∧
      (t.err = none → t.phase = .idle)

/-- 60_exceptions.md section 1, 70_reset_and_hazards.md section 5: no command is refused, and the only
fault is `PNG.SCAN` or `PNG.ENCODE` reading a `PIX` byte below `PIX_LEN` that was never written. -/
def Obligations.OnlyUnwrittenPixelsStop : Prop :=
  ∀ (i : Instr) (s : State), s.cfg.wellFormed = true →
    (∀ r, exec i s ≠ .refused r) ∧
    ((∃ f, exec i s = .fault f) ↔
      (i = .pngScan ∨ i = .pngEncode) ∧ s.ImageAccepted ∧
        ∃ k < s.pixLen.toNat, s.pix.read k = none)

/-! ## What each command does, and its frame -/

/-- R280, R281, R241: `NOP` sets the completion flags and nothing else; `SRST` re-initialises every
register, clears `DONE` and `ERR`, keeps the four buffers, and alone is accepted after an error;
`OUT.CLR` zeroes `OUT_LEN`. -/
def Obligations.SystemCommandResults : Prop :=
  (∀ s : State, exec .nop s = .next { s with phase := .idle, busy := false, done := true }) ∧
  (∀ s : State, exec .srst s = .next { s with
    busy := false, done := false, err := none, phase := .idle, width := 0, height := 0, pixLen := 0,
    outLen := 0, scanLen := 0, zLen := 0, lastCmd := 0, crc := 0xFFFFFFFF, ada := 1, adb := 0,
    bitbuf := 0, bitcnt := 0 }) ∧
  (∀ s : State, exec .outClr s = .next { s with
    outLen := 0, phase := .idle, busy := false, done := true }) ∧
  encode .nop = 0x00000000 ∧ encode .srst = 0x00000001 ∧ encode .outClr = 0x00000020 ∧
  (∃ e, decode 0x00000100 = .error e) ∧
  (∀ s : State, s.Ready → runWord (encode .nop) s =
    .next { s with lastCmd := 0, phase := .idle, done := true }) ∧
  (∀ s : State, s.busy = false → ∃ t, runWord (encode .srst) s = .next t ∧
    readRegister 0x04 t = 0 ∧ readRegister 0x28 t = 0 ∧ t.pix = s.pix ∧ t.scan = s.scan ∧
      t.zbuf = s.zbuf ∧ t.out = s.out) ∧
  (∀ s : State, s.busy = true ∨ s.err ≠ none →
    writeRegister 0x00 (encode .nop) s = s ∧ writeRegister 0x00 (encode .outClr) s = s) ∧
  ∀ s : State, s.busy = true → writeRegister 0x00 (encode .srst) s = s

/-- R155, R156, R181, R182: each command of the two checksum units writes its unit's registers and the
completion flags, and nothing else; it is refused while busy and after an error. -/
def Obligations.ChecksumCommandResults : Prop :=
  (∀ s : State, exec .crcInit s = .next { s with
    crc := 0xFFFFFFFF, phase := .idle, busy := false, done := true }) ∧
  (∀ (b : Byte) (s : State), exec (.crcByte b) s = .next { s with
    crc := crcStep s.crc b, phase := .idle, busy := false, done := true }) ∧
  (∀ s : State, exec .adlInit s = .next { s with
    ada := 1, adb := 0, phase := .idle, busy := false, done := true }) ∧
  (∀ (b : Byte) (s : State), exec (.adlByte b) s = .next { s with
    ada := BitVec.ofNat 16 ((s.ada.toNat + b.toNat) % 65521)
    adb := BitVec.ofNat 16 ((s.adb.toNat + (s.ada.toNat + b.toNat) % 65521) % 65521)
    phase := .idle, busy := false, done := true }) ∧
  encode .crcInit = 0x00000010 ∧ encode .adlInit = 0x00000018 ∧
  (∀ b : Byte, encode (.crcByte b) = (b.setWidth 32 <<< 8) ||| 0x00000011 ∧
    encode (.adlByte b) = (b.setWidth 32 <<< 8) ||| 0x00000019) ∧
  ∀ (b : Byte) (s : State), s.busy = true ∨ s.err ≠ none →
    ∀ i ∈ [Instr.crcInit, .crcByte b, .adlInit, .adlByte b], writeRegister 0x00 (encode i) s = s

/-- R242, `PNG.SIG`: where the eight signature bytes fit, they are appended at `OUT_LEN` and nothing
else but the completion flags changes; where not, `CapacityExceeded` with `PHASE = 1`, nothing
appended. -/
def Obligations.SigAppendsSignature : Prop :=
  ∀ s : State, s.cfg.wellFormed = true →
    encode .pngSig = 0x00000021 ∧
    (s.outLen.toNat + 8 ≤ s.cfg.outCap →
      ∃ t, exec .pngSig s = .next t ∧
        Appends [0x89, 0x50, 0x4E, 0x47, 0x0D, 0x0A, 0x1A, 0x0A] s t ∧
        t = { s with out := t.out, outLen := t.outLen, phase := .idle, busy := false, done := true }) ∧
    (s.cfg.outCap < s.outLen.toNat + 8 →
      exec .pngSig s = .next { s with
        phase := .sig, err := some .capacityExceeded, busy := false, done := true })

/-- R243, `PNG.IHDR`: where the dimensions are not 0 and the chunk fits, the 25 bytes of the IHDR
chunk are appended and `CRC_VAL` is the CRC just appended; else `UnsupportedDimensions`, checked
first, or `CapacityExceeded`, with `PHASE = 2` and nothing appended. -/
def Obligations.IhdrAppendsHeaderChunk : Prop :=
  ∀ s : State, s.cfg.wellFormed = true →
    let body : Bytes := [0x49, 0x48, 0x44, 0x52] ++ be32 s.width ++ be32 s.height ++
      [0x08, 0x02, 0x00, 0x00, 0x00]
    let failed (e : PngeError) : State :=
      { s with phase := .ihdr, err := some e, busy := false, done := true }
    encode .pngIhdr = 0x00000022 ∧
    (s.width ≠ 0 → s.height ≠ 0 → s.outLen.toNat + 25 ≤ s.cfg.outCap →
      ∃ t, exec .pngIhdr s = .next t ∧
        Appends ([0x00, 0x00, 0x00, 0x0D] ++ body ++ be32 (crc32 body)) s t ∧
        crcVal t = crc32 body ∧
        t = { s with out := t.out, outLen := t.outLen, crc := t.crc, phase := .idle, busy := false,
                     done := true }) ∧
    (s.width = 0 ∨ s.height = 0 → exec .pngIhdr s = .next (failed .unsupportedDimensions)) ∧
    (s.width ≠ 0 → s.height ≠ 0 → s.cfg.outCap < s.outLen.toNat + 25 →
      exec .pngIhdr s = .next (failed .capacityExceeded))

/-- R245, `PNG.IDAT`: where it fits, one chunk with the whole of `ZBUF[0 .. Z_LEN)` is appended, never
split; where not, `CapacityExceeded` with `PHASE = 5`, nothing appended, `CRC` unchanged. -/
def Obligations.IdatAppendsWholeStream : Prop :=
  ∀ s : State, s.cfg.wellFormed = true →
    encode .pngIdat = 0x00000025 ∧
    (s.outLen.toNat + 12 + s.zLen.toNat ≤ s.cfg.outCap →
      ∃ (z : Bytes) (t : State), z.length = s.zLen.toNat ∧
        (∀ k < s.zLen.toNat, ∀ b, s.zbuf.read k = some b → z[k]? = some b) ∧
        exec .pngIdat s = .next t ∧
        Appends (be32 s.zLen ++ [0x49, 0x44, 0x41, 0x54] ++ z ++
          be32 (crc32 ([0x49, 0x44, 0x41, 0x54] ++ z))) s t ∧
        crcVal t = crc32 ([0x49, 0x44, 0x41, 0x54] ++ z) ∧
        t = { s with out := t.out, outLen := t.outLen, crc := t.crc, phase := .idle, busy := false,
                     done := true }) ∧
    (s.cfg.outCap < s.outLen.toNat + 12 + s.zLen.toNat →
      exec .pngIdat s = .next { s with
        phase := .idat, err := some .capacityExceeded, busy := false, done := true })

/-- R246, `PNG.IEND`: where they fit, the twelve bytes that never vary are appended, and `CRC_VAL`
reads `0xAE426082`; where not, `CapacityExceeded` with `PHASE = 6`. -/
def Obligations.IendAppendsConstantChunk : Prop :=
  ∀ s : State, s.cfg.wellFormed = true →
    encode .pngIend = 0x00000026 ∧
    (s.outLen.toNat + 12 ≤ s.cfg.outCap →
      ∃ t, exec .pngIend s = .next t ∧
        Appends [0x00, 0x00, 0x00, 0x00, 0x49, 0x45, 0x4E, 0x44, 0xAE, 0x42, 0x60, 0x82] s t ∧
        crcVal t = 0xAE426082 ∧
        t = { s with out := t.out, outLen := t.outLen, crc := t.crc, phase := .idle, busy := false,
                     done := true }) ∧
    (s.cfg.outCap < s.outLen.toNat + 12 →
      exec .pngIend s = .next { s with
        phase := .iend, err := some .capacityExceeded, busy := false, done := true })

/-- R105, R244: on an accepted image that the host has written, `PNG.SCAN` leaves in `SCAN` every row
with its filter byte 00 and its pixel bytes unchanged; bytes of `SCAN` at and above the new length,
and everything else, stay. On any other image it raises `Validate`'s error with `PHASE = 3` and leaves
the rest as it was. -/
def Obligations.ScanBuildsScanlineBuffer : Prop :=
  ∀ s : State, s.cfg.wellFormed = true →
    encode .pngScan = 0x00000023 ∧
    (s.ImageAccepted → s.PixWritten →
      ∃ t, exec .pngScan s = .next t ∧
        t.scanLen.toNat = s.height.toNat * (1 + s.width.toNat * 3) ∧
        (∀ r < s.height.toNat, t.scan.read (r * (1 + s.width.toNat * 3)) = some 0x00) ∧
        (∀ r < s.height.toNat, ∀ j < s.width.toNat * 3,
          t.scan.read (r * (1 + s.width.toNat * 3) + 1 + j) =
            s.pix.read (r * (s.width.toNat * 3) + j)) ∧
        (∀ a, s.height.toNat * (1 + s.width.toNat * 3) ≤ a → t.scan.read a = s.scan.read a) ∧
        t = { s with scan := t.scan, scanLen := t.scanLen, phase := .idle, busy := false,
                     done := true }) ∧
    (s.ImageAccepted → ¬s.PixWritten → exec .pngScan s = .fault .pixNeverWritten) ∧
    (¬s.ImageAccepted → ∃ e, validate s = .raised e s ∧
      exec .pngScan s = .next { s with phase := .scan, err := some e, busy := false, done := true })

/-- R205, `PNG.ZCOMP`: where the zlib stream `Z(SCAN[0 .. SCAN_LEN))` fits, `ZBUF` holds it; where not,
`CapacityExceeded` with `PHASE = 4` and `Z_LEN = 0`. Either way `ADLER_VAL` is the Adler-32 of the
uncompressed data, the bit packer is empty, and nothing else changes. It is refused while busy and
after an error. -/
def Obligations.ZcompCompressesScan : Prop :=
  ∀ s : State, s.cfg.wellFormed = true →
    let z := zStream s.cfg.compMode (scanData s)
    encode .pngZcomp = 0x00000024 ∧
    (scanData s).length = s.scanLen.toNat ∧
    (∀ k < s.scanLen.toNat, ∀ b, s.scan.read k = some b → (scanData s)[k]? = some b) ∧
    (z.length ≤ s.cfg.zCap →
      ∃ t, exec .pngZcomp s = .next t ∧ t.zLen.toNat = z.length ∧
        (∀ k < t.zLen.toNat, t.zbuf.read k = z[k]?) ∧
        (∀ a, t.zLen.toNat ≤ a → t.zbuf.read a = s.zbuf.read a) ∧
        adlerVal t = adler32 (scanData s) ∧
        t = { s with zbuf := t.zbuf, zLen := t.zLen, ada := t.ada, adb := t.adb, bitbuf := 0,
                     bitcnt := 0, phase := .idle, busy := false, done := true }) ∧
    (s.cfg.zCap < z.length →
      ∃ t, exec .pngZcomp s = .next t ∧ adlerVal t = adler32 (scanData s) ∧
        t = { s with ada := t.ada, adb := t.adb, zLen := 0, bitbuf := 0, bitcnt := 0,
                     phase := .zcomp, err := some .capacityExceeded, busy := false, done := true }) ∧
    (s.cfg.compMode ≠ .other → z.drop (z.length - 4) = be32 (adler32 (scanData s))) ∧
    (s.scanLen = 0 → (s.cfg.compMode = .fixedLz → z.length = 8) ∧
      (s.cfg.compMode = .stored → z.length = 11)) ∧
    (s.busy = true ∨ s.err ≠ none → writeRegister 0x00 (encode .pngZcomp) s = s)

/-- R100, R106, R251: `PNG.ENCODE` completes on every image it can encode; its output is the
signature, the IHDR chunk, one IDAT chunk with the whole zlib stream of the whole scanline buffer and
an empty IEND chunk, in that order, with nothing before, between or after; and its frame. -/
def Obligations.EncodeEmitsPngStream : Prop :=
  ∀ (s : State) (scan : Bytes), s.CanEncode scan →
    let z := zStream s.cfg.compMode scan
    ∃ t, exec .pngEncode s = .next t ∧
      outData t = some
        ([0x89, 0x50, 0x4E, 0x47, 0x0D, 0x0A, 0x1A, 0x0A] ++
          chunk [0x49, 0x48, 0x44, 0x52]
            (be32 s.width ++ be32 s.height ++ [0x08, 0x02, 0x00, 0x00, 0x00]) ++
          chunk [0x49, 0x44, 0x41, 0x54] z ++ chunk [0x49, 0x45, 0x4E, 0x44] []) ∧
      (∀ P, outData t = some P → P.take 8 = [0x89, 0x50, 0x4E, 0x47, 0x0D, 0x0A, 0x1A, 0x0A]) ∧
      (∀ a, t.outLen.toNat ≤ a → t.out.read a = s.out.read a) ∧
      t.scan.readWritten 0 t.scanLen.toNat = some scan ∧
      (∀ a, t.scanLen.toNat ≤ a → t.scan.read a = s.scan.read a) ∧
      t.zbuf.readWritten 0 t.zLen.toNat = some z ∧
      (∀ a, t.zLen.toNat ≤ a → t.zbuf.read a = s.zbuf.read a) ∧
      t = { s with out := t.out, outLen := t.outLen, scan := t.scan, scanLen := t.scanLen,
                   zbuf := t.zbuf, zLen := t.zLen, crc := t.crc, ada := t.ada, adb := t.adb,
                   bitbuf := 0, bitcnt := 0, phase := .idle, busy := false, done := true }

/-! ## Errors -/

/-- R248: the four checks of `Validate` in their fixed order, over unbounded products, as `PNG.SCAN`
and `PNG.ENCODE` report them; nothing changes when they pass. -/
def Obligations.ValidateChecksInOrder : Prop :=
  ∀ s : State,
    let failed (e : PngeError) : State :=
      { s with phase := .scan, err := some e, busy := false, done := true }
    let fails (e : PngeError) : Prop :=
      validate s = .raised e s ∧ exec .pngScan s = .next (failed e) ∧
        exec .pngEncode s = .next { failed e with outLen := 0, scanLen := 0, zLen := 0 }
    let w := s.width.toNat
    let h := s.height.toNat
    let n := s.pixLen.toNat
    ((w = 0 ∨ h = 0) → fails .unsupportedDimensions) ∧
    (w ≠ 0 ∧ h ≠ 0 ∧ n ≠ w * h * 3 → fails .bufferSizeMismatch) ∧
    (w ≠ 0 ∧ h ≠ 0 ∧ n = w * h * 3 ∧ s.cfg.pixCap < n → fails .capacityExceeded) ∧
    (w ≠ 0 ∧ h ≠ 0 ∧ n = w * h * 3 ∧ n ≤ s.cfg.pixCap ∧ s.cfg.scanCap < h * (1 + w * 3) →
      fails .capacityExceeded) ∧
    (w ≠ 0 ∧ h ≠ 0 ∧ n = w * h * 3 ∧ n ≤ s.cfg.pixCap ∧ h * (1 + w * 3) ≤ s.cfg.scanCap →
      validate s = .go s)

/-- R298: what a raise leaves. `ERR` holds the code, `PHASE` the phase the command was in, `BUSY = 0`,
`DONE = 1`; besides them only `PNG.ZCOMP` has changed `ADA`, `ADB`, `Z_LEN` (and emptied the bit
packer), and `PNG.ENCODE` what its completed phases wrote (nothing in phase `SCAN`; no compressed byte
in phase `ZCOMP`), with the three lengths zeroed. An illegal word changes nothing else. -/
def Obligations.RaiseLeavesExactly : Prop :=
  (∀ (i : Instr) (s t : State) (e : PngeError), s.cfg.wellFormed = true → s.err = none →
    exec i s = .next t → t.err = some e →
    t.busy = false ∧ t.done = true ∧
    (i ≠ .pngZcomp → i ≠ .pngEncode →
      (i, t.phase) ∈ [(Instr.pngSig, Phase.sig), (.pngIhdr, .ihdr), (.pngScan, .scan),
        (.pngIdat, .idat), (.pngIend, .iend)] ∧
      t = { s with phase := t.phase, err := some e, busy := false, done := true }) ∧
    (i = .pngZcomp → t.phase = .zcomp ∧
      t = { s with phase := .zcomp, err := some e, busy := false, done := true, ada := t.ada,
                   adb := t.adb, zLen := 0, bitbuf := 0, bitcnt := 0 }) ∧
    (i = .pngEncode → t.phase ∈ [Phase.scan, .zcomp, .idat, .iend] ∧
      t = { s with phase := t.phase, err := some e, busy := false, done := true, outLen := 0,
                   scanLen := 0, zLen := 0, out := t.out, scan := t.scan, zbuf := t.zbuf,
                   crc := t.crc, ada := t.ada, adb := t.adb, bitbuf := t.bitbuf,
                   bitcnt := t.bitcnt } ∧
      (t.phase = .scan →
        t = { s with phase := .scan, err := some e, busy := false, done := true, outLen := 0,
                     scanLen := 0, zLen := 0 }) ∧
      (t.phase = .zcomp → t.zbuf = s.zbuf ∧
        ∀ a, 33 ≤ a → t.out.read a = s.out.read a))) ∧
  ∀ s : State, (∃ x, decode s.lastCmd = .error x) →
    perform s = .next { s with
      phase := .idle, err := some .illegalCommand, busy := false, done := true }

/-- 10_state.md section 2 (`STATUS`), 60_exceptions.md section 1: `ERR` leaves 0 only at the perform
step of a failing command, and comes back to 0 only by a hardware reset or `SRST`. -/
def Obligations.ErrChangesOnlyByFailureOrReset : Prop :=
  ∀ s t : State, step s = .next t →
    (s.err = none → t.err ≠ none →
      s.EnginesTurn ∧ s.busy = true ∧ s.lastCmd ≠ 0x00000001 ∧ t.busy = false ∧ t.done = true) ∧
    (s.err ≠ none → t.err = none →
      s.turns.head? = some .hardwareReset ∨
        (s.EnginesTurn ∧ s.busy = true ∧ s.lastCmd = 0x00000001))

/-- R300: errors do not nest. With `ERR != 0` nothing but `SRST` can be issued, `SRST` cannot fail,
and so no step overwrites a first error by a second. -/
def Obligations.FirstErrorStands : Prop :=
  (∀ (s : State) (w : Word), s.busy = false → s.err ≠ none →
    (writeRegister 0x00 w s).busy = true → w = 0x00000001) ∧
  (∀ s : State, ∃ t, exec .srst s = .next t ∧ t.err = none) ∧
  ∀ (s t : State) (e : PngeError), s.Inv → step s = .next t → s.err = some e →
    t.err = some e ∨ t.err = none

/-- R75: no byte of `PIX` is written after a hardware reset; an effective `HostWritePix` writes one,
and nothing else does; a written byte stays written until the next hardware reset; a command that reads a byte that was never
written is a fault, with no final state. -/
def Obligations.NeverWrittenPixelsFault : Prop :=
  (∀ (s : State) (i : Nat), (hardwareReset s).pix.read i = none) ∧
  (∀ (s : State) (i : Nat) (b : Byte), s.busy = false → i < s.cfg.pixCap →
    (hostStep (.writePix i b) s).pix.read i = some b) ∧
  (∀ s t : State, step s = .next t → s.turns.head? ≠ some .hardwareReset →
    ∀ i, (s.pix.read i).isSome → (t.pix.read i).isSome) ∧
  (∀ (s t : State) (i : Nat), step s = .next t → s.pix.read i = none → (t.pix.read i).isSome →
    s.busy = false ∧ i < s.cfg.pixCap ∧ ∃ b, s.turns.head? = some (.host (.writePix i b))) ∧
  ∀ s : State, s.cfg.wellFormed = true → s.ImageAccepted →
    (∃ k < s.pixLen.toNat, s.pix.read k = none) →
    exec .pngScan s = .fault .pixNeverWritten ∧ exec .pngEncode s = .fault .pixNeverWritten

/-! ## The host's steps -/

/-- R282: a write to `CMD` does exactly one of three things. -/
def Obligations.CommandWriteIssues : Prop :=
  ∀ (s : State) (w : Word),
    (s.busy = true → writeRegister 0x00 w s = s) ∧
    (s.busy = false → s.err ≠ none → w ≠ 0x00000001 → writeRegister 0x00 w s = s) ∧
    (s.busy = false → (s.err = none ∨ w = 0x00000001) →
      writeRegister 0x00 w s = { s with lastCmd := w, busy := true, done := false })

/-- R285: while `ERR != 0` and `BUSY = 0`, a command word other than `SRST` is refused; `WIDTH`,
`HEIGHT`, `PIX_LEN` and `PIX` can still be written, and all reads, of registers and of `OUT`, work as
they would without the error. -/
def Obligations.ErrorRefusesAllButSrst : Prop :=
  ∀ s : State, s.busy = false → s.err ≠ none →
    (∀ w : Word, w ≠ 0x00000001 → writeRegister 0x00 w s = s) ∧
    writeRegister 0x00 0x00000001 s = { s with lastCmd := 1, busy := true, done := false } ∧
    (∀ v : Word, writeRegister 0x08 v s = { s with width := v } ∧
      writeRegister 0x0C v s = { s with height := v } ∧
      writeRegister 0x10 v s = { s with pixLen := v }) ∧
    (∀ (i : Nat) (b : Byte), i < s.cfg.pixCap → (writePix i b s).pix.read i = some b) ∧
    (∀ offset, offset % 4 = 0 → offset ≠ 0x04 →
      readRegister offset s = readRegister offset { s with err := none }) ∧
    (∀ i : Nat, readOut i s = readOut i { s with err := none }) ∧
    readRegister 0x04 s = statusWord false s.done (errCode s.err) s.phase.code

/-- 44_system.md section 1: whatever the host does while a command runs, nothing of PNGE changes. The
model's own fields `answers` and `draws` record its reads (DESIGN CHOICE, log entries 4 and 5). -/
def Obligations.BusyEngineIgnoresHost : Prop :=
  ∀ (actions : List HostAction) (s : State), s.busy = true →
    let t := actions.foldl (fun s a => hostStep a s) s
    t = { s with answers := t.answers, draws := t.draws }

/-- 44_system.md section 3: every register access by offset. A result register read while busy is the free value of
that read; a read changes nothing but the model's record of it (DESIGN CHOICE, log entries 4 and 5). -/
def Obligations.RegisterAccessTable : Prop :=
  ∀ s : State,
    let result (v : Word) : Word := if s.busy then Config.freeWord s.draws else v
    readRegister 0x00 s = 0 ∧
    readRegister 0x04 s = statusWord s.busy s.done (errCode s.err)
      (if s.busy then Config.freePhase s.draws else s.phase.code) ∧
    readRegister 0x08 s = s.width ∧ readRegister 0x0C s = s.height ∧
    readRegister 0x10 s = s.pixLen ∧ readRegister 0x14 s = result s.outLen ∧
    readRegister 0x18 s = result s.scanLen ∧ readRegister 0x1C s = result s.zLen ∧
    readRegister 0x20 s = result (s.crc ^^^ 0xFFFFFFFF) ∧
    readRegister 0x24 s = result ((s.adb.setWidth 32 <<< 16) ||| s.ada.setWidth 32) ∧
    readRegister 0x28 s = s.lastCmd ∧
    (∀ offset, offset % 4 = 0 → 0x2C ≤ offset → readRegister offset s = 0) ∧
    (∀ v, s.busy = false → writeRegister 0x08 v s = { s with width := v } ∧
      writeRegister 0x0C v s = { s with height := v } ∧
      writeRegister 0x10 v s = { s with pixLen := v }) ∧
    (∀ offset v, s.busy = true → writeRegister offset v s = s) ∧
    (∀ offset v, offset = 0x04 ∨ 0x14 ≤ offset → writeRegister offset v s = s) ∧
    (∀ w, writeRegister 0x00 w s =
      if s.busy = true ∨ (s.err ≠ none ∧ w ≠ 0x00000001) then s
      else { s with lastCmd := w, busy := true, done := false }) ∧
    ∀ offset, hostStep (.readRegister offset) s =
      { s with answers := s.answers ++ [.register offset (readRegister offset s)],
               draws := s.draws + 1 }

/-- 10_state.md section 2 (`STATUS`): the fields of the status word, and its reserved bits are 0. -/
def Obligations.StatusWordLayout : Prop :=
  ∀ (busy done : Bool) (err phase : BitVec 4),
    let w := statusWord busy done err phase
    w.getLsbD 0 = busy ∧ w.getLsbD 1 = done ∧ w.extractLsb' 2 2 = 0 ∧ w.extractLsb' 4 4 = err ∧
      w.extractLsb' 8 4 = phase ∧ w.extractLsb' 12 20 = 0

/-- 20_memory.md section 3: reading a register or a byte of `OUT` changes nothing of PNGE (only the
model's record of the answer and its count of free values, DESIGN CHOICE, log entries 4 and 5), and a write to an offset other than `CMD`'s changes at most the register that
stands there. -/
def Obligations.ReadsHaveNoSideEffect : Prop :=
  (∀ (offset : Nat) (s : State), hostStep (.readRegister offset) s =
    { s with answers := s.answers ++ [.register offset (readRegister offset s)],
             draws := s.draws + 1 }) ∧
  (∀ (i : Nat) (s : State), hostStep (.readOut i) s =
    { s with answers := s.answers ++ [.outByte i (readOut i s)], draws := s.draws + 1 }) ∧
  ∀ (offset : Nat) (v : Word) (s : State), offset ≠ 0x00 →
    let t := writeRegister offset v s
    t = { s with width := t.width, height := t.height, pixLen := t.pixLen } ∧
      (t.width = s.width ∨ (offset = 0x08 ∧ t.width = v)) ∧
      (t.height = s.height ∨ (offset = 0x0C ∧ t.height = v)) ∧
      (t.pixLen = s.pixLen ∨ (offset = 0x10 ∧ t.pixLen = v))

/-- R65: `HostWritePix`, with its frame. -/
def Obligations.WritePixWritesOneByte : Prop :=
  ∀ (s : State) (i : Nat) (b : Byte),
    let t := hostStep (.writePix i b) s
    (s.busy = false ∧ i < s.cfg.pixCap →
      t.pix.read i = some b ∧ (∀ a, a ≠ i → t.pix.read a = s.pix.read a) ∧
        t = { s with pix := t.pix }) ∧
    (s.busy = true ∨ s.cfg.pixCap ≤ i → t = s)

/-- 20_memory.md section 3: `HostReadOut` gives the byte of `OUT` when not busy and below `OUT_LEN`; else the free byte
of that read, of which nothing is known. It changes nothing but the model's record of it (DESIGN
CHOICE, log entries 4 and 5), and no host step writes `OUT`. -/
def Obligations.ReadOutGivesOutputByte : Prop :=
  ∀ (s : State) (i : Nat) (b : Byte),
    (s.busy = false → i < s.outLen.toNat → s.out.read i = some b → readOut i s = b) ∧
    (s.busy = true ∨ s.outLen.toNat ≤ i → readOut i s = Config.freeByte s.draws) ∧
    hostStep (.readOut i) s =
      { s with answers := s.answers ++ [.outByte i (readOut i s)], draws := s.draws + 1 } ∧
    ∀ a : HostAction, (hostStep a s).out = s.out

/-! ## Reset and the invariant -/

/-- R320, R321: a hardware reset, in any state and busy or not, gives every register its reset value
at once, and no byte of `PIX` counts as written; the views read the checksums of the empty message. -/
def Obligations.HardwareResetIsTotal : Prop :=
  ∀ s : State, s.turns.head? = some .hardwareReset →
    ∃ t, step s = .next t ∧
      t.busy = false ∧ t.done = false ∧ t.err = none ∧ t.phase = .idle ∧
      t.width = 0 ∧ t.height = 0 ∧ t.pixLen = 0 ∧ t.outLen = 0 ∧ t.scanLen = 0 ∧ t.zLen = 0 ∧
      t.lastCmd = 0 ∧ t.crc = 0xFFFFFFFF ∧ t.ada = 1 ∧ t.adb = 0 ∧ t.bitbuf = 0 ∧ t.bitcnt = 0 ∧
      crcVal t = 0x00000000 ∧ adlerVal t = 0x00000001 ∧
      statusWord t.busy t.done (errCode t.err) t.phase.code = 0x00000000 ∧
      ∀ i, t.pix.read i = none

/-- 70_reset_and_hazards.md section 1, with the model's choices: the step of a hardware reset takes its
turn off (log entry 3), keeps the configuration, the remaining turns, the answers and the count of
free values (log entry 20), lists nothing in `SCAN`, `ZBUF` and `OUT`, whose contents the spec leaves
unspecified (log entry 8), and leaves all else as in `State.reset`. -/
def Obligations.HardwareResetKeepsModelFields : Prop :=
  ∀ s : State, s.turns.head? = some .hardwareReset →
    step s = .next { State.reset with
      cfg := s.cfg, turns := s.turns.tail, answers := s.answers, draws := s.draws }

/-- The state after reset meets the invariant of reachable states. -/
def Obligations.ResetMeetsInvariant : Prop := State.reset.Inv

/-- 10_state.md sections 2 and 3, 60_exceptions.md section 1, 20_memory.md section 5: every step keeps
the invariant: `BUSY` and `DONE` never both 1, `ERR != 0` only in the two allowed situations, `PHASE`
0 without an error, the Adler sums in range, the bit packer empty, the lengths within the capacities,
the memories canonical, within their capacities and filled below their lengths. -/
def Obligations.EveryStepKeepsInvariant : Prop :=
  ∀ s t : State, s.Inv → step s = .next t → t.Inv

/-- 10_state.md sections 2, 4 and 5: no command writes `PIX`, and none but `SRST` writes `WIDTH`,
`HEIGHT`, `PIX_LEN` or `LAST_CMD`; no step changes the configuration. -/
def Obligations.CommandsKeepInputs : Prop :=
  (∀ (i : Instr) (s t : State), exec i s = .next t →
    t.pix = s.pix ∧ t.turns = s.turns ∧ t.answers = s.answers ∧ t.draws = s.draws ∧
      (i ≠ .srst → t.width = s.width ∧ t.height = s.height ∧ t.pixLen = s.pixLen ∧
        t.lastCmd = s.lastCmd)) ∧
  ∀ s t : State, step s = .next t → t.cfg = s.cfg

/-! ## The checksum units -/

/-- R96: after `CRC.MSG m` the host reads `crc32(m)`, after `ADL.MSG m` it reads `adler32(m)`; nothing
but the unit, `LAST_CMD` and `STATUS` has changed. -/
def Obligations.MessagePseudoInstructions : Prop :=
  ∀ (m : Bytes) (s : State), s.Ready →
    (∃ t, runWords (crcMessage m) s = .next t ∧ readRegister 0x20 t = crc32 m ∧
      t = { s with crc := t.crc, lastCmd := t.lastCmd, phase := .idle, done := true }) ∧
    ∃ t, runWords (adlMessage m) s = .next t ∧ readRegister 0x24 t = adler32 m ∧
      t = { s with ada := t.ada, adb := t.adb, lastCmd := t.lastCmd, phase := .idle, done := true }

/-- R153: the table of 256 entries is eight shifts of each index, and the table form equals
`crc_step`. -/
def Obligations.CrcTableFormAgrees : Prop :=
  (∀ n < 256, crcTable[n]? = some (crcStep (BitVec.ofNat 32 n) 0x00)) ∧
    ∀ (c : Word) (b : Byte),
      crcStep c b =
        crcTable.getD ((c ^^^ b.setWidth 32) &&& 0xFF).toNat 0 ^^^ (c >>> 8)

/-- R159: the eight shifts are linear over GF(2) and a bijection, with the stated inverse of one
shift. -/
def Obligations.CrcStepLinearAndInvertible : Prop :=
  (∀ (c : Word) (b : Byte), crcStep c b = crcShift8 (c ^^^ b.setWidth 32)) ∧
  (∀ c d : Word, crcShift8 (c ^^^ d) = crcShift8 c ^^^ crcShift8 d) ∧ crcShift8 0 = 0 ∧
  (∀ (c d : Word) (b : Byte), crcStep (c ^^^ d) b = crcStep c b ^^^ crcShift8 d) ∧
  Function.Bijective crcShift8 ∧
  ∀ c : Word,
    let c' := crcShift c
    let t := c'.getLsbD 31
    t = c.getLsbD 0 ∧
      c = ((c' ^^^ (if t then 0xEDB88320 else 0)) <<< 1) ||| (if t then 1 else 0)

/-- R158: feeding `a ++ b` is feeding `b` from the register `a` left; `crc32` is the complemented fold
from all ones. -/
def Obligations.CrcIncrementalLaw : Prop :=
  (∀ (c : Word) (a b : Bytes), crcFold c (a ++ b) = crcFold (crcFold c a) b) ∧
    ∀ m : Bytes, crc32 m = crcFold 0xFFFFFFFF m ^^^ 0xFFFFFFFF

/-- R160: two messages of one length that differ in exactly one byte have different CRCs; and the
check of a chunk fails when one bit of its type, data or CRC field is inverted. -/
def Obligations.CrcDetectsOneChangedByte : Prop :=
  (∀ (a b : Bytes) (x y : Byte), x ≠ y → crc32 (a ++ [x] ++ b) ≠ crc32 (a ++ [y] ++ b)) ∧
  ∀ (type data : Bytes) (i k : Nat), type.length = 4 → k < 8 → i < 4 + data.length + 4 →
    let damaged := flipBit (type ++ data ++ be32 (crc32 (type ++ data))) i k
    damaged.drop (4 + data.length) ≠ be32 (crc32 (damaged.take (4 + data.length)))

/-- R161: the residue is the constant `0x2144DF1C` when the CRC is appended least significant byte
first, and no constant when it is appended big-endian, as PNG does. -/
def Obligations.CrcResidueOnlyLittleEndian : Prop :=
  (∀ m : Bytes, crc32 (m ++ (be32 (crc32 m)).reverse) = 0x2144DF1C) ∧
    ∃ m m' : Bytes, crc32 (m ++ be32 (crc32 m)) ≠ crc32 (m' ++ be32 (crc32 m'))

open Polynomial in
/-- R154: the bitwise register computes a polynomial remainder over GF(2). -/
def Obligations.CrcIsPolynomialRemainder : Prop :=
  ∀ m : Bytes,
    let N := 8 * m.length
    let u (t : Nat) : Bool := (m.getD (t / 8) 0).getLsbD (t % 8)
    let G : (ZMod 2)[X] := X ^ 32 + X ^ 26 + X ^ 23 + X ^ 22 + X ^ 16 + X ^ 12 + X ^ 11 + X ^ 10 +
      X ^ 8 + X ^ 7 + X ^ 5 + X ^ 4 + X ^ 2 + X + 1
    let M : (ZMod 2)[X] := ∑ t ∈ Finset.range N, if u t then X ^ (N - 1 - t) else 0
    let I : (ZMod 2)[X] := ∑ i ∈ Finset.range 32, X ^ i
    let R := (X ^ 32 * M + X ^ N * I) %ₘ G + I
    R.degree < 32 ∧ ∀ i < 32, (crc32 m).getLsbD i = decide (R.coeff (31 - i) = 1)

/-- R180: the two sums step by step and in closed form, the value of the empty message, the modulus,
and where the zlib stream of an instance holds the value. -/
def Obligations.AdlerClosedForm : Prop :=
  (∀ (ab : BitVec 16 × BitVec 16) (x : Byte),
    (adlerStep ab x).1.toNat = (ab.1.toNat + x.toNat) % 65521 ∧
    (adlerStep ab x).2.toNat = (ab.2.toNat + (ab.1.toNat + x.toNat) % 65521) % 65521) ∧
  (∀ m : Bytes,
    let n := m.length
    let a := (1 + ∑ i ∈ Finset.range n, (m.getD i 0).toNat) % 65521
    let b := (n + ∑ i ∈ Finset.range n, (n - i) * (m.getD i 0).toNat) % 65521
    (adler32 m).toNat = b * 65536 + a) ∧
  adler32 [] = 0x00000001 ∧ adler32 [0x61, 0x62, 0x63] = 0x024D0127 ∧
  (Nat.Prime 65521 ∧ ∀ p, Nat.Prime p → p < 2 ^ 16 → p ≤ 65521) ∧
  ∀ (mode : CompMode) (s : Bytes), mode ≠ .other →
    (zStream mode s).drop ((zStream mode s).length - 4) = be32 (adler32 s)

/-! ## The compressor -/

/-- R121, with the zero padding of 42_deflate.md section 2: the bits written are packed from bit 0 of
each byte upward, the last byte padded with zeros; a numeric field goes least significant bit first, a
Huffman code most significant bit first. -/
def Obligations.BitsArePackedLowBitFirst : Prop :=
  (∀ bits : List Bool,
    let out := (flushBits (putBitList .start bits)).output
    out.length = (bits.length + 7) / 8 ∧
      ∀ k < out.length, ∀ j < 8, (out.getD k 0).getLsbD j = bits.getD (8 * k + j) false) ∧
  (∀ v n i : Nat, i < n → (fieldBits v n).length = n ∧ (fieldBits v n)[i]? = some (v.testBit i)) ∧
  ∀ c n i : Nat, i < n → (codeBits c n).length = n ∧
    (codeBits c n)[i]? = some (c.testBit (n - 1 - i))

/-- R196: the match found is a longest one within the window and the length limit, at the smallest
distance that reaches that length; `(0, 0)` where no earlier byte is equal. -/
def Obligations.LongestMatchIsLongestNearest : Prop :=
  ∀ (s : Bytes) (i : Nat), i < s.length →
    let r := longestMatch s i
    let isMatch (d len : Nat) : Prop := ∀ k < len, s[i + k]? = s[i - d + k]?
    r.1 ≤ 258 ∧ i + r.1 ≤ s.length ∧ r.2 ≤ 32768 ∧
    (r.1 = 0 → r.2 = 0) ∧
    (0 < r.1 → 1 ≤ r.2 ∧ r.2 ≤ i ∧ isMatch r.2 r.1) ∧
    ∀ d len : Nat, 1 ≤ d → d ≤ i → d ≤ 32768 → len ≤ 258 → i + len ≤ s.length → isMatch d len →
      len ≤ r.1 ∧ (0 < len → len = r.1 → r.2 ≤ d)

/-- 42_deflate.md section 3, `Tokens`: the greedy parse covers every position exactly once, in order,
and every match is within the format's limits. -/
def Obligations.TokensStandForTheirInput : Prop :=
  ∀ s : Bytes, expandTokens (tokens s) = s ∧
    ∀ len dist, Token.copy len dist ∈ tokens s →
      3 ≤ len ∧ len ≤ 258 ∧ 1 ≤ dist ∧ dist ≤ 32768

/-- 30_encoding.md Part C, 42_deflate.md section 3: the length and distance symbols are inverted by
base plus extra value, which fits its extra bits; 258 alone has symbol 285. -/
def Obligations.SymbolsInvertByBaseAndExtra : Prop :=
  (∀ len, 3 ≤ len → len ≤ 258 →
    let r := lenSym len
    257 ≤ r.symbol ∧ r.symbol ≤ 285 ∧ lengthBase.getD (r.symbol - 257) 0 + r.extra = len ∧
      r.extraBits = lengthExtra.getD (r.symbol - 257) 0 ∧ r.extra < 2 ^ r.extraBits ∧
      (r.symbol = 285 ↔ len = 258)) ∧
  ∀ dist, 1 ≤ dist → dist ≤ 32768 →
    let r := distSym dist
    r.symbol ≤ 29 ∧ distBase.getD r.symbol 0 + r.extra = dist ∧
      r.extraBits = distExtra.getD r.symbol 0 ∧ r.extra < 2 ^ r.extraBits

/-- 30_encoding.md Part C: the fixed codes are the canonical codes of their stated lengths. -/
def Obligations.FixedCodesAreCanonical : Prop :=
  (∀ s < 288, fixedLitCode[s]? =
    some { symbol := s, length := (fixLit s).2, codeword := (fixLit s).1 }) ∧
  fixedLitCode.length = 288 ∧
  (∀ s < 32, fixedDistCode[s]? = some { symbol := s, length := 5, codeword := s }) ∧
  fixedDistCode.length = 32

/-- 42_deflate.md section 7: the STORED instance meets the contract of a compressor. -/
def Obligations.StoredRoundTrip : Prop :=
  (∀ s : Bytes, inflate (deflateStored s) = some (s, (deflateStored s).length)) ∧
    Z1 (zStream .stored)

/-- 42_deflate.md section 7: the FIXED_LZ instance, which PNGE is, meets the contract of a
compressor: the decoder gives back every byte of every input. -/
def Obligations.FixedLzRoundTrip : Prop :=
  (∀ s : Bytes, inflate (deflateFixedLz s) = some (s, (deflateFixedLz s).length)) ∧
    Z1 (zStream .fixedLz)

/-- 42_deflate.md section 7: the size of the stream, exact under STORED and bounded under FIXED_LZ,
where a `Z_CAP` that reaches the bound makes `CapacityExceeded` impossible in `PNG.ZCOMP`. -/
def Obligations.CompressedSizeBounds : Prop :=
  (∀ s : Bytes, (zStream .stored s).length = 6 + s.length + 5 * max 1 ((s.length + 65534) / 65535)) ∧
  (∀ s : Bytes, (zStream .fixedLz s).length ≤ 6 + (10 + 9 * s.length + 7) / 8) ∧
  ∀ s : State, s.cfg.compMode = .fixedLz → s.scanLen.toNat ≤ s.cfg.scanCap →
    6 + (10 + 9 * s.cfg.scanCap + 7) / 8 ≤ s.cfg.zCap →
    ∃ t, exec .pngZcomp s = .next t ∧ t.err = s.err

/-! ## The whole operation -/

/-- R249: `PNG.ENCODE` against the step commands. Where it succeeds, the sequence succeeds with the
same final state but for `LAST_CMD`; where it fails, the sequence fails with the same code at the
command the rule names and leaves the output of its earlier steps. -/
def Obligations.EncodeEqualsStepCommands : Prop :=
  ∀ s t : State, s.Ready → s.cfg.wellFormed = true → runWord (encode .pngEncode) s = .next t →
    (t.err = none →
      runWords stepSequence s = .next { t with lastCmd := encode .pngIend }) ∧
    ∀ e, t.err = some e →
      ∃ u, runWords stepSequence s = .next u ∧ u.err = some e ∧
        t.outLen = 0 ∧ t.scanLen = 0 ∧ t.zLen = 0 ∧
        (e = .unsupportedDimensions → t.phase = .scan ∧ u.phase = .ihdr ∧
          u.lastCmd = encode .pngIhdr ∧ u.outLen.toNat = 8) ∧
        (e ≠ .unsupportedDimensions → u.phase = t.phase ∧
          (u.phase = .scan → u.lastCmd = encode .pngScan ∧ u.outLen.toNat = 33) ∧
          (u.phase = .zcomp → u.lastCmd = encode .pngZcomp ∧ u.outLen.toNat = 33) ∧
          (u.phase = .idat → u.lastCmd = encode .pngIdat ∧ u.outLen.toNat = 33) ∧
          (u.phase = .iend → u.lastCmd = encode .pngIend ∧
            u.outLen.toNat = 45 + u.zLen.toNat) ∧
          u.phase ∈ [Phase.scan, .zcomp, .idat, .iend] ∧
          (e = .bufferSizeMismatch → u.phase = .scan))

/-- R250: the lengths after a successful `PNG.ENCODE`, in general and under each instance. -/
def Obligations.EncodeLengths : Prop :=
  ∀ (s : State) (scan : Bytes), s.CanEncode scan →
    ∃ t, exec .pngEncode s = .next t ∧
      t.scanLen.toNat = s.height.toNat * (1 + 3 * s.width.toNat) ∧
      t.zLen.toNat = (zStream s.cfg.compMode scan).length ∧
      t.outLen.toNat = 57 + t.zLen.toNat ∧
      (s.cfg.compMode = .stored →
        t.outLen.toNat = 63 + t.scanLen.toNat + 5 * ((t.scanLen.toNat + 65534) / 65535)) ∧
      (s.cfg.compMode = .fixedLz →
        67 ≤ t.outLen.toNat ∧ t.outLen.toNat ≤ 63 + (10 + 9 * t.scanLen.toNat + 7) / 8)

/-- 43_png_framing.md section 3: what the host reads after a successful `PNG.ENCODE`. That the abstract
compressor's stream ends with the Adler-32 value needs its property Z1 on this input. -/
def Obligations.EncodeSuccessRegisters : Prop :=
  ∀ (s : State) (scan : Bytes), s.Ready → s.CanEncode scan →
    ∃ t, runWord (encode .pngEncode) s = .next t ∧
      readRegister 0x04 t = 0x00000002 ∧
      readRegister 0x14 t = BitVec.ofNat 32 (57 + (zStream s.cfg.compMode scan).length) ∧
      readRegister 0x18 t = BitVec.ofNat 32 (s.height.toNat * (1 + 3 * s.width.toNat)) ∧
      readRegister 0x20 t = 0xAE426082 ∧ readRegister 0x24 t = adler32 scan ∧
      readRegister 0x28 t = 0x0000002F ∧ readRegister 0x08 t = s.width ∧
      readRegister 0x0C t = s.height ∧ readRegister 0x10 t = s.pixLen ∧
      ((s.cfg.compMode = .other → zlibDecode (zStream s.cfg.compMode scan) = some scan) →
        t.out.readWritten (t.outLen.toNat - 20) 4 = some (be32 (adler32 scan)))

/-- 43_png_framing.md section 3: what the host reads after a failed `PNG.ENCODE`: `STATUS` with the
code and the phase, the three lengths 0, and the unit registers as the pseudocode left them. -/
def Obligations.EncodeFailureRegisters : Prop :=
  ∀ (s t : State) (e : PngeError) (scan : Bytes), s.Ready → s.cfg.wellFormed = true →
    s.IsScan scan → runWord (encode .pngEncode) s = .next t → t.err = some e →
    readRegister 0x04 t =
      0x00000002 ||| (e.code.setWidth 32 <<< 4) ||| (t.phase.code.setWidth 32 <<< 8) ∧
    readRegister 0x14 t = 0 ∧ readRegister 0x18 t = 0 ∧ readRegister 0x1C t = 0 ∧
    readRegister 0x28 t = 0x0000002F ∧ t.phase ∈ [Phase.scan, .zcomp, .idat, .iend] ∧
    (t.phase = .scan → t.crc = s.crc ∧ t.ada = s.ada ∧ t.adb = s.adb) ∧
    (t.phase = .zcomp ∨ t.phase = .idat →
      readRegister 0x20 t = crc32 ([0x49, 0x48, 0x44, 0x52] ++ be32 s.width ++ be32 s.height ++
        [0x08, 0x02, 0x00, 0x00, 0x00]) ∧
      readRegister 0x24 t = adler32 scan) ∧
    (t.phase = .iend → readRegister 0x20 t =
      crc32 ([0x49, 0x44, 0x41, 0x54] ++ zStream s.cfg.compMode scan))

/-- R252: the output holds exactly three chunks, at offsets 8, 33 and `45 + Z_LEN`; each stores the
CRC of its type and data; and inverting any one bit of a chunk's type, data or CRC makes that chunk's
check fail. -/
def Obligations.OutputChunkCrcsDetectDamage : Prop :=
  ∀ (s : State) (scan : Bytes), s.CanEncode scan →
    let n := (zStream s.cfg.compMode scan).length
    ∃ (t : State) (P : Bytes), exec .pngEncode s = .next t ∧ outData t = some P ∧
      P.length = 57 + n ∧
      ∀ at_ len : Nat, (at_, len) ∈ [(8, 13), (33, n), (45 + n, 0)] →
        let check (p : Bytes) : Prop :=
          (p.drop (at_ + 8 + len)).take 4 = be32 (crc32 ((p.drop (at_ + 4)).take (4 + len)))
        (P.drop at_).take 4 = be32 (BitVec.ofNat 32 len) ∧ check P ∧
        ∀ i < 4 + len + 4, ∀ k < 8, ¬ check (flipBit P (at_ + 4 + i) k)

/-- R253: decoding the IHDR chunk of the output recovers the width and height, bit depth 8 and colour
type 2. -/
def Obligations.IhdrRoundTrip : Prop :=
  ∀ (s : State) (scan : Bytes), s.CanEncode scan →
    ∃ (t : State) (P : Bytes), exec .pngEncode s = .next t ∧ outData t = some P ∧
      (P.drop 16).take 4 = be32 s.width ∧ (P.drop 20).take 4 = be32 s.height ∧
      P[24]? = some 0x08 ∧ P[25]? = some 0x02 ∧ (P.drop 26).take 3 = [0x00, 0x00, 0x00] ∧
      beValue ((P.drop 16).take 4) = s.width.toNat ∧ beValue ((P.drop 20).take 4) = s.height.toNat

/-- R254, R258: the encoder is correct, for both instances, and for the abstract compressor where it
has property Z1 on this input. On every image that it can encode it succeeds, the IDAT payload
decompresses to the scanline buffer, and `PngParse` of the output is the image; in every other state
with `PIX` written it fails with the code the rules give and `OUT_LEN = 0`. -/
def Obligations.EncoderIsCorrect : Prop :=
  (∀ (s : State) (scan : Bytes), s.Ready → s.CanEncode scan →
    (s.cfg.compMode = .other → zlibDecode (zStream s.cfg.compMode scan) = some scan) →
    ∃ (t : State) (P pixels : Bytes), runWord (encode .pngEncode) s = .next t ∧ t.err = none ∧
      outData t = some P ∧ pixelData s = some pixels ∧
      zlibDecode ((P.drop 41).take t.zLen.toNat) = some scan ∧
      scan.length = s.height.toNat * (1 + 3 * s.width.toNat) ∧
      (∀ r < s.height.toNat, scan[r * (1 + 3 * s.width.toNat)]? = some 0x00) ∧
      stripFilters (3 * s.width.toNat) s.height.toNat scan = some pixels ∧
      pngParse P = some { width := s.width.toNat, height := s.height.toNat, pixels := pixels }) ∧
  ∀ (s : State) (scan : Bytes), s.Ready → s.cfg.wellFormed = true → s.PixWritten →
    s.IsScan scan → ¬ s.CanEncode scan →
    ∃ (t : State) (e : PngeError), runWord (encode .pngEncode) s = .next t ∧ t.err = some e ∧
      t.outLen = 0 ∧
      e = (if s.width = 0 ∨ s.height = 0 then .unsupportedDimensions
        else if s.pixLen.toNat ≠ s.width.toNat * s.height.toNat * 3 then .bufferSizeMismatch
        else .capacityExceeded)

/-- 43_png_framing.md section 4, 10_state.md section 5: the status, the three lengths and the output of
`PNG.ENCODE`, and after a success the checksum registers too, depend on the image and the
configuration alone: not on what `OUT`, `SCAN`, `ZBUF`, `CRC`, `ADA`, `ADB` held before, nor on pixel
bytes at or above `PIX_LEN`. -/
def Obligations.EncodeDependsOnImageAlone : Prop :=
  ∀ s u : State, s.Ready → u.Ready → s.cfg.wellFormed = true → s.SameImage u →
    (∀ f, runWord (encode .pngEncode) s = .fault f → runWord (encode .pngEncode) u = .fault f) ∧
    ∀ t, runWord (encode .pngEncode) s = .next t →
      ∃ v, runWord (encode .pngEncode) u = .next v ∧ t.OutputsAgree v ∧
        (t.err = none → t.crc = v.crc ∧ t.ada = v.ada ∧ t.adb = v.adb)
end

