-- ==== Sys2Proof/Laws/Memory.lean ====
section
/-! SUPPORT. The laws of memory: read after write, the frame of a write, and that a write keeps the
canonical form and the capacity. -/

namespace Sys2Proof.Machine.Memory

@[simp] theorem read_nil (i : Nat) : read [] i = none := rfl

@[simp] theorem read_cons (a : Nat) (b : Byte) (m : Memory) (i : Nat) :
    read ((a, b) :: m) i = if a = i then some b else read m i := rfl

theorem read_append (m n : Memory) (i : Nat) : read (m ++ n) i = (read m i).or (read n i) := by
  induction m with
  | nil => simp
  | cons c m ih =>
    obtain ⟨a, b⟩ := c
    by_cases h : a = i <;> simp [h, ih]

theorem read_filter (p : Nat → Bool) (m : Memory) (i : Nat) :
    read (m.filter fun c => p c.1) i = if p i then read m i else none := by
  induction m with
  | nil => simp
  | cons c m ih =>
    obtain ⟨a, b⟩ := c
    by_cases hp : p a
    · by_cases h : a = i
      · subst h; simp [hp]
      · simp [hp, h, ih]
    · by_cases h : a = i
      · subst h; simp [hp, ih]
      · simp [hp, h, ih]

theorem read_cells (a : Nat) (bs : Bytes) (i : Nat) :
    read (cells a bs) i = if a ≤ i then bs[i - a]? else none := by
  induction bs generalizing a with
  | nil => simp [cells]
  | cons b bs ih =>
    rcases Nat.lt_trichotomy a i with h | h | h
    · obtain ⟨d, rfl⟩ : ∃ d, i = a + 1 + d := ⟨i - a - 1, by omega⟩
      have hne : a ≠ a + 1 + d := by omega
      have hsub : a + 1 + d - a = d + 1 := by omega
      simp [cells, ih, hne, hsub]
      omega
    · subst h; simp [cells]
    · have hne : a ≠ i := by omega
      have h1 : ¬ a + 1 ≤ i := by omega
      have h2 : ¬ a ≤ i := by omega
      simp [cells, ih, hne, h1, h2]

/-- A write of a byte sequence: the written bytes read back, every other index reads as before. -/
theorem read_write (m : Memory) (a : Nat) (bs : Bytes) (i : Nat) :
    read (m.write a bs) i =
      if a ≤ i ∧ i < a + bs.length then bs[i - a]? else read m i := by
  unfold write
  rw [read_append, read_append, read_filter (fun j => decide (j < a)), read_cells,
    read_filter (fun j => decide (a + bs.length ≤ j))]
  by_cases h1 : i < a
  · have h2 : ¬ a ≤ i := by omega
    have h3 : ¬ a + bs.length ≤ i := by omega
    simp [h1, h2, h3]
  · have h2 : a ≤ i := by omega
    by_cases h3 : i < a + bs.length
    · have h4 : ¬ a + bs.length ≤ i := by omega
      simp [h1, h2, h3, h4]
    · have h4 : a + bs.length ≤ i := by omega
      have h5 : bs[i - a]? = none := by
        rw [List.getElem?_eq_none_iff]; omega
      simp [h1, h2, h3, h4, h5]

theorem read_write_inside (m : Memory) (a : Nat) (bs : Bytes) (k : Nat) (h : k < bs.length) :
    read (m.write a bs) (a + k) = bs[k]? := by
  rw [read_write]
  have h1 : a ≤ a + k ∧ a + k < a + bs.length := by omega
  simp [h1.2]

theorem read_write_outside (m : Memory) (a : Nat) (bs : Bytes) (i : Nat)
    (h : i < a ∨ a + bs.length ≤ i) : read (m.write a bs) i = read m i := by
  rw [read_write]
  have h1 : ¬(a ≤ i ∧ i < a + bs.length) := by omega
  simp only [h1, if_false]

theorem mem_cells (a : Nat) (bs : Bytes) (c : Host.Cell) (h : c ∈ cells a bs) :
    a ≤ c.1 ∧ c.1 < a + bs.length := by
  induction bs generalizing a with
  | nil => simp [cells] at h
  | cons b bs ih =>
    simp only [cells, List.mem_cons] at h
    rcases h with rfl | h
    · simp
    · have := ih (a + 1) h
      simp only [List.length_cons]
      omega

theorem wf_cells (a : Nat) (bs : Bytes) : wf (cells a bs) := by
  induction bs generalizing a with
  | nil => simp [cells]
  | cons b bs ih =>
    simp only [wf, cells, List.pairwise_cons]
    refine ⟨fun c hc => ?_, ih (a + 1)⟩
    have := mem_cells _ _ _ hc
    omega

/-- A write keeps the canonical form. -/
theorem wf_write (m : Memory) (a : Nat) (bs : Bytes) (h : wf m) : wf (m.write a bs) := by
  unfold write wf
  rw [List.pairwise_append, List.pairwise_append]
  refine ⟨⟨h.filter _, wf_cells a bs, ?_⟩, h.filter _, ?_⟩
  · intro c hc d hd
    have h1 : c.1 < a := by simpa using (List.mem_filter.1 hc).2
    have := mem_cells _ _ _ hd
    omega
  · intro c hc d hd
    have h2 : a + bs.length ≤ d.1 := by simpa using (List.mem_filter.1 hd).2
    rcases List.mem_append.1 hc with hc | hc
    · have h1 : c.1 < a := by simpa using (List.mem_filter.1 hc).2
      omega
    · have := mem_cells _ _ _ hc
      omega

/-- A write inside the capacity keeps every listed index inside it. -/
theorem within_write (m : Memory) (a : Nat) (bs : Bytes) (cap : Nat) (h : within m cap)
    (hb : a + bs.length ≤ cap) : within (m.write a bs) cap := by
  intro c hc
  simp only [write, List.mem_append, List.mem_filter] at hc
  rcases hc with (hc | hc) | hc
  · exact h c hc.1
  · have := mem_cells _ _ _ hc
    omega
  · exact h c hc.1

/-- A write at the end of the filled part fills the written part too. -/
theorem filled_write (m : Memory) (a : Nat) (bs : Bytes) (h : filled m a) :
    filled (m.write a bs) (a + bs.length) := by
  intro i hi
  by_cases hlt : i < a
  · rw [read_write_outside m a bs i (Or.inl hlt)]
    exact h i hlt
  · obtain ⟨k, rfl⟩ : ∃ k, i = a + k := ⟨i - a, by omega⟩
    have hk : k < bs.length := by omega
    rw [read_write_inside m a bs k hk]
    simp [hk]

theorem filled_zero (m : Memory) : filled m 0 := by
  intro i hi
  omega

/-- Reading back what was written is the written sequence. -/
theorem readWritten_eq_some {m : Memory} {a : Nat} {bs : Bytes}
    (h : ∀ k < bs.length, read m (a + k) = bs[k]?) : m.readWritten a bs.length = some bs := by
  induction bs generalizing a with
  | nil => rfl
  | cons b bs ih =>
    have h0 : read m a = some b := by simpa using h 0 (by simp)
    have hrest : m.readWritten (a + 1) bs.length = some bs := by
      refine ih fun k hk => ?_
      have := h (k + 1) (by simpa using hk)
      simpa [Nat.add_assoc, Nat.add_comm 1 k] using this
    simp [readWritten, h0, hrest]

theorem readWritten_write (m : Memory) (a : Nat) (bs : Bytes) :
    (m.write a bs).readWritten a bs.length = some bs :=
  readWritten_eq_some fun k hk => read_write_inside m a bs k hk

/-- A sequence read is there exactly when each of its bytes has been written. -/
theorem readWritten_isSome (m : Memory) (a n : Nat) :
    (m.readWritten a n).isSome ↔ ∀ k < n, (read m (a + k)).isSome := by
  induction n generalizing a with
  | zero => simp [readWritten]
  | succ n ih =>
    constructor
    · intro h k hk
      cases hr : read m a with
      | none => simp [readWritten, hr] at h
      | some b =>
        have hrest : (m.readWritten (a + 1) n).isSome := by simpa [readWritten, hr] using h
        rcases k with _ | k
        · simp [hr]
        · have := (ih (a + 1)).1 hrest k (by omega)
          simpa [Nat.add_assoc, Nat.add_comm 1 k] using this
    · intro h
      obtain ⟨b, hb⟩ := Option.isSome_iff_exists.1 (by simpa using h 0 (by omega))
      have hrest : (m.readWritten (a + 1) n).isSome := by
        refine (ih (a + 1)).2 fun k hk => ?_
        have := h (k + 1) (by omega)
        simpa [Nat.add_assoc, Nat.add_comm 1 k] using this
      simpa [readWritten, hb] using hrest

theorem length_readWritten {m : Memory} {a n : Nat} {bs : Bytes}
    (h : m.readWritten a n = some bs) : bs.length = n := by
  induction n generalizing a bs with
  | zero => simp [readWritten] at h; simp [← h]
  | succ n ih =>
    cases hr : read m a with
    | none => simp [readWritten, hr] at h
    | some b =>
      simp only [readWritten, hr, Option.map_eq_some_iff] at h
      obtain ⟨rest, hrest, rfl⟩ := h
      simp [ih hrest]

@[simp] theorem length_readAny (m : Memory) (residue : Nat → Byte) (a n : Nat) :
    (m.readAny residue a n).length = n := by
  induction n generalizing a with
  | zero => rfl
  | succ n ih => simp [readAny, ih]

/-- Where every byte has been written, the residue plays no part. -/
theorem readAny_eq_of_readWritten {m : Memory} {residue : Nat → Byte} {a n : Nat} {bs : Bytes}
    (h : m.readWritten a n = some bs) : m.readAny residue a n = bs := by
  induction n generalizing a bs with
  | zero => simpa [readWritten, readAny] using h
  | succ n ih =>
    cases hr : read m a with
    | none => simp [readWritten, hr] at h
    | some b =>
      simp only [readWritten, hr, Option.map_eq_some_iff] at h
      obtain ⟨rest, hrest, rfl⟩ := h
      simp [readAny, hr, ih hrest]

end Sys2Proof.Machine.Memory
end

