-- ==== Sys2Proof/Laws/State.lean ====
section
/-! SUPPORT. One lemma per field per update of the state. -/

namespace Sys2Proof.Machine.State

variable (s : State)

section setPhase
variable (p : Phase)

@[simp] theorem setPhase_cfg : (s.setPhase p).cfg = s.cfg := rfl
@[simp] theorem setPhase_busy : (s.setPhase p).busy = s.busy := rfl
@[simp] theorem setPhase_done : (s.setPhase p).done = s.done := rfl
@[simp] theorem setPhase_err : (s.setPhase p).err = s.err := rfl
@[simp] theorem setPhase_phase : (s.setPhase p).phase = p := rfl
@[simp] theorem setPhase_width : (s.setPhase p).width = s.width := rfl
@[simp] theorem setPhase_height : (s.setPhase p).height = s.height := rfl
@[simp] theorem setPhase_pixLen : (s.setPhase p).pixLen = s.pixLen := rfl
@[simp] theorem setPhase_outLen : (s.setPhase p).outLen = s.outLen := rfl
@[simp] theorem setPhase_scanLen : (s.setPhase p).scanLen = s.scanLen := rfl
@[simp] theorem setPhase_zLen : (s.setPhase p).zLen = s.zLen := rfl
@[simp] theorem setPhase_lastCmd : (s.setPhase p).lastCmd = s.lastCmd := rfl
@[simp] theorem setPhase_crc : (s.setPhase p).crc = s.crc := rfl
@[simp] theorem setPhase_ada : (s.setPhase p).ada = s.ada := rfl
@[simp] theorem setPhase_adb : (s.setPhase p).adb = s.adb := rfl
@[simp] theorem setPhase_bitbuf : (s.setPhase p).bitbuf = s.bitbuf := rfl
@[simp] theorem setPhase_bitcnt : (s.setPhase p).bitcnt = s.bitcnt := rfl
@[simp] theorem setPhase_pix : (s.setPhase p).pix = s.pix := rfl
@[simp] theorem setPhase_scan : (s.setPhase p).scan = s.scan := rfl
@[simp] theorem setPhase_zbuf : (s.setPhase p).zbuf = s.zbuf := rfl
@[simp] theorem setPhase_out : (s.setPhase p).out = s.out := rfl
@[simp] theorem setPhase_turns : (s.setPhase p).turns = s.turns := rfl
@[simp] theorem setPhase_answers : (s.setPhase p).answers = s.answers := rfl
@[simp] theorem setPhase_draws : (s.setPhase p).draws = s.draws := rfl

end setPhase

section setCrc
variable (c : Word)

@[simp] theorem setCrc_cfg : (s.setCrc c).cfg = s.cfg := rfl
@[simp] theorem setCrc_busy : (s.setCrc c).busy = s.busy := rfl
@[simp] theorem setCrc_done : (s.setCrc c).done = s.done := rfl
@[simp] theorem setCrc_err : (s.setCrc c).err = s.err := rfl
@[simp] theorem setCrc_phase : (s.setCrc c).phase = s.phase := rfl
@[simp] theorem setCrc_width : (s.setCrc c).width = s.width := rfl
@[simp] theorem setCrc_height : (s.setCrc c).height = s.height := rfl
@[simp] theorem setCrc_pixLen : (s.setCrc c).pixLen = s.pixLen := rfl
@[simp] theorem setCrc_outLen : (s.setCrc c).outLen = s.outLen := rfl
@[simp] theorem setCrc_scanLen : (s.setCrc c).scanLen = s.scanLen := rfl
@[simp] theorem setCrc_zLen : (s.setCrc c).zLen = s.zLen := rfl
@[simp] theorem setCrc_lastCmd : (s.setCrc c).lastCmd = s.lastCmd := rfl
@[simp] theorem setCrc_crc : (s.setCrc c).crc = c := rfl
@[simp] theorem setCrc_ada : (s.setCrc c).ada = s.ada := rfl
@[simp] theorem setCrc_adb : (s.setCrc c).adb = s.adb := rfl
@[simp] theorem setCrc_bitbuf : (s.setCrc c).bitbuf = s.bitbuf := rfl
@[simp] theorem setCrc_bitcnt : (s.setCrc c).bitcnt = s.bitcnt := rfl
@[simp] theorem setCrc_pix : (s.setCrc c).pix = s.pix := rfl
@[simp] theorem setCrc_scan : (s.setCrc c).scan = s.scan := rfl
@[simp] theorem setCrc_zbuf : (s.setCrc c).zbuf = s.zbuf := rfl
@[simp] theorem setCrc_out : (s.setCrc c).out = s.out := rfl
@[simp] theorem setCrc_turns : (s.setCrc c).turns = s.turns := rfl
@[simp] theorem setCrc_answers : (s.setCrc c).answers = s.answers := rfl
@[simp] theorem setCrc_draws : (s.setCrc c).draws = s.draws := rfl

end setCrc

section setAdler
variable (ab : BitVec 16 × BitVec 16)

@[simp] theorem setAdler_cfg : (s.setAdler ab).cfg = s.cfg := rfl
@[simp] theorem setAdler_busy : (s.setAdler ab).busy = s.busy := rfl
@[simp] theorem setAdler_done : (s.setAdler ab).done = s.done := rfl
@[simp] theorem setAdler_err : (s.setAdler ab).err = s.err := rfl
@[simp] theorem setAdler_phase : (s.setAdler ab).phase = s.phase := rfl
@[simp] theorem setAdler_width : (s.setAdler ab).width = s.width := rfl
@[simp] theorem setAdler_height : (s.setAdler ab).height = s.height := rfl
@[simp] theorem setAdler_pixLen : (s.setAdler ab).pixLen = s.pixLen := rfl
@[simp] theorem setAdler_outLen : (s.setAdler ab).outLen = s.outLen := rfl
@[simp] theorem setAdler_scanLen : (s.setAdler ab).scanLen = s.scanLen := rfl
@[simp] theorem setAdler_zLen : (s.setAdler ab).zLen = s.zLen := rfl
@[simp] theorem setAdler_lastCmd : (s.setAdler ab).lastCmd = s.lastCmd := rfl
@[simp] theorem setAdler_crc : (s.setAdler ab).crc = s.crc := rfl
@[simp] theorem setAdler_ada : (s.setAdler ab).ada = ab.1 := rfl
@[simp] theorem setAdler_adb : (s.setAdler ab).adb = ab.2 := rfl
@[simp] theorem setAdler_bitbuf : (s.setAdler ab).bitbuf = s.bitbuf := rfl
@[simp] theorem setAdler_bitcnt : (s.setAdler ab).bitcnt = s.bitcnt := rfl
@[simp] theorem setAdler_pix : (s.setAdler ab).pix = s.pix := rfl
@[simp] theorem setAdler_scan : (s.setAdler ab).scan = s.scan := rfl
@[simp] theorem setAdler_zbuf : (s.setAdler ab).zbuf = s.zbuf := rfl
@[simp] theorem setAdler_out : (s.setAdler ab).out = s.out := rfl
@[simp] theorem setAdler_turns : (s.setAdler ab).turns = s.turns := rfl
@[simp] theorem setAdler_answers : (s.setAdler ab).answers = s.answers := rfl
@[simp] theorem setAdler_draws : (s.setAdler ab).draws = s.draws := rfl

end setAdler

section setScan
variable (bs : Bytes)

@[simp] theorem setScan_cfg : (s.setScan bs).cfg = s.cfg := rfl
@[simp] theorem setScan_busy : (s.setScan bs).busy = s.busy := rfl
@[simp] theorem setScan_done : (s.setScan bs).done = s.done := rfl
@[simp] theorem setScan_err : (s.setScan bs).err = s.err := rfl
@[simp] theorem setScan_phase : (s.setScan bs).phase = s.phase := rfl
@[simp] theorem setScan_width : (s.setScan bs).width = s.width := rfl
@[simp] theorem setScan_height : (s.setScan bs).height = s.height := rfl
@[simp] theorem setScan_pixLen : (s.setScan bs).pixLen = s.pixLen := rfl
@[simp] theorem setScan_outLen : (s.setScan bs).outLen = s.outLen := rfl
@[simp] theorem setScan_scanLen : (s.setScan bs).scanLen = BitVec.ofNat 32 bs.length := rfl
@[simp] theorem setScan_zLen : (s.setScan bs).zLen = s.zLen := rfl
@[simp] theorem setScan_lastCmd : (s.setScan bs).lastCmd = s.lastCmd := rfl
@[simp] theorem setScan_crc : (s.setScan bs).crc = s.crc := rfl
@[simp] theorem setScan_ada : (s.setScan bs).ada = s.ada := rfl
@[simp] theorem setScan_adb : (s.setScan bs).adb = s.adb := rfl
@[simp] theorem setScan_bitbuf : (s.setScan bs).bitbuf = s.bitbuf := rfl
@[simp] theorem setScan_bitcnt : (s.setScan bs).bitcnt = s.bitcnt := rfl
@[simp] theorem setScan_pix : (s.setScan bs).pix = s.pix := rfl
@[simp] theorem setScan_scan : (s.setScan bs).scan = s.scan.write 0 bs := rfl
@[simp] theorem setScan_zbuf : (s.setScan bs).zbuf = s.zbuf := rfl
@[simp] theorem setScan_out : (s.setScan bs).out = s.out := rfl
@[simp] theorem setScan_turns : (s.setScan bs).turns = s.turns := rfl
@[simp] theorem setScan_answers : (s.setScan bs).answers = s.answers := rfl
@[simp] theorem setScan_draws : (s.setScan bs).draws = s.draws := rfl

end setScan

section startZ
variable (buf : BitVec 8) (cnt : BitVec 3)

@[simp] theorem startZ_cfg : (s.startZ buf cnt).cfg = s.cfg := rfl
@[simp] theorem startZ_busy : (s.startZ buf cnt).busy = s.busy := rfl
@[simp] theorem startZ_done : (s.startZ buf cnt).done = s.done := rfl
@[simp] theorem startZ_err : (s.startZ buf cnt).err = s.err := rfl
@[simp] theorem startZ_phase : (s.startZ buf cnt).phase = s.phase := rfl
@[simp] theorem startZ_width : (s.startZ buf cnt).width = s.width := rfl
@[simp] theorem startZ_height : (s.startZ buf cnt).height = s.height := rfl
@[simp] theorem startZ_pixLen : (s.startZ buf cnt).pixLen = s.pixLen := rfl
@[simp] theorem startZ_outLen : (s.startZ buf cnt).outLen = s.outLen := rfl
@[simp] theorem startZ_scanLen : (s.startZ buf cnt).scanLen = s.scanLen := rfl
@[simp] theorem startZ_zLen : (s.startZ buf cnt).zLen = 0 := rfl
@[simp] theorem startZ_lastCmd : (s.startZ buf cnt).lastCmd = s.lastCmd := rfl
@[simp] theorem startZ_crc : (s.startZ buf cnt).crc = s.crc := rfl
@[simp] theorem startZ_ada : (s.startZ buf cnt).ada = s.ada := rfl
@[simp] theorem startZ_adb : (s.startZ buf cnt).adb = s.adb := rfl
@[simp] theorem startZ_bitbuf : (s.startZ buf cnt).bitbuf = buf := rfl
@[simp] theorem startZ_bitcnt : (s.startZ buf cnt).bitcnt = cnt := rfl
@[simp] theorem startZ_pix : (s.startZ buf cnt).pix = s.pix := rfl
@[simp] theorem startZ_scan : (s.startZ buf cnt).scan = s.scan := rfl
@[simp] theorem startZ_zbuf : (s.startZ buf cnt).zbuf = s.zbuf := rfl
@[simp] theorem startZ_out : (s.startZ buf cnt).out = s.out := rfl
@[simp] theorem startZ_turns : (s.startZ buf cnt).turns = s.turns := rfl
@[simp] theorem startZ_answers : (s.startZ buf cnt).answers = s.answers := rfl
@[simp] theorem startZ_draws : (s.startZ buf cnt).draws = s.draws := rfl

end startZ

section setZ
variable (z : Bytes)

@[simp] theorem setZ_cfg : (s.setZ z).cfg = s.cfg := rfl
@[simp] theorem setZ_busy : (s.setZ z).busy = s.busy := rfl
@[simp] theorem setZ_done : (s.setZ z).done = s.done := rfl
@[simp] theorem setZ_err : (s.setZ z).err = s.err := rfl
@[simp] theorem setZ_phase : (s.setZ z).phase = s.phase := rfl
@[simp] theorem setZ_width : (s.setZ z).width = s.width := rfl
@[simp] theorem setZ_height : (s.setZ z).height = s.height := rfl
@[simp] theorem setZ_pixLen : (s.setZ z).pixLen = s.pixLen := rfl
@[simp] theorem setZ_outLen : (s.setZ z).outLen = s.outLen := rfl
@[simp] theorem setZ_scanLen : (s.setZ z).scanLen = s.scanLen := rfl
@[simp] theorem setZ_zLen : (s.setZ z).zLen = BitVec.ofNat 32 z.length := rfl
@[simp] theorem setZ_lastCmd : (s.setZ z).lastCmd = s.lastCmd := rfl
@[simp] theorem setZ_crc : (s.setZ z).crc = s.crc := rfl
@[simp] theorem setZ_ada : (s.setZ z).ada = s.ada := rfl
@[simp] theorem setZ_adb : (s.setZ z).adb = s.adb := rfl
@[simp] theorem setZ_bitbuf : (s.setZ z).bitbuf = s.bitbuf := rfl
@[simp] theorem setZ_bitcnt : (s.setZ z).bitcnt = s.bitcnt := rfl
@[simp] theorem setZ_pix : (s.setZ z).pix = s.pix := rfl
@[simp] theorem setZ_scan : (s.setZ z).scan = s.scan := rfl
@[simp] theorem setZ_zbuf : (s.setZ z).zbuf = s.zbuf.write 0 z := rfl
@[simp] theorem setZ_out : (s.setZ z).out = s.out := rfl
@[simp] theorem setZ_turns : (s.setZ z).turns = s.turns := rfl
@[simp] theorem setZ_answers : (s.setZ z).answers = s.answers := rfl
@[simp] theorem setZ_draws : (s.setZ z).draws = s.draws := rfl

end setZ

section clearOut

@[simp] theorem clearOut_cfg : (s.clearOut).cfg = s.cfg := rfl
@[simp] theorem clearOut_busy : (s.clearOut).busy = s.busy := rfl
@[simp] theorem clearOut_done : (s.clearOut).done = s.done := rfl
@[simp] theorem clearOut_err : (s.clearOut).err = s.err := rfl
@[simp] theorem clearOut_phase : (s.clearOut).phase = s.phase := rfl
@[simp] theorem clearOut_width : (s.clearOut).width = s.width := rfl
@[simp] theorem clearOut_height : (s.clearOut).height = s.height := rfl
@[simp] theorem clearOut_pixLen : (s.clearOut).pixLen = s.pixLen := rfl
@[simp] theorem clearOut_outLen : (s.clearOut).outLen = 0 := rfl
@[simp] theorem clearOut_scanLen : (s.clearOut).scanLen = s.scanLen := rfl
@[simp] theorem clearOut_zLen : (s.clearOut).zLen = s.zLen := rfl
@[simp] theorem clearOut_lastCmd : (s.clearOut).lastCmd = s.lastCmd := rfl
@[simp] theorem clearOut_crc : (s.clearOut).crc = s.crc := rfl
@[simp] theorem clearOut_ada : (s.clearOut).ada = s.ada := rfl
@[simp] theorem clearOut_adb : (s.clearOut).adb = s.adb := rfl
@[simp] theorem clearOut_bitbuf : (s.clearOut).bitbuf = s.bitbuf := rfl
@[simp] theorem clearOut_bitcnt : (s.clearOut).bitcnt = s.bitcnt := rfl
@[simp] theorem clearOut_pix : (s.clearOut).pix = s.pix := rfl
@[simp] theorem clearOut_scan : (s.clearOut).scan = s.scan := rfl
@[simp] theorem clearOut_zbuf : (s.clearOut).zbuf = s.zbuf := rfl
@[simp] theorem clearOut_out : (s.clearOut).out = s.out := rfl
@[simp] theorem clearOut_turns : (s.clearOut).turns = s.turns := rfl
@[simp] theorem clearOut_answers : (s.clearOut).answers = s.answers := rfl
@[simp] theorem clearOut_draws : (s.clearOut).draws = s.draws := rfl

end clearOut

section putOut
variable (bs : Bytes)

@[simp] theorem putOut_cfg : (s.putOut bs).cfg = s.cfg := rfl
@[simp] theorem putOut_busy : (s.putOut bs).busy = s.busy := rfl
@[simp] theorem putOut_done : (s.putOut bs).done = s.done := rfl
@[simp] theorem putOut_err : (s.putOut bs).err = s.err := rfl
@[simp] theorem putOut_phase : (s.putOut bs).phase = s.phase := rfl
@[simp] theorem putOut_width : (s.putOut bs).width = s.width := rfl
@[simp] theorem putOut_height : (s.putOut bs).height = s.height := rfl
@[simp] theorem putOut_pixLen : (s.putOut bs).pixLen = s.pixLen := rfl
@[simp] theorem putOut_outLen : (s.putOut bs).outLen = BitVec.ofNat 32 (s.outLen.toNat + bs.length) := rfl
@[simp] theorem putOut_scanLen : (s.putOut bs).scanLen = s.scanLen := rfl
@[simp] theorem putOut_zLen : (s.putOut bs).zLen = s.zLen := rfl
@[simp] theorem putOut_lastCmd : (s.putOut bs).lastCmd = s.lastCmd := rfl
@[simp] theorem putOut_crc : (s.putOut bs).crc = s.crc := rfl
@[simp] theorem putOut_ada : (s.putOut bs).ada = s.ada := rfl
@[simp] theorem putOut_adb : (s.putOut bs).adb = s.adb := rfl
@[simp] theorem putOut_bitbuf : (s.putOut bs).bitbuf = s.bitbuf := rfl
@[simp] theorem putOut_bitcnt : (s.putOut bs).bitcnt = s.bitcnt := rfl
@[simp] theorem putOut_pix : (s.putOut bs).pix = s.pix := rfl
@[simp] theorem putOut_scan : (s.putOut bs).scan = s.scan := rfl
@[simp] theorem putOut_zbuf : (s.putOut bs).zbuf = s.zbuf := rfl
@[simp] theorem putOut_out : (s.putOut bs).out = s.out.write s.outLen.toNat bs := rfl
@[simp] theorem putOut_turns : (s.putOut bs).turns = s.turns := rfl
@[simp] theorem putOut_answers : (s.putOut bs).answers = s.answers := rfl
@[simp] theorem putOut_draws : (s.putOut bs).draws = s.draws := rfl

end putOut

section clearLengths

@[simp] theorem clearLengths_cfg : (s.clearLengths).cfg = s.cfg := rfl
@[simp] theorem clearLengths_busy : (s.clearLengths).busy = s.busy := rfl
@[simp] theorem clearLengths_done : (s.clearLengths).done = s.done := rfl
@[simp] theorem clearLengths_err : (s.clearLengths).err = s.err := rfl
@[simp] theorem clearLengths_phase : (s.clearLengths).phase = s.phase := rfl
@[simp] theorem clearLengths_width : (s.clearLengths).width = s.width := rfl
@[simp] theorem clearLengths_height : (s.clearLengths).height = s.height := rfl
@[simp] theorem clearLengths_pixLen : (s.clearLengths).pixLen = s.pixLen := rfl
@[simp] theorem clearLengths_outLen : (s.clearLengths).outLen = 0 := rfl
@[simp] theorem clearLengths_scanLen : (s.clearLengths).scanLen = 0 := rfl
@[simp] theorem clearLengths_zLen : (s.clearLengths).zLen = 0 := rfl
@[simp] theorem clearLengths_lastCmd : (s.clearLengths).lastCmd = s.lastCmd := rfl
@[simp] theorem clearLengths_crc : (s.clearLengths).crc = s.crc := rfl
@[simp] theorem clearLengths_ada : (s.clearLengths).ada = s.ada := rfl
@[simp] theorem clearLengths_adb : (s.clearLengths).adb = s.adb := rfl
@[simp] theorem clearLengths_bitbuf : (s.clearLengths).bitbuf = s.bitbuf := rfl
@[simp] theorem clearLengths_bitcnt : (s.clearLengths).bitcnt = s.bitcnt := rfl
@[simp] theorem clearLengths_pix : (s.clearLengths).pix = s.pix := rfl
@[simp] theorem clearLengths_scan : (s.clearLengths).scan = s.scan := rfl
@[simp] theorem clearLengths_zbuf : (s.clearLengths).zbuf = s.zbuf := rfl
@[simp] theorem clearLengths_out : (s.clearLengths).out = s.out := rfl
@[simp] theorem clearLengths_turns : (s.clearLengths).turns = s.turns := rfl
@[simp] theorem clearLengths_answers : (s.clearLengths).answers = s.answers := rfl
@[simp] theorem clearLengths_draws : (s.clearLengths).draws = s.draws := rfl

end clearLengths

section complete

@[simp] theorem complete_cfg : (s.complete).cfg = s.cfg := rfl
@[simp] theorem complete_busy : (s.complete).busy = false := rfl
@[simp] theorem complete_done : (s.complete).done = true := rfl
@[simp] theorem complete_err : (s.complete).err = s.err := rfl
@[simp] theorem complete_phase : (s.complete).phase = .idle := rfl
@[simp] theorem complete_width : (s.complete).width = s.width := rfl
@[simp] theorem complete_height : (s.complete).height = s.height := rfl
@[simp] theorem complete_pixLen : (s.complete).pixLen = s.pixLen := rfl
@[simp] theorem complete_outLen : (s.complete).outLen = s.outLen := rfl
@[simp] theorem complete_scanLen : (s.complete).scanLen = s.scanLen := rfl
@[simp] theorem complete_zLen : (s.complete).zLen = s.zLen := rfl
@[simp] theorem complete_lastCmd : (s.complete).lastCmd = s.lastCmd := rfl
@[simp] theorem complete_crc : (s.complete).crc = s.crc := rfl
@[simp] theorem complete_ada : (s.complete).ada = s.ada := rfl
@[simp] theorem complete_adb : (s.complete).adb = s.adb := rfl
@[simp] theorem complete_bitbuf : (s.complete).bitbuf = s.bitbuf := rfl
@[simp] theorem complete_bitcnt : (s.complete).bitcnt = s.bitcnt := rfl
@[simp] theorem complete_pix : (s.complete).pix = s.pix := rfl
@[simp] theorem complete_scan : (s.complete).scan = s.scan := rfl
@[simp] theorem complete_zbuf : (s.complete).zbuf = s.zbuf := rfl
@[simp] theorem complete_out : (s.complete).out = s.out := rfl
@[simp] theorem complete_turns : (s.complete).turns = s.turns := rfl
@[simp] theorem complete_answers : (s.complete).answers = s.answers := rfl
@[simp] theorem complete_draws : (s.complete).draws = s.draws := rfl

end complete

section raise
variable (e : PngeError)

@[simp] theorem raise_cfg : (s.raise e).cfg = s.cfg := rfl
@[simp] theorem raise_busy : (s.raise e).busy = false := rfl
@[simp] theorem raise_done : (s.raise e).done = true := rfl
@[simp] theorem raise_err : (s.raise e).err = some e := rfl
@[simp] theorem raise_phase : (s.raise e).phase = s.phase := rfl
@[simp] theorem raise_width : (s.raise e).width = s.width := rfl
@[simp] theorem raise_height : (s.raise e).height = s.height := rfl
@[simp] theorem raise_pixLen : (s.raise e).pixLen = s.pixLen := rfl
@[simp] theorem raise_outLen : (s.raise e).outLen = s.outLen := rfl
@[simp] theorem raise_scanLen : (s.raise e).scanLen = s.scanLen := rfl
@[simp] theorem raise_zLen : (s.raise e).zLen = s.zLen := rfl
@[simp] theorem raise_lastCmd : (s.raise e).lastCmd = s.lastCmd := rfl
@[simp] theorem raise_crc : (s.raise e).crc = s.crc := rfl
@[simp] theorem raise_ada : (s.raise e).ada = s.ada := rfl
@[simp] theorem raise_adb : (s.raise e).adb = s.adb := rfl
@[simp] theorem raise_bitbuf : (s.raise e).bitbuf = s.bitbuf := rfl
@[simp] theorem raise_bitcnt : (s.raise e).bitcnt = s.bitcnt := rfl
@[simp] theorem raise_pix : (s.raise e).pix = s.pix := rfl
@[simp] theorem raise_scan : (s.raise e).scan = s.scan := rfl
@[simp] theorem raise_zbuf : (s.raise e).zbuf = s.zbuf := rfl
@[simp] theorem raise_out : (s.raise e).out = s.out := rfl
@[simp] theorem raise_turns : (s.raise e).turns = s.turns := rfl
@[simp] theorem raise_answers : (s.raise e).answers = s.answers := rfl
@[simp] theorem raise_draws : (s.raise e).draws = s.draws := rfl

end raise

section softReset

@[simp] theorem softReset_cfg : (s.softReset).cfg = s.cfg := rfl
@[simp] theorem softReset_busy : (s.softReset).busy = false := rfl
@[simp] theorem softReset_done : (s.softReset).done = false := rfl
@[simp] theorem softReset_err : (s.softReset).err = none := rfl
@[simp] theorem softReset_phase : (s.softReset).phase = .idle := rfl
@[simp] theorem softReset_width : (s.softReset).width = 0 := rfl
@[simp] theorem softReset_height : (s.softReset).height = 0 := rfl
@[simp] theorem softReset_pixLen : (s.softReset).pixLen = 0 := rfl
@[simp] theorem softReset_outLen : (s.softReset).outLen = 0 := rfl
@[simp] theorem softReset_scanLen : (s.softReset).scanLen = 0 := rfl
@[simp] theorem softReset_zLen : (s.softReset).zLen = 0 := rfl
@[simp] theorem softReset_lastCmd : (s.softReset).lastCmd = 0 := rfl
@[simp] theorem softReset_crc : (s.softReset).crc = 0xFFFFFFFF := rfl
@[simp] theorem softReset_ada : (s.softReset).ada = 1 := rfl
@[simp] theorem softReset_adb : (s.softReset).adb = 0 := rfl
@[simp] theorem softReset_bitbuf : (s.softReset).bitbuf = 0 := rfl
@[simp] theorem softReset_bitcnt : (s.softReset).bitcnt = 0 := rfl
@[simp] theorem softReset_pix : (s.softReset).pix = s.pix := rfl
@[simp] theorem softReset_scan : (s.softReset).scan = s.scan := rfl
@[simp] theorem softReset_zbuf : (s.softReset).zbuf = s.zbuf := rfl
@[simp] theorem softReset_out : (s.softReset).out = s.out := rfl
@[simp] theorem softReset_turns : (s.softReset).turns = s.turns := rfl
@[simp] theorem softReset_answers : (s.softReset).answers = s.answers := rfl
@[simp] theorem softReset_draws : (s.softReset).draws = s.draws := rfl

end softReset

end Sys2Proof.Machine.State
end

