-- ==== Sys2Proof/Laws/Ops.lean ====
section
/-! SUPPORT. For each shared operation, one lemma that says everything it can do. -/

namespace Sys2Proof.Machine

namespace Flow

@[simp] theorem go_andThen (s : State) (next : State → Flow) : (go s).andThen next = next s := rfl

@[simp] theorem raised_andThen (e : PngeError) (s : State) (next : State → Flow) :
    (raised e s).andThen next = raised e s := rfl

@[simp] theorem stuck_andThen (x : Fault) (next : State → Flow) :
    (stuck x).andThen next = stuck x := rfl

@[simp] theorem finish_go (s : State) : (go s).finish = .next s.complete := rfl

@[simp] theorem finish_raised (e : PngeError) (s : State) :
    (raised e s).finish = .next (s.raise e) := rfl

@[simp] theorem finish_stuck (x : Fault) : (stuck x).finish = .fault x := rfl

@[simp] theorem finishEncode_go (s : State) : (go s).finishEncode = .next s.complete := rfl

@[simp] theorem finishEncode_raised (e : PngeError) (s : State) :
    (raised e s).finishEncode = .next (s.clearLengths.raise e) := rfl

@[simp] theorem finishEncode_stuck (x : Fault) : (stuck x).finishEncode = .fault x := rfl

/-- The state a run has reached, if it has one, satisfies `P`. -/
def All (P : State → Prop) : Flow → Prop
  | go s => P s
  | raised _ s => P s
  | stuck _ => True

@[simp] theorem all_go (P : State → Prop) (s : State) : (go s).All P ↔ P s := Iff.rfl

@[simp] theorem all_raised (P : State → Prop) (e : PngeError) (s : State) :
    (raised e s).All P ↔ P s := Iff.rfl

@[simp] theorem all_stuck (P : State → Prop) (x : Fault) : (stuck x).All P := trivial

/-- What each piece of pseudocode keeps, their sequence keeps. -/
theorem all_andThen {P : State → Prop} {f : Flow} {next : State → Flow} (h : f.All P)
    (hn : ∀ s, P s → (next s).All P) : (f.andThen next).All P := by
  cases f with
  | go s => exact hn s h
  | raised e s => exact h
  | stuck x => trivial

/-- A run that goes on to the end has gone on through its first piece. -/
theorem andThen_eq_go {f : Flow} {next : State → Flow} {t : State} (h : f.andThen next = .go t) :
    ∃ s, f = .go s ∧ next s = .go t := by
  cases f with
  | go s => exact ⟨s, rfl, h⟩
  | raised e s => cases h
  | stuck x => cases h

end Flow

/-- `Validate` (R248) passes on an accepted image, else raises the first error that applies; it
never changes the state. -/
theorem validate_cases (s : State) :
    (s.ImageAccepted ∧ validate s = .go s) ∨
    ((s.width = 0 ∨ s.height = 0) ∧ validate s = .raised .unsupportedDimensions s) ∨
    ((s.width ≠ 0 ∧ s.height ≠ 0) ∧ s.pixLen.toNat ≠ s.width.toNat * s.height.toNat * 3 ∧
      validate s = .raised .bufferSizeMismatch s) ∨
    ((s.width ≠ 0 ∧ s.height ≠ 0) ∧ s.pixLen.toNat = s.width.toNat * s.height.toNat * 3 ∧
      (s.cfg.pixCap < s.pixLen.toNat ∨
        s.cfg.scanCap < s.height.toNat * (1 + s.width.toNat * 3)) ∧
      validate s = .raised .capacityExceeded s) := by
  unfold validate State.ImageAccepted
  split
  · rename_i h; exact .inr (.inl ⟨h, rfl⟩)
  · rename_i hd
    have hd' : s.width ≠ 0 ∧ s.height ≠ 0 := not_or.1 hd
    split
    · rename_i hm; exact .inr (.inr (.inl ⟨hd', hm, rfl⟩))
    · rename_i hm
      have hm' := not_not.1 hm
      split
      · rename_i hp; exact .inr (.inr (.inr ⟨hd', hm', .inl hp, rfl⟩))
      · rename_i hp
        split
        · rename_i hs; exact .inr (.inr (.inr ⟨hd', hm', .inr hs, rfl⟩))
        · rename_i hs
          exact .inl ⟨⟨hd'.1, hd'.2, hm', Nat.not_lt.1 hp, Nat.not_lt.1 hs⟩, rfl⟩

theorem validate_of_accepted {s : State} (h : s.ImageAccepted) : validate s = .go s := by
  obtain ⟨hw, hh, hm, hp, hs⟩ := h
  unfold validate
  rw [if_neg (not_or.2 ⟨hw, hh⟩), if_neg (not_not.2 hm), if_neg (Nat.not_lt.2 hp),
    if_neg (Nat.not_lt.2 hs)]

theorem validate_eq_go {s t : State} (h : validate s = .go t) : t = s ∧ s.ImageAccepted := by
  rcases validate_cases s with ⟨ha, he⟩ | ⟨_, he⟩ | ⟨_, _, he⟩ | ⟨_, _, _, he⟩
  · rw [he] at h; cases h; exact ⟨rfl, ha⟩
  all_goals rw [he] at h; cases h

theorem checkDimensions_cases (s : State) :
    ((s.width ≠ 0 ∧ s.height ≠ 0) ∧ checkDimensions s = .go s) ∨
    ((s.width = 0 ∨ s.height = 0) ∧ checkDimensions s = .raised .unsupportedDimensions s) := by
  unfold checkDimensions
  split
  · rename_i h; exact .inr ⟨h, rfl⟩
  · rename_i h; exact .inl ⟨not_or.1 h, rfl⟩

theorem appendOut_cases (bs : Bytes) (s : State) :
    (s.outLen.toNat + bs.length ≤ s.cfg.outCap ∧ appendOut bs s = .go (s.putOut bs)) ∨
    (s.cfg.outCap < s.outLen.toNat + bs.length ∧
      appendOut bs s = .raised .capacityExceeded s) := by
  unfold appendOut
  split
  · rename_i h; exact .inr ⟨h, rfl⟩
  · rename_i h; exact .inl ⟨Nat.not_lt.1 h, rfl⟩

@[simp] theorem length_be32 (v : Word) : (be32 v).length = 4 := rfl

@[simp] theorem length_be32Nat (n : Nat) : (be32Nat n).length = 4 := rfl

/-- `EmitChunk` (R240): the CRC unit ends on `type ++ data`, and `OUT` grows by `Chunk(type, data)`;
or the capacity check fails and nothing changes. -/
theorem emitChunk_cases (type data : Bytes) (s : State) :
    (s.outLen.toNat + 12 + data.length ≤ s.cfg.outCap ∧
      emitChunk type data s =
        .go ((s.setCrc (crcFold crcInitial (type ++ data))).putOut (chunk type data))) ∨
    (s.cfg.outCap < s.outLen.toNat + 12 + data.length ∧
      emitChunk type data s = .raised .capacityExceeded s) := by
  unfold emitChunk
  split
  · rename_i h; exact .inr ⟨h, rfl⟩
  · rename_i h; exact .inl ⟨Nat.not_lt.1 h, rfl⟩

theorem length_chunk (type data : Bytes) :
    (chunk type data).length = 8 + type.length + data.length := by
  simp [chunk]
  omega

@[simp] theorem length_ihdrData (w h : Word) : (ihdrData w h).length = 13 := rfl

/-- An append within a capacity below 2^32 appends (R12), and the length register does not wrap. -/
theorem putOut_appends (bs : Bytes) (s : State) (h : s.outLen.toNat + bs.length < 2 ^ 32) :
    Appends bs s (s.putOut bs) := by
  refine ⟨?_, fun k hk => ?_, fun a ha => ?_⟩
  · simp only [State.putOut_outLen, BitVec.toNat_ofNat]
    exact Nat.mod_eq_of_lt h
  · exact Memory.read_write_inside _ _ _ _ hk
  · exact Memory.read_write_outside _ _ _ _ ha

theorem buildScan_cases (s : State) :
    (∃ bs, scanlines s = some bs ∧ buildScan s = .go (s.setScan bs)) ∨
    (scanlines s = none ∧ buildScan s = .stuck .pixNeverWritten) := by
  unfold buildScan
  cases h : scanlines s with
  | none => exact .inr ⟨rfl, rfl⟩
  | some bs => exact .inl ⟨bs, rfl, rfl⟩

/-- The state of `PNG.ZCOMP` before its capacity check (R205). -/
theorem zcompStep_cases (s : State) :
    let data := scanData s
    let z := compress s.cfg.compMode data
    let s' := ((s.setPhase .zcomp).setAdler (adlerFold adlerInitial data)).startZ z.bitbuf z.bitcnt
    (z.stream.length ≤ s.cfg.zCap ∧ zcompStep s = .go (s'.setZ z.stream)) ∨
    (s.cfg.zCap < z.stream.length ∧ zcompStep s = .raised .capacityExceeded s') := by
  intro data z s'
  by_cases h : s.cfg.zCap < z.stream.length
  · exact .inr ⟨h, if_pos h⟩
  · exact .inl ⟨Nat.not_lt.1 h, if_neg h⟩

/-- A row read is there exactly when its bytes have been written, so the scanline buffer is there
exactly when the rows' bytes have been. -/
theorem scanRows_isSome (pix : Memory) (rowBytes r n : Nat) :
    (scanRows pix rowBytes r n).isSome ↔
      ∀ k < n * rowBytes, (pix.read (r * rowBytes + k)).isSome := by
  induction n generalizing r with
  | zero => simp [scanRows]
  | succ n ih =>
    have hmul : (n + 1) * rowBytes = rowBytes + n * rowBytes := by ring
    have hr : (r + 1) * rowBytes = r * rowBytes + rowBytes := by ring
    constructor
    · intro h k hk
      cases hrow : pix.readWritten (r * rowBytes) rowBytes with
      | none => simp [scanRows, hrow] at h
      | some row =>
        have hrest : (scanRows pix rowBytes (r + 1) n).isSome := by
          simpa [scanRows, hrow] using h
        by_cases hlt : k < rowBytes
        · exact (Memory.readWritten_isSome pix _ _).1 (by simp [hrow]) k hlt
        · have := (ih (r + 1)).1 hrest (k - rowBytes) (by omega)
          rwa [hr, Nat.add_assoc, Nat.add_sub_cancel' (Nat.le_of_not_lt hlt)] at this
    · intro h
      have hrow : (pix.readWritten (r * rowBytes) rowBytes).isSome :=
        (Memory.readWritten_isSome pix _ _).2 fun k hk => h k (by omega)
      obtain ⟨row, hrow⟩ := Option.isSome_iff_exists.1 hrow
      have hrest : (scanRows pix rowBytes (r + 1) n).isSome := by
        refine (ih (r + 1)).2 fun k hk => ?_
        rw [hr, Nat.add_assoc]
        exact h _ (by omega)
      simpa [scanRows, hrow] using hrest

/-- The scanline buffer has `HEIGHT * (1 + WIDTH * 3)` bytes (R105). -/
theorem length_scanRows {pix : Memory} {rowBytes r n : Nat} {bs : Bytes}
    (h : scanRows pix rowBytes r n = some bs) : bs.length = n * (1 + rowBytes) := by
  induction n generalizing r bs with
  | zero => simp [scanRows] at h; simp [← h]
  | succ n ih =>
    cases hrow : pix.readWritten (r * rowBytes) rowBytes with
    | none => simp [scanRows, hrow] at h
    | some row =>
      simp only [scanRows, hrow, Option.map_eq_some_iff] at h
      obtain ⟨rest, hrest, rfl⟩ := h
      have h1 := Memory.length_readWritten hrow
      have h2 := ih hrest
      simp only [List.cons_append, List.length_cons, List.length_append, h1, h2]
      ring

theorem length_scanlines {s : State} {bs : Bytes} (h : scanlines s = some bs) :
    bs.length = s.height.toNat * (1 + s.width.toNat * 3) := length_scanRows h

/-- On an accepted image the scanline buffer is there exactly when the host has written all of
`PIX[0 .. PIX_LEN)` (R75). -/
theorem scanlines_isSome {s : State} (h : s.ImageAccepted) :
    (scanlines s).isSome ↔ s.PixWritten := by
  unfold scanlines State.PixWritten Memory.filled
  rw [scanRows_isSome]
  have : s.height.toNat * (s.width.toNat * 3) = s.pixLen.toNat := by
    rw [h.2.2.1]; ring
  simp [this]

end Sys2Proof.Machine
end

