-- ==== Sys2Proof/Laws/Units.lean ====
section
/-! SUPPORT. The bit packer is empty after a compression (10_state.md R37), and the Adler sums stay in
their range (R35). -/

namespace Sys2Proof.Machine

/-- R192's invariant: "bits `BITCNT` to 7 of `BITBUF` are 0". -/
def BitWriter.Padded (w : BitWriter) : Prop :=
  ∀ j, w.bitcnt.toNat ≤ j → w.bitbuf.getLsbD j = false

theorem padded_start : BitWriter.start.Padded := by
  intro j _
  simp [BitWriter.start]

theorem padded_putBit {w : BitWriter} (h : w.Padded) (x : Bool) : (putBit w x).Padded := by
  unfold putBit
  split
  · intro j _; simp
  · rename_i hne
    have hlt : w.bitcnt.toNat < 8 := w.bitcnt.isLt
    have h7 : w.bitcnt.toNat ≠ 7 := fun he => hne (BitVec.eq_of_toNat_eq he)
    intro j hj
    have hcnt : (w.bitcnt + 1).toNat = w.bitcnt.toNat + 1 := by
      rw [BitVec.toNat_add]; simp; omega
    simp only [hcnt] at hj
    have h1 : w.bitbuf.getLsbD j = false := h j (by omega)
    have h2 : ¬ j < w.bitcnt.toNat := by omega
    have h3 : j - w.bitcnt.toNat ≠ 0 := by omega
    simp [h1, h2, h3]

theorem padded_putBitList {w : BitWriter} (h : w.Padded) (bits : List Bool) :
    (putBitList w bits).Padded := by
  induction bits generalizing w with
  | nil => exact h
  | cons x bits ih => exact ih (padded_putBit h x)

theorem padded_putBits {w : BitWriter} (h : w.Padded) (v n : Nat) : (putBits w v n).Padded :=
  padded_putBitList h _

theorem padded_putCode {w : BitWriter} (h : w.Padded) (c n : Nat) : (putCode w c n).Padded :=
  padded_putBitList h _

theorem padded_emitToken {w : BitWriter} (h : w.Padded) (t : Token) : (emitToken w t).Padded := by
  cases t with
  | lit b => exact padded_putCode h _ _
  | copy len dist =>
    exact padded_putBits (padded_putCode (padded_putBits (padded_putCode h _ _) _ _) _ _) _ _

theorem padded_emitTokens {w : BitWriter} (h : w.Padded) (ts : List Token) :
    (ts.foldl emitToken w).Padded := by
  induction ts generalizing w with
  | nil => exact h
  | cons t ts ih => exact ih (padded_emitToken h t)

/-- "After `FlushBits`, `BITCNT = 0` and `BITBUF = 0`" (R195). -/
theorem flushBits_empty {w : BitWriter} (h : w.Padded) :
    (flushBits w).bitbuf = 0 ∧ (flushBits w).bitcnt = 0 := by
  unfold flushBits
  split
  · rename_i hc
    refine ⟨BitVec.eq_of_getLsbD_eq fun j _ => ?_, hc⟩
    rw [h j (by simp [hc])]
    simp
  · exact ⟨rfl, rfl⟩

/-- Every compressor leaves the bit packer empty (R37, R205). -/
theorem compress_bits (mode : CompMode) (s : Bytes) :
    (compress mode s).bitbuf = 0 ∧ (compress mode s).bitcnt = 0 := by
  cases mode with
  | fixedLz =>
    have hstart : (putBits (putBits .start 1 1) 1 2).Padded :=
      padded_putBits (padded_putBits padded_start _ _) _ _
    have hend := padded_putCode (padded_emitTokens hstart (tokens s)) 0 7
    simpa only [compress, deflateFixedLzWriter] using flushBits_empty hend
  | stored => exact ⟨rfl, rfl⟩
  | other => exact ⟨rfl, rfl⟩

/-- The two sums are in the range 0 to 65520 (R35). -/
def AdlerRange (ab : BitVec 16 × BitVec 16) : Prop :=
  ab.1.toNat < adlerMod ∧ ab.2.toNat < adlerMod

theorem adlerStep_range (ab : BitVec 16 × BitVec 16) (x : Byte) : AdlerRange (adlerStep ab x) := by
  have hpos : 0 < adlerMod := by decide
  have hle : adlerMod ≤ 2 ^ 16 := by decide
  have h1 := Nat.mod_lt (ab.1.toNat + x.toNat) hpos
  have h2 := Nat.mod_lt (ab.2.toNat + (ab.1.toNat + x.toNat) % adlerMod) hpos
  constructor
  · simp only [adlerStep, BitVec.toNat_ofNat]
    rw [Nat.mod_eq_of_lt (by omega)]
    exact h1
  · simp only [adlerStep, BitVec.toNat_ofNat]
    rw [Nat.mod_eq_of_lt (by omega)]
    exact h2

theorem adlerFold_range {ab : BitVec 16 × BitVec 16} (h : AdlerRange ab) (m : Bytes) :
    AdlerRange (adlerFold ab m) := by
  induction m generalizing ab with
  | nil => exact h
  | cons x m ih => exact ih (adlerStep_range ab x)

theorem adlerInitial_range : AdlerRange adlerInitial := by
  simp [AdlerRange, adlerInitial, adlerMod]

/-- The CRC of a longer message goes on from the register (R158). -/
theorem crcFold_append (c : Word) (a b : Bytes) :
    crcFold c (a ++ b) = crcFold (crcFold c a) b := List.foldl_append ..

end Sys2Proof.Machine
end

