-- ==== Sys2Proof/Laws/Encode.lean ====
section
/-! SUPPORT. Everything a run of `PNG.ENCODE` can do (43_png_framing.md R247), state by state. -/

namespace Sys2Proof.Machine

/-- R247 after the IHDR chunk: 33 bytes of output, `CRC` on the IHDR chunk. -/
def State.afterHeader (s : State) : State :=
  ((((s.clearLengths.setPhase .scan).setPhase .sig).putOut pngSignature).setPhase .ihdr
    |>.setCrc (crcFold crcInitial (typeIhdr ++ ihdrData s.width s.height))).putOut
      (chunk typeIhdr (ihdrData s.width s.height))

/-- R247 with the scanline buffer `scan` built. -/
def State.afterScan (s : State) (scan : Bytes) : State :=
  (s.afterHeader.setPhase .scan).setScan scan

/-- R247 in the compression, before its capacity check: the Adler pass is done, `Z_LEN` is 0. -/
def State.atZcomp (s : State) (scan : Bytes) : State :=
  (((s.afterScan scan).setPhase .zcomp).setAdler (adlerFold adlerInitial scan)).startZ 0 0

/-- R247 at the IDAT chunk's capacity check. -/
def State.atIdat (s : State) (scan : Bytes) : State :=
  ((s.atZcomp scan).setZ (zStream s.cfg.compMode scan)).setPhase .idat

/-- R247 at the IEND chunk's capacity check: the IDAT chunk is out. -/
def State.atIend (s : State) (scan : Bytes) : State :=
  (((s.atIdat scan).setCrc (crcFold crcInitial (typeIdat ++ zStream s.cfg.compMode scan))).putOut
    (chunk typeIdat (zStream s.cfg.compMode scan))).setPhase .iend

/-- R247 at its end, before the completion flags. -/
def State.atEnd (s : State) (scan : Bytes) : State :=
  ((s.atIend scan).setCrc (crcFold crcInitial (typeIend ++ []))).putOut (chunk typeIend [])

section
variable (s : State) (scan : Bytes)

theorem afterHeader_inputs : s.afterHeader.pix = s.pix ∧ s.afterHeader.width = s.width ∧
    s.afterHeader.height = s.height := by
  simp [State.afterHeader]

theorem afterHeader_outLen : s.afterHeader.outLen = 33 := by
  simp [State.afterHeader, length_chunk, pngSignature, typeIhdr]

theorem atZcomp_outLen : (s.atZcomp scan).outLen = 33 := afterHeader_outLen s

theorem atIdat_outLen : (s.atIdat scan).outLen = 33 := afterHeader_outLen s

theorem atIend_outLen :
    (s.atIend scan).outLen = BitVec.ofNat 32 (45 + (zStream s.cfg.compMode scan).length) := by
  have h : (s.atIdat scan).outLen.toNat = 33 := by rw [atIdat_outLen]; rfl
  simp only [State.atIend, State.setPhase_outLen, State.putOut_outLen, State.setCrc_outLen, h,
    length_chunk, typeIdat, List.length_cons, List.length_nil]
  congr 1
  omega

end

/-- The signature and IHDR steps cannot fail inside `PNG.ENCODE`. -/
theorem encodeRun_accepted {s : State} (hc : 72 ≤ s.cfg.outCap) (ha : s.ImageAccepted) :
    encodeRun s =
      (((scanStep s.afterHeader).andThen zcompStep).andThen idatStep).andThen iendStep := by
  have hv : validate (s.clearLengths.setPhase .scan) = .go (s.clearLengths.setPhase .scan) :=
    validate_of_accepted (s := s.clearLengths.setPhase .scan) ha
  have h1 : sigStep (s.clearLengths.setPhase .scan) =
      .go (((s.clearLengths.setPhase .scan).setPhase .sig).putOut pngSignature) := by
    rcases appendOut_cases pngSignature ((s.clearLengths.setPhase .scan).setPhase .sig) with h | h
    · exact h.2
    · have := h.1; simp [pngSignature] at this; omega
  have h2 : ihdrStep (((s.clearLengths.setPhase .scan).setPhase .sig).putOut pngSignature) =
      .go s.afterHeader := by
    rcases emitChunk_cases typeIhdr (ihdrData s.width s.height)
      ((((s.clearLengths.setPhase .scan).setPhase .sig).putOut pngSignature).setPhase .ihdr)
      with h | h
    · exact h.2
    · have := h.1; simp [pngSignature] at this; omega
  simp only [encodeRun, hv, h1, h2, Flow.go_andThen]

/-- Reading back what was written from index 0. -/
theorem readAny_write (m : Memory) (residue : Nat → Byte) (bs : Bytes) :
    (m.write 0 bs).readAny residue 0 bs.length = bs :=
  Memory.readAny_eq_of_readWritten (Memory.readWritten_write m 0 bs)

theorem scanData_setScan (s : State) (bs : Bytes) (h : bs.length < 2 ^ 32) :
    scanData (s.setScan bs) = bs := by
  have : (s.setScan bs).scanLen.toNat = bs.length := by
    simpa using Nat.mod_eq_of_lt h
  unfold scanData
  rw [this]
  exact readAny_write _ _ _

theorem zData_setZ (s : State) (z : Bytes) (h : z.length < 2 ^ 32) : zData (s.setZ z) = z := by
  have : (s.setZ z).zLen.toNat = z.length := by
    simpa using Nat.mod_eq_of_lt h
  unfold zData
  rw [this]
  exact readAny_write _ _ _

theorem idatStep_setZ_cases (s : State) (z : Bytes) (h : z.length < 2 ^ 32) :
    let s' := (s.setZ z).setPhase .idat
    (s.outLen.toNat + 12 + z.length ≤ s.cfg.outCap ∧ idatStep (s.setZ z) =
      .go ((s'.setCrc (crcFold crcInitial (typeIdat ++ z))).putOut (chunk typeIdat z))) ∨
    (s.cfg.outCap < s.outLen.toNat + 12 + z.length ∧
      idatStep (s.setZ z) = .raised .capacityExceeded s') := by
  intro s'
  unfold idatStep
  rw [zData_setZ s z h]
  exact emitChunk_cases typeIdat z s'

theorem zcompStep_afterScan (s : State) (scan : Bytes) (h : scan.length < 2 ^ 32) :
    let z := zStream s.cfg.compMode scan
    (z.length ≤ s.cfg.zCap ∧ zcompStep (s.afterScan scan) = .go ((s.atZcomp scan).setZ z)) ∨
    (s.cfg.zCap < z.length ∧
      zcompStep (s.afterScan scan) = .raised .capacityExceeded (s.atZcomp scan)) := by
  intro z
  have hd : scanData (s.afterScan scan) = scan := scanData_setScan _ scan h
  have hb := compress_bits s.cfg.compMode scan
  have hz : ((s.afterScan scan).setPhase .zcomp |>.setAdler (adlerFold adlerInitial scan)).startZ
      (compress s.cfg.compMode scan).bitbuf (compress s.cfg.compMode scan).bitcnt =
      s.atZcomp scan := by rw [hb.1, hb.2]; rfl
  have hcases := zcompStep_cases (s.afterScan scan)
  rw [hd] at hcases
  rcases hcases with ⟨h1, h2⟩ | ⟨h1, h2⟩
  · exact .inl ⟨h1, h2.trans (congrArg (fun t => Flow.go (t.setZ z)) hz)⟩
  · exact .inr ⟨h1, h2.trans (congrArg (Flow.raised .capacityExceeded) hz)⟩

/-- Everything `PNG.ENCODE` does on an accepted image: it stops at a byte of `PIX` that was never
written (R75), or the zlib stream does not fit `ZBUF`, or the IDAT or the IEND chunk does not fit
`OUT`, or it succeeds. -/
theorem encodeRun_cases {s : State} (hc : s.cfg.wellFormed = true) (ha : s.ImageAccepted) :
    (¬s.PixWritten ∧ scanlines s = none ∧ encodeRun s = .stuck .pixNeverWritten) ∨
    ∃ scan, scanlines s = some scan ∧ s.PixWritten ∧
      let z := zStream s.cfg.compMode scan
      (s.cfg.zCap < z.length ∧ encodeRun s = .raised .capacityExceeded (s.atZcomp scan)) ∨
      (z.length ≤ s.cfg.zCap ∧ s.cfg.outCap < 45 + z.length ∧
        encodeRun s = .raised .capacityExceeded (s.atIdat scan)) ∨
      (z.length ≤ s.cfg.zCap ∧ 45 + z.length ≤ s.cfg.outCap ∧ s.cfg.outCap < 57 + z.length ∧
        encodeRun s = .raised .capacityExceeded (s.atIend scan)) ∨
      (z.length ≤ s.cfg.zCap ∧ 57 + z.length ≤ s.cfg.outCap ∧
        encodeRun s = .go (s.atEnd scan)) := by
  have hcfg : s.cfg.pixCap < 2 ^ 32 ∧ s.cfg.scanCap < 2 ^ 32 ∧ s.cfg.zCap < 2 ^ 31 ∧
      72 ≤ s.cfg.outCap ∧ s.cfg.outCap < 2 ^ 32 := by
    simp [Config.wellFormed] at hc; omega
  obtain ⟨-, hscap, hzcap, hout, hout'⟩ := hcfg
  rw [encodeRun_accepted hout ha]
  have hsl : scanlines (s.afterHeader.setPhase .scan) = scanlines s := by
    simp only [scanlines, State.setPhase_pix, State.setPhase_width, State.setPhase_height,
      afterHeader_inputs s]
  rcases buildScan_cases (s.afterHeader.setPhase .scan) with ⟨scan, h1, h2⟩ | ⟨h1, h2⟩
  · rw [hsl] at h1
    change scanStep s.afterHeader = .go (s.afterScan scan) at h2
    right
    refine ⟨scan, h1, (scanlines_isSome ha).1 (by simp [h1]), ?_⟩
    generalize hz0 : zStream s.cfg.compMode scan = z
    have hlen : scan.length < 2 ^ 32 := by
      rw [length_scanlines h1]; exact Nat.lt_of_le_of_lt ha.2.2.2.2 hscap
    rw [h2, Flow.go_andThen]
    have hzc := zcompStep_afterScan s scan hlen
    have hidat : s.atIdat scan = ((s.atZcomp scan).setZ z).setPhase .idat := by
      rw [State.atIdat, hz0]
    have hiend : s.atIend scan = (((s.atIdat scan).setCrc (crcFold crcInitial (typeIdat ++ z))).putOut
        (chunk typeIdat z)).setPhase .iend := by
      rw [State.atIend, hz0]
    have hol : (s.atIend scan).outLen = BitVec.ofNat 32 (45 + z.length) := by
      rw [atIend_outLen, hz0]
    simp only [hz0] at hzc
    rcases hzc with ⟨hz, he⟩ | ⟨hz, he⟩
    · rw [he, Flow.go_andThen]
      right
      have hzl : z.length < 2 ^ 32 := by omega
      have ho : (s.atZcomp scan).outLen.toNat = 33 := by rw [atZcomp_outLen]; rfl
      have hcase := idatStep_setZ_cases (s.atZcomp scan) z hzl
      have hocap : (s.atZcomp scan).cfg.outCap = s.cfg.outCap := rfl
      simp only [ho, hocap] at hcase
      rcases hcase with ⟨h3, h4⟩ | ⟨h3, h4⟩
      · right
        have hend : iendStep ((((s.atZcomp scan).setZ z).setPhase .idat |>.setCrc
            (crcFold crcInitial (typeIdat ++ z))).putOut (chunk typeIdat z)) =
            emitChunk typeIend [] (s.atIend scan) := by
          rw [hiend, hidat]
          rfl
        rw [h4, Flow.go_andThen, hend]
        have h5 := emitChunk_cases typeIend [] (s.atIend scan)
        have hol : (s.atIend scan).outLen.toNat = 45 + z.length := by
          rw [hol]
          simpa using Nat.mod_eq_of_lt (by omega : 45 + z.length < 2 ^ 32)
        have hoc : (s.atIend scan).cfg.outCap = s.cfg.outCap := rfl
        simp only [hol, hoc, List.length_nil, Nat.add_zero] at h5
        rcases h5 with ⟨h6, h7⟩ | ⟨h6, h7⟩
        · rw [h7]
          exact .inr ⟨hz, by omega, rfl⟩
        · rw [h7]
          exact .inl ⟨hz, by omega, by omega, rfl⟩
      · left
        rw [h4, Flow.raised_andThen]
        exact ⟨hz, by omega, by rw [hidat]⟩
    · rw [he]
      exact .inl ⟨hz, rfl⟩
  · left
    rw [hsl] at h1
    have h2' : scanStep s.afterHeader = .stuck .pixNeverWritten := h2
    refine ⟨fun hp => ?_, h1, by rw [h2']; rfl⟩
    have := (scanlines_isSome ha).2 hp
    simp [h1] at this

/-- `PNG.ENCODE` on an image that `Validate` rejects (R248) raises before anything is emitted. -/
theorem encodeRun_rejected {s : State} (ha : ¬s.ImageAccepted) :
    ∃ e, validate s = .raised e s ∧
      encodeRun s = .raised e (s.clearLengths.setPhase .scan) := by
  rcases validate_cases s with ⟨h, -⟩ | ⟨hd, he⟩ | ⟨hd, hm, he⟩ | ⟨hd, hm, hp, he⟩
  · exact absurd h ha
  all_goals
    refine ⟨_, he, ?_⟩
    rcases validate_cases (s.clearLengths.setPhase .scan) with
      ⟨h', -⟩ | ⟨hd', he'⟩ | ⟨hd', hm', he'⟩ | ⟨hd', hm', hp', he'⟩
    · exact absurd h' ha
    all_goals first
      | (unfold encodeRun; rw [he']; rfl)
      | (exfalso; simp only [State.setPhase_width, State.setPhase_height, State.setPhase_pixLen,
          State.clearLengths_width, State.clearLengths_height, State.clearLengths_pixLen,
          State.setPhase_cfg, State.clearLengths_cfg] at *
         tauto)

end Sys2Proof.Machine
end

