-- ==== Sys2Proof/Laws/PerInstr.lean ====
section
/-! SUPPORT. What holds of every command as syntax, one lemma per constructor. -/

namespace Sys2Proof.Laws

/-- The opcode of a command (30_encoding.md R92, the `op` column). -/
def opcodeOf : Instr → Byte
  | .nop => 0x00
  | .srst => 0x01
  | .crcInit => 0x10
  | .crcByte _ => 0x11
  | .adlInit => 0x18
  | .adlByte _ => 0x19
  | .outClr => 0x20
  | .pngSig => 0x21
  | .pngIhdr => 0x22
  | .pngScan => 0x23
  | .pngZcomp => 0x24
  | .pngIdat => 0x25
  | .pngIend => 0x26
  | .pngEncode => 0x2F

/-- The immediate a command carries, 0 where it takes none (R90). -/
def immediateOf : Instr → Byte
  | .nop => 0
  | .srst => 0
  | .crcInit => 0
  | .crcByte imm8 => imm8
  | .adlInit => 0
  | .adlByte imm8 => imm8
  | .outClr => 0
  | .pngSig => 0
  | .pngIhdr => 0
  | .pngScan => 0
  | .pngZcomp => 0
  | .pngIdat => 0
  | .pngIend => 0
  | .pngEncode => 0

/-- The three fields of a command word built by format `C` (R90). -/
theorem fields_commandWord (op imm8 : Byte) :
    opField (commandWord op imm8) = op ∧ imm8Field (commandWord op imm8) = imm8 ∧
      zeroField (commandWord op imm8) = 0 := by
  unfold opField imm8Field zeroField commandWord
  refine ⟨?_, ?_, ?_⟩ <;> ext i hi <;>
    simp only [BitVec.getElem_extractLsb', BitVec.getLsbD_append, BitVec.getLsbD_zero] <;>
    grind

namespace Fields

/-- R90: bits 7:0 of the word are the opcode, bits 15:8 the immediate, bits 31:16 are 0. -/
def Statement (i : Instr) : Prop :=
  i.wellFormed = true ∧ opField (encode i) = opcodeOf i ∧ imm8Field (encode i) = immediateOf i ∧
    zeroField (encode i) = 0

theorem nop : Statement .nop := ⟨rfl, fields_commandWord _ _⟩
theorem srst : Statement .srst := ⟨rfl, fields_commandWord _ _⟩
theorem crcInit : Statement .crcInit := ⟨rfl, fields_commandWord _ _⟩
theorem crcByte (imm8 : Byte) : Statement (.crcByte imm8) := ⟨rfl, fields_commandWord _ _⟩
theorem adlInit : Statement .adlInit := ⟨rfl, fields_commandWord _ _⟩
theorem adlByte (imm8 : Byte) : Statement (.adlByte imm8) := ⟨rfl, fields_commandWord _ _⟩
theorem outClr : Statement .outClr := ⟨rfl, fields_commandWord _ _⟩
theorem pngSig : Statement .pngSig := ⟨rfl, fields_commandWord _ _⟩
theorem pngIhdr : Statement .pngIhdr := ⟨rfl, fields_commandWord _ _⟩
theorem pngScan : Statement .pngScan := ⟨rfl, fields_commandWord _ _⟩
theorem pngZcomp : Statement .pngZcomp := ⟨rfl, fields_commandWord _ _⟩
theorem pngIdat : Statement .pngIdat := ⟨rfl, fields_commandWord _ _⟩
theorem pngIend : Statement .pngIend := ⟨rfl, fields_commandWord _ _⟩
theorem pngEncode : Statement .pngEncode := ⟨rfl, fields_commandWord _ _⟩

end Fields

end Sys2Proof.Laws
end

