-- ==== Sys2Proof/Laws/Step.lean ====
section
/-! SUPPORT. Everything one step can do: one inversion lemma, which invariants cite instead of
unfolding the step. -/

namespace Sys2Proof.Machine

theorem stepTurn_engine {s : State} (h : s.EnginesTurn) : stepTurn s = engineStep s.popTurn := by
  unfold stepTurn State.popTurn
  rcases hs : s.turns with _ | ⟨t, rest⟩
  · have : s = { s with turns := [] } := by rw [← hs]
    rw [List.tail_nil, ← this]
  · rcases h with h | h <;> simp [hs] at h
    subst h
    rfl

theorem stepTurn_host {s : State} {a : HostAction} (h : s.turns.head? = some (.host a)) :
    stepTurn s = .next (hostStep a s.popTurn) := by
  unfold stepTurn State.popTurn
  rcases hs : s.turns with _ | ⟨t, rest⟩ <;> simp [hs] at h
  subst h
  rfl

theorem stepTurn_reset {s : State} (h : s.turns.head? = some .hardwareReset) :
    stepTurn s = .next (hardwareReset s.popTurn) := by
  unfold stepTurn State.popTurn
  rcases hs : s.turns with _ | ⟨t, rest⟩ <;> simp [hs] at h
  subst h
  rfl

theorem perform_ok {s : State} {i : Instr} (h : decode s.lastCmd = .ok i) : perform s = exec i s := by
  unfold perform
  rw [h]

theorem perform_error {s : State} {e : IllegalWord} (h : decode s.lastCmd = .error e) :
    perform s = .next ((s.setPhase .idle).raise .illegalCommand) := by
  unfold perform
  rw [h]

theorem engineStep_idle {s : State} (h : s.busy = false) : engineStep s = .next s := by
  simp [engineStep, h]

theorem engineStep_busy {s : State} (h : s.busy = true) : engineStep s = perform s := by
  simp [engineStep, h]

/-- Everything the engine's turn can do that gives a next state (R283). -/
theorem engineStep_cases {s t : State} (h : engineStep s = .next t) :
    (s.busy = false ∧ t = s) ∨
    (s.busy = true ∧ ∃ i, decode s.lastCmd = .ok i ∧ exec i s = .next t) ∨
    (s.busy = true ∧ (∃ e, decode s.lastCmd = .error e) ∧
      t = (s.setPhase .idle).raise .illegalCommand) := by
  cases hb : s.busy with
  | false =>
    rw [engineStep_idle hb] at h
    cases h
    exact .inl ⟨rfl, rfl⟩
  | true =>
    rw [engineStep_busy hb] at h
    cases hd : decode s.lastCmd with
    | ok i =>
      rw [perform_ok hd] at h
      exact .inr (.inl ⟨rfl, i, rfl, h⟩)
    | error e =>
      rw [perform_error hd] at h
      cases h
      exact .inr (.inr ⟨rfl, ⟨e, rfl⟩, rfl⟩)

/-- Everything a step can do that gives a next state (20_memory.md R70). -/
theorem step_cases {s t : State} (h : step s = .next t) :
    (∃ a, s.turns.head? = some (.host a) ∧ t = hostStep a s.popTurn) ∨
    (s.turns.head? = some .hardwareReset ∧ t = hardwareReset s.popTurn) ∨
    (s.EnginesTurn ∧ engineStep s.popTurn = .next t) := by
  change stepTurn s = _ at h
  cases ht : s.turns.head? with
  | none =>
    have he : s.EnginesTurn := .inl ht
    rw [stepTurn_engine he] at h
    exact .inr (.inr ⟨he, h⟩)
  | some turn =>
    cases turn with
    | engine =>
      have he : s.EnginesTurn := .inr ht
      rw [stepTurn_engine he] at h
      exact .inr (.inr ⟨he, h⟩)
    | host a =>
      rw [stepTurn_host ht] at h
      cases h
      exact .inl ⟨a, rfl, rfl⟩
    | hardwareReset =>
      rw [stepTurn_reset ht] at h
      cases h
      exact .inr (.inl ⟨rfl, rfl⟩)

end Sys2Proof.Machine
end

