-- ==== Sys2Proof/Tests/Slice0.lean ====
section
/-! SUPPORT. Small tests of the model, each expected result taken from spec/ (a rule's own example or a
vector of 95_test_vectors.md, named at the test), and a state that meets the hypotheses of each
obligation that has any. -/

namespace Sys2Proof.Tests

open Sys2Proof Sys2Proof.Machine

-- One theorem at a time: each closed by evaluation in the kernel holds a thread of its own.
set_option Elab.async false

/-! ## States for the tests -/

/-- The smallest capacities R8 allows. -/
def tinyCfg (mode : CompMode) : Config :=
  { pixCap := 3, scanCap := 4, zCap := 15, outCap := 72, compMode := mode }

/-- Reset with the smallest capacities. -/
def tiny (mode : CompMode) : State := { State.reset with cfg := tinyCfg mode }

/-- A one by one image whose pixel the host has written: V-PNG-1. -/
def black (mode : CompMode) : State :=
  { tiny mode with width := 1, height := 1, pixLen := 3, pix := [(0, 0x00), (1, 0x00), (2, 0x00)] }

/-- The twelve pixel bytes of DOC's Scenario 1 (V-PNG-4). -/
def scenario1Pixels : Bytes :=
  [0xFF, 0x00, 0x00, 0x00, 0xFF, 0x00, 0x00, 0x00, 0xFF, 0xFF, 0xFF, 0xFF]

/-- Its scanline buffer (V-PNG-4). -/
def scenario1Scan : Bytes :=
  [0x00, 0xFF, 0x00, 0x00, 0x00, 0xFF, 0x00, 0x00, 0x00, 0x00, 0xFF, 0xFF, 0xFF, 0xFF]

/-- Scenario 1's image in an instance with the given capacities. -/
def scenario1 (c : Config) : State :=
  { State.reset with
    cfg := c, width := 2, height := 2, pixLen := 12, pix := Memory.cells 0 scenario1Pixels }

/-- Capacities of 2^20, as 95_test_vectors.md takes them. -/
def wideCfg (mode : CompMode) : Config :=
  { pixCap := 2 ^ 20, scanCap := 2 ^ 20, zCap := 2 ^ 20, outCap := 2 ^ 20, compMode := mode }

/-- The state of a next outcome; reset for any other. -/
def after (o : Host.Outcome State Fault Refusal) : State :=
  match o with
  | .next t => t
  | .fault _ => State.reset
  | .refused _ => State.reset

/-- `STATUS` as the host reads it. -/
def status (o : Host.Outcome State Fault Refusal) : Word := readRegister 0x04 (after o)

/-! ## Well-formedness -/

theorem test_config_ranges_accepted :
    Config.default.wellFormed = true ∧ (tinyCfg .stored).wellFormed = true := by decide

theorem test_config_below_range_refused :
    ({ tinyCfg .stored with pixCap := 2 } : Config).wellFormed = false ∧
      ({ tinyCfg .stored with scanCap := 3 } : Config).wellFormed = false ∧
      ({ tinyCfg .stored with zCap := 14 } : Config).wellFormed = false ∧
      ({ tinyCfg .stored with outCap := 71 } : Config).wellFormed = false := by decide

theorem test_config_above_range_refused :
    ({ tinyCfg .stored with pixCap := 2 ^ 32 } : Config).wellFormed = false ∧
      ({ tinyCfg .stored with scanCap := 2 ^ 32 } : Config).wellFormed = false ∧
      ({ tinyCfg .stored with zCap := 2 ^ 31 } : Config).wellFormed = false ∧
      ({ tinyCfg .stored with outCap := 2 ^ 32 } : Config).wellFormed = false := by decide

theorem test_misaligned_access_refused :
    (HostAction.readRegister 0x06).wellFormed = false ∧
      (HostAction.writeRegister 0x09 1).wellFormed = false ∧
      (Turn.host (.readRegister 0x01)).wellFormed = false ∧
      (Turn.host (.readRegister 0x04)).wellFormed = true := by decide

theorem test_wide_index_refused :
    (HostAction.writePix (2 ^ 32) 0).wellFormed = false ∧
      (HostAction.readOut (2 ^ 32)).wellFormed = false ∧
      (HostAction.readOut (2 ^ 32 - 1)).wellFormed = true := by decide

/-! ## Decoding -/

/-- The words of the encoding column of R92, bit 31 first. -/
theorem test_decode_system_and_checksum_words :
    decode 0b00000000000000000000000000000000#32 = .ok .nop ∧
      decode 0b00000000000000000000000000000001#32 = .ok .srst ∧
      decode 0b00000000000000000000000000010000#32 = .ok .crcInit ∧
      decode 0b00000000000000000100100100010001#32 = .ok (.crcByte 0x49) ∧
      decode 0b00000000000000000000000000011000#32 = .ok .adlInit ∧
      decode 0b00000000000000001000000000011001#32 = .ok (.adlByte 0x80) := ⟨rfl, rfl, rfl, rfl, rfl, rfl⟩

theorem test_decode_framing_words :
    decode 0b00000000000000000000000000100000#32 = .ok .outClr ∧
      decode 0b00000000000000000000000000100001#32 = .ok .pngSig ∧
      decode 0b00000000000000000000000000100010#32 = .ok .pngIhdr ∧
      decode 0b00000000000000000000000000100011#32 = .ok .pngScan ∧
      decode 0b00000000000000000000000000100100#32 = .ok .pngZcomp ∧
      decode 0b00000000000000000000000000100101#32 = .ok .pngIdat ∧
      decode 0b00000000000000000000000000100110#32 = .ok .pngIend ∧
      decode 0b00000000000000000000000000101111#32 = .ok .pngEncode :=
  ⟨rfl, rfl, rfl, rfl, rfl, rfl, rfl, rfl⟩

/-- R93's examples and the edges of its opcode ranges. -/
theorem test_decode_illegal_words :
    decode 0x00000100 = .error .immediateNotZero ∧
      decode 0x00010011 = .error .zeroFieldNotZero ∧
      decode 0x80000000 = .error .zeroFieldNotZero ∧
      decode 0x00000002 = .error .opcodeUnassigned ∧
      decode 0x00000027 = .error .opcodeUnassigned ∧
      decode 0x000000FF = .error .opcodeUnassigned ∧
      decode 0x0000012F = .error .immediateNotZero ∧
      decode 0x0000FF11 = .ok (.crcByte 0xFF) := ⟨rfl, rfl, rfl, rfl, rfl, rfl, rfl, rfl⟩

/-- R92: "Rows are disjoint". -/
theorem test_opcode_rows_disjoint :
    opcodeMap.Pairwise fun a b =>
      a.pattern &&& (a.mask &&& b.mask) ≠ b.pattern &&& (a.mask &&& b.mask) := by
  simp [opcodeMap]

/-- R92: fourteen commands, each with an arm. -/
theorem test_opcode_mnemonics :
    opcodeMap.map (·.mnemonic) = ["NOP", "SRST", "CRC.INIT", "CRC.BYTE", "ADL.INIT", "ADL.BYTE",
      "OUT.CLR", "PNG.SIG", "PNG.IHDR", "PNG.SCAN", "PNG.ZCOMP", "PNG.IDAT", "PNG.IEND",
      "PNG.ENCODE"] := by decide

theorem test_table_word_decodes :
    decodeTableWord 32 0x4911 = some (.crcByte 0x49) ∧ decodeTableWord 32 0x2F = some .pngEncode ∧
      decodeTableWord 32 0x100 = none ∧ decodeTableWord 40 0x100000011 = none := by decide

/-- The next step after reset runs exactly the word: V-ERR-3, and R93's illegal `NOP`. -/
theorem test_fetch_word_runs :
    status (step (State.reset.withFetchWord 32 0x2F)) = 0x00000312 ∧
      status (step (State.reset.withFetchWord 32 0x00)) = 0x00000002 ∧
      status (step (State.reset.withFetchWord 32 0x100)) = 0x00000042 := by decide +kernel

/-! ## The system commands -/

/-- R280's example. -/
theorem test_nop : status (runWord 0x00000000 State.reset) = 0x00000002 := by decide +kernel

/-- R281's example, after a failed `PNG.ENCODE` with zero width. -/
theorem test_srst_after_failure :
    let failed := after (runWord 0x0000002F { State.reset with height := 7 })
    let t := after (runWord 0x00000001 failed)
    readRegister 0x04 failed = 0x00000312 ∧ readRegister 0x04 t = 0 ∧ readRegister 0x0C t = 0 ∧
      readRegister 0x20 t = 0 ∧ readRegister 0x24 t = 1 ∧ readRegister 0x28 t = 0 := by decide +kernel

/-- R281: bytes of `PIX` stay written. -/
theorem test_srst_keeps_pixels :
    (after (runWord 0x00000001 (black .stored))).pix = (black .stored).pix := by decide +kernel

/-! ## The checksum units -/

/-- R155's example. -/
theorem test_crc_init :
    readRegister 0x20 (after (exec .crcInit { State.reset with crc := 0x12345678 })) = 0 := by
  decide +kernel

/-- V-CRC-S7 and V-CRC-S5. -/
theorem test_crc_byte :
    (after (exec (.crcByte 0x49) State.reset)).crc = 0x22FDE946 ∧
      (after (exec (.crcByte 0x00) State.reset)).crc = 0x2DFD1072 := by decide +kernel

/-- V-CRC-6, the check value of R150; V-CRC-3; V-CRC-9. -/
theorem test_crc32_vectors :
    crc32 [0x31, 0x32, 0x33, 0x34, 0x35, 0x36, 0x37, 0x38, 0x39] = 0xCBF43926 ∧
      crc32 [0xFF] = 0xFF000000 ∧ crc32 typeIdat = 0x35AF061E := by decide +kernel

theorem test_adl_init :
    readRegister 0x24 (after (exec .adlInit { State.reset with ada := 9, adb := 9 })) = 1 := by
  decide +kernel

/-- V-ADL-4, and the step from V-ADL-9 to V-ADL-10, where the first reduction of `a` happens. -/
theorem test_adl_byte :
    readRegister 0x24 (after (exec (.adlByte 0x61) State.reset)) = 0x00620062 ∧
      readRegister 0x24 (after (exec (.adlByte 0xFF)
        { State.reset with ada := 0xFF01, adb := 0x0800 })) = 0x080F000F := by decide +kernel

/-- V-ADL-6 and V-ADL-17. -/
theorem test_adler32_vectors :
    adler32 [0x31, 0x32, 0x33, 0x34, 0x35, 0x36, 0x37, 0x38, 0x39] = 0x091E01DE ∧
      adler32 scenario1Scan = 0x1FEE05FB := by decide +kernel

/-! ## The framer -/

/-- R241's example. -/
theorem test_out_clr :
    readRegister 0x14 (after (exec .outClr { State.reset with outLen := 67 })) = 0 := by
  decide +kernel

/-- R242's example. -/
theorem test_png_sig :
    outData (after (exec .pngSig State.reset)) =
      some [0x89, 0x50, 0x4E, 0x47, 0x0D, 0x0A, 0x1A, 0x0A] := by decide +kernel

/-- R242: a full `OUT` raises code 3 in phase 1. -/
theorem test_png_sig_full :
    status (exec .pngSig { tiny .stored with outLen := 65 }) = 0x00000132 := by decide +kernel

/-- R243's example. -/
theorem test_png_ihdr :
    outData (after (exec .pngIhdr (scenario1 (wideCfg .fixedLz)))) =
      some [0x00, 0x00, 0x00, 0x0D, 0x49, 0x48, 0x44, 0x52, 0x00, 0x00, 0x00, 0x02, 0x00, 0x00, 0x00,
        0x02, 0x08, 0x02, 0x00, 0x00, 0x00, 0xFD, 0xD4, 0x9A, 0x73] := by decide +kernel

/-- R243: zero dimensions raise code 1 in phase 2. -/
theorem test_png_ihdr_zero : status (exec .pngIhdr State.reset) = 0x00000212 := by decide +kernel

/-- R244's example. -/
theorem test_png_scan :
    let t := after (exec .pngScan (scenario1 (wideCfg .fixedLz)))
    t.scan.readWritten 0 14 = some scenario1Scan ∧ readRegister 0x18 t = 14 := by decide +kernel

/-- R248's corner case: the product does not wrap at 32 bits. -/
theorem test_png_scan_no_wrap :
    status (exec .pngScan { State.reset with width := 65536, height := 65536 }) = 0x00000322 := by
  decide +kernel

/-- R205's example. -/
theorem test_png_zcomp :
    let t := after (exec .pngZcomp { State.reset with
      scan := Memory.cells 0 [0, 0, 0, 0], scanLen := 4 })
    t.zbuf.readWritten 0 10 = some [0x78, 0xDA, 0x63, 0x00, 0x02, 0x00, 0x00, 0x04, 0x00, 0x01] ∧
      readRegister 0x1C t = 10 ∧ readRegister 0x24 t = 0x00040001 := by decide +kernel

/-- R205, corner case, with V-Z-41: an empty scanline buffer under `STORED`. -/
theorem test_png_zcomp_empty :
    (after (exec .pngZcomp (tiny .stored))).zbuf.readWritten 0 11 =
      some [0x78, 0xDA, 0x01, 0x00, 0x00, 0xFF, 0xFF, 0x00, 0x00, 0x00, 0x01] := by decide +kernel

/-- R245's example. -/
theorem test_png_idat :
    outData (after (exec .pngIdat { State.reset with
      zbuf := Memory.cells 0 [0x78, 0xDA, 0x63, 0x00, 0x02, 0x00, 0x00, 0x04, 0x00, 0x01],
      zLen := 10 })) =
      some [0x00, 0x00, 0x00, 0x0A, 0x49, 0x44, 0x41, 0x54, 0x78, 0xDA, 0x63, 0x00, 0x02, 0x00, 0x00,
        0x04, 0x00, 0x01, 0x27, 0xD4, 0x4F, 0xA0] := by decide +kernel

/-- R245, corner case: with `Z_LEN = 0`. -/
theorem test_png_idat_empty :
    outData (after (exec .pngIdat State.reset)) =
      some [0x00, 0x00, 0x00, 0x00, 0x49, 0x44, 0x41, 0x54, 0x35, 0xAF, 0x06, 0x1E] := by
  decide +kernel

/-- R246's example: the chunk goes where `OUT_LEN` stands. -/
theorem test_png_iend :
    let t := after (exec .pngIend { State.reset with outLen := 55 })
    t.out.readWritten 55 12 =
      some [0x00, 0x00, 0x00, 0x00, 0x49, 0x45, 0x4E, 0x44, 0xAE, 0x42, 0x60, 0x82] ∧
      readRegister 0x14 t = 67 ∧ readRegister 0x04 t = 2 := by decide +kernel

/-- V-PNG-4, DOC's Scenario 1: all 74 bytes. -/
theorem test_png_encode_scenario1 :
    outData (after (exec .pngEncode (scenario1 (wideCfg .fixedLz)))) =
      some ([0x89, 0x50, 0x4E, 0x47, 0x0D, 0x0A, 0x1A, 0x0A] ++
        [0x00, 0x00, 0x00, 0x0D, 0x49, 0x48, 0x44, 0x52, 0x00, 0x00, 0x00, 0x02, 0x00, 0x00, 0x00,
          0x02, 0x08, 0x02, 0x00, 0x00, 0x00, 0xFD, 0xD4, 0x9A, 0x73] ++
        [0x00, 0x00, 0x00, 0x11, 0x49, 0x44, 0x41, 0x54, 0x78, 0xDA, 0x63, 0xF8, 0xCF, 0xC0, 0x00,
          0xC6, 0x0C, 0xFF, 0x81, 0x00, 0x00, 0x1F, 0xEE, 0x05, 0xFB, 0x97, 0x93, 0x1B, 0xF0] ++
        [0x00, 0x00, 0x00, 0x00, 0x49, 0x45, 0x4E, 0x44, 0xAE, 0x42, 0x60, 0x82]) := by
  decide +kernel

/-- V-ERR-12: the IEND chunk does not fit; `CRC_VAL` is the IDAT chunk's. -/
theorem test_png_encode_out_full :
    let t := after (runWord 0x2F (scenario1 { wideCfg .fixedLz with outCap := 72 }))
    readRegister 0x04 t = 0x00000632 ∧ readRegister 0x20 t = 0x97931BF0 ∧
      readRegister 0x24 t = 0x1FEE05FB ∧ readRegister 0x14 t = 0 := by decide +kernel

/-! ## The compressor and the reference decoder -/

/-- V-Z-9 (an overlapping match), V-Z-20 (a tie keeps the smaller distance), V-Z-21 (length beats
distance). -/
theorem test_tokens :
    tokens [0x61, 0x61, 0x61, 0x61] = [.lit 0x61, .copy 3 1] ∧
      tokens [0x61, 0x62, 0x63, 0x58, 0x61, 0x62, 0x63, 0x59, 0x61, 0x62, 0x63] =
        [.lit 0x61, .lit 0x62, .lit 0x63, .lit 0x58, .copy 3 4, .lit 0x59, .copy 3 4] ∧
      tokens [0x61, 0x62, 0x63, 0x64, 0x58, 0x61, 0x62, 0x63, 0x59, 0x61, 0x62, 0x63, 0x64] =
        [.lit 0x61, .lit 0x62, .lit 0x63, .lit 0x64, .lit 0x58, .copy 3 5, .lit 0x59, .copy 4 9] := by
  decide +kernel

/-- V-Z-12, which R216 derives bit by bit; V-Z-4 and V-Z-5, the edge between 8 and 9 bit codes. -/
theorem test_deflate_fixed :
    deflateFixedLz scenario1Scan =
        [0x63, 0xF8, 0xCF, 0xC0, 0x00, 0xC6, 0x0C, 0xFF, 0x81, 0x00, 0x00] ∧
      deflateFixedLz [0x8F] = [0xEB, 0x07, 0x00] ∧ deflateFixedLz [0x90] = [0x9B, 0x00, 0x00] := by
  decide +kernel

/-- The examples of R198. -/
theorem test_symbols :
    lenSym 12 = { symbol := 265, extra := 1, extraBits := 1 } ∧
      lenSym 257 = { symbol := 284, extra := 30, extraBits := 5 } ∧
      lenSym 258 = { symbol := 285, extra := 0, extraBits := 0 } ∧
      distSym 251 = { symbol := 15, extra := 58, extraBits := 6 } ∧
      distSym 32768 = { symbol := 29, extra := 8191, extraBits := 13 } := by decide +kernel

/-- V-INF-8: a dynamic block. V-INF-7: a stored block, then a fixed one. -/
theorem test_zlib_decode :
    zlibDecode [0x78, 0xDA, 0x05, 0xC1, 0x01, 0x01, 0x00, 0x00, 0x00, 0x82, 0xA0, 0xAD, 0xA9, 0xFF,
        0x37, 0x04, 0x09, 0xA2, 0x65, 0x38, 0x19, 0x1D, 0x51, 0x2D, 0x07, 0xB8] =
      some [0x64, 0x63, 0x62, 0x62, 0x63, 0x62, 0x63, 0x63, 0x64, 0x64, 0x63, 0x64, 0x62, 0x63, 0x61,
        0x63, 0x62, 0x61, 0x62, 0x64] ∧
      zlibDecode [0x78, 0xDA, 0x00, 0x00, 0x00, 0xFF, 0xFF, 0x03, 0x00, 0x00, 0x00, 0x00, 0x01] =
        some [] := by decide +kernel

/-- R259: the output parses to the image. -/
theorem test_png_parse :
    ((outData (after (exec .pngEncode (scenario1 (wideCfg .stored))))).bind pngParse) =
      some { width := 2, height := 2, pixels := scenario1Pixels } := by decide +kernel

/-! ## The host's steps -/

/-- R284: a write while busy is lost; R32: `LAST_CMD` keeps the first word. -/
theorem test_busy_ignores_writes :
    let s := writeRegister 0x00 0x00000010 State.reset
    writeRegister 0x00 0x00000001 s = s ∧ writeRegister 0x08 5 s = s ∧ writePix 0 1 s = s := by
  decide +kernel

/-- R65, R66, at the edges of the ranges. -/
theorem test_memory_ports :
    (writePix 2 0xAB (tiny .stored)).pix = [(2, 0xAB)] ∧
      writePix 3 0xAB (tiny .stored) = tiny .stored ∧
      readOut 0 { State.reset with out := [(0, 0x89)], outLen := 1 } = 0x89 := by decide +kernel

/-- R320: a hardware reset ends a command in flight without trace. -/
theorem test_hardware_reset :
    let t := after (step { writeRegister 0x00 0x2F (black .stored) with turns := [.hardwareReset] })
    readRegister 0x04 t = 0 ∧ readRegister 0x28 t = 0 ∧ t.pix = [] := by decide +kernel

/-! ## States that meet the hypotheses of the obligations -/

/-- A state with an error, as a failed `PNG.ENCODE` leaves it. -/
def failed : State := after (runWord 0x2F (tiny .stored))

/-- The first turn of `s` is `t`. -/
def nextTurn (t : Turn) (s : State) : State := { s with turns := [t] }

/-- A two by three image whose `STORED` stream has 32 bytes. -/
def sixPixels (c : Config) : State :=
  { State.reset with
    cfg := c, width := 2, height := 3, pixLen := 18, pix := Memory.cells 0 (List.replicate 18 0xC4) }

/-- Its scanline buffer. -/
def sixPixelsScan : Bytes :=
  (0x00 :: List.replicate 6 0xC4) ++ (0x00 :: List.replicate 6 0xC4) ++ (0x00 :: List.replicate 6 0xC4)

/-- `DecodeEncodeInverse`, second clause: a word that decodes, at the largest immediate. -/
theorem witness_DecodeEncodeInverse :
    Instr.wellFormed (.crcByte 0xFF) = true ∧ decode 0x0000FF11 = .ok (.crcByte 0xFF) := ⟨rfl, rfl⟩

/-- `IllegalWordsRaiseIllegalCommand` and the illegal clause of `StepRunsDecodedCommand`, one word for each class of R93. -/
theorem witness_IllegalWordsRaiseIllegalCommand :
    (issued 0x00010011 State.reset).turns.head? = some .engine ∧
      (issued 0x00010011 State.reset).busy = true ∧
      decode (issued 0x00010011 State.reset).lastCmd = .error .zeroFieldNotZero ∧
      decode (issued 0x00000030 State.reset).lastCmd = .error .opcodeUnassigned ∧
      decode (issued 0x00000100 State.reset).lastCmd = .error .immediateNotZero :=
  ⟨rfl, rfl, rfl, rfl, rfl⟩

/-- `StepRunsDecodedCommand`, each clause. -/
theorem witness_StepRunsDecodedCommand :
    ((issued 0x2F State.reset).EnginesTurn ∧ (issued 0x2F State.reset).busy = true ∧
      decode (issued 0x2F State.reset).lastCmd = .ok .pngEncode) ∧
    (State.reset.EnginesTurn ∧ State.reset.busy = false) ∧
    (nextTurn (.host (.readRegister 0x04)) State.reset).turns.head? =
      some (.host (.readRegister 0x04)) ∧
    (nextTurn .hardwareReset State.reset).turns.head? = some .hardwareReset :=
  ⟨⟨.inr rfl, rfl, rfl⟩, ⟨.inl rfl, rfl⟩, rfl, rfl⟩

/-- `PerformedCommandsAreDone`, `CommandsKeepInputs`. -/
theorem witness_PerformedCommandsAreDone :
    (∃ t, exec .nop State.reset = .next t) ∧ (∃ t, exec .srst State.reset = .next t) ∧
      ∃ t, step State.reset = .next t := ⟨⟨_, rfl⟩, ⟨_, rfl⟩, ⟨_, rfl⟩⟩

/-- `OnlyUnwrittenPixelsStop`, `NeverWrittenPixelsFault`, `ScanBuildsScanlineBuffer`: an accepted image with one byte missing. -/
theorem witness_OnlyUnwrittenPixelsStop :
    let s : State := { black .stored with pix := [(0, 0x00), (1, 0x00)] }
    exec .pngScan s = .fault .pixNeverWritten ∧ exec .pngEncode s = .fault .pixNeverWritten ∧
      s.cfg.wellFormed = true ∧ s.ImageAccepted ∧ 2 < s.pixLen.toNat ∧ s.pix.read 2 = none := by
  refine ⟨rfl, rfl, ?_⟩
  unfold State.ImageAccepted
  decide +kernel

/-- `SigAppendsSignature`, `IhdrAppendsHeaderChunk`, `IdatAppendsWholeStream`,
`IendAppendsConstantChunk`: each where the appended bytes just fit. -/
theorem witness_appends :
    (tiny .stored).cfg.wellFormed = true ∧
      ({ tiny .stored with outLen := 64 } : State).outLen.toNat + 8 ≤ (tiny .stored).cfg.outCap ∧
      ((black .stored).width ≠ 0 ∧ (black .stored).height ≠ 0) ∧
      ({ black .stored with outLen := 47 } : State).outLen.toNat + 25 ≤ (tiny .stored).cfg.outCap ∧
      ({ tiny .stored with outLen := 60 } : State).outLen.toNat + 12 + 0 ≤
        (tiny .stored).cfg.outCap := by decide

/-- `ScanBuildsScanlineBuffer`: the smallest image in the smallest instance, and one that `Validate`
rejects. -/
theorem witness_ScanBuildsScanlineBuffer :
    (black .stored).cfg.wellFormed = true ∧ (black .stored).ImageAccepted ∧
      (black .stored).PixWritten ∧ ¬({ black .stored with pixLen := 2 } : State).ImageAccepted := by
  unfold State.ImageAccepted State.PixWritten
  decide +kernel

/-- `ZcompCompressesScan`: a stream of exactly `Z_CAP` bytes. -/
theorem witness_ZcompCompressesScan :
    let s := { tiny .stored with scan := Memory.cells 0 [0, 0, 0, 0], scanLen := 4 }
    s.cfg.wellFormed = true ∧ (0 < s.scanLen.toNat ∧ s.scan.read 0 = some 0) ∧
      (zStream s.cfg.compMode (scanData s)).length = s.cfg.zCap := by decide +kernel

/-- The premises of R258 (`EncodeEmitsPngStream`, `EncodeLengths`, `EncodeSuccessRegisters`,
`OutputChunkCrcsDetectDamage`, `IhdrRoundTrip`, `EncoderIsCorrect`), `STORED`, where the stream and
the output just fit. -/
theorem witness_CanEncode_stored :
    (black .stored).Ready ∧ (black .stored).CanEncode [0x00, 0x00, 0x00, 0x00] ∧
      (black .stored).cfg.compMode = .stored ∧
      zlibDecode (zStream .stored [0x00, 0x00, 0x00, 0x00]) = some [0x00, 0x00, 0x00, 0x00] := by
  refine ⟨⟨rfl, rfl⟩, ⟨by decide, ?_, ?_, ?_, ?_, ?_⟩, rfl, ?_⟩
  · unfold State.ImageAccepted; decide +kernel
  · unfold State.PixWritten; decide +kernel
  · unfold State.IsScan; decide +kernel
  · decide +kernel
  · decide +kernel
  · decide +kernel

/-- The same under `FIXED_LZ`, DOC's Scenario 1. -/
theorem witness_CanEncode_fixedLz :
    (scenario1 (wideCfg .fixedLz)).Ready ∧ (scenario1 (wideCfg .fixedLz)).CanEncode scenario1Scan ∧
      (scenario1 (wideCfg .fixedLz)).cfg.compMode = .fixedLz ∧
      zlibDecode (zStream .fixedLz scenario1Scan) = some scenario1Scan := by
  refine ⟨⟨rfl, rfl⟩, ⟨by decide, ?_, ?_, ?_, ?_, ?_⟩, rfl, ?_⟩
  · unfold State.ImageAccepted; decide +kernel
  · unfold State.PixWritten; decide +kernel
  · unfold State.IsScan; decide +kernel
  · decide +kernel
  · decide +kernel
  · decide +kernel

/-- `OutputChunkCrcsDetectDamage`: the last bit of the last byte of the IDAT chunk's CRC. -/
theorem witness_OutputChunkCrcsDetectDamage :
    let n := (zStream .stored [0x00, 0x00, 0x00, 0x00]).length
    (33, n) ∈ [(8, 13), (33, n), (45 + n, 0)] ∧ 4 + n + 3 < 4 + n + 4 ∧ 7 < 8 := by decide +kernel

/-- `EncoderIsCorrect`, second clause, at each error: zero dimensions, a size mismatch, a stream one
byte too long for `OUT`. -/
theorem witness_EncoderIsCorrect_failing :
    let z := tiny .stored
    let m := { black .stored with pixLen := 2 }
    let o := scenario1 { wideCfg .fixedLz with outCap := 73 }
    (z.Ready ∧ z.cfg.wellFormed = true ∧ z.PixWritten ∧ z.IsScan [] ∧ ¬z.CanEncode []) ∧
    (m.Ready ∧ m.cfg.wellFormed = true ∧ m.PixWritten ∧ m.IsScan [0, 0, 0, 0] ∧
      ¬m.CanEncode [0, 0, 0, 0]) ∧
    (o.Ready ∧ o.cfg.wellFormed = true ∧ o.PixWritten ∧ o.IsScan scenario1Scan ∧
      ¬o.CanEncode scenario1Scan) := by
  refine ⟨⟨⟨rfl, rfl⟩, by decide, ?_, ?_, fun h => ?_⟩,
    ⟨⟨rfl, rfl⟩, by decide, ?_, ?_, fun h => ?_⟩, ⟨rfl, rfl⟩, by decide, ?_, ?_, fun h => ?_⟩
  · unfold State.PixWritten; decide +kernel
  · unfold State.IsScan; decide +kernel
  · exact h.accepted.1 rfl
  · unfold State.PixWritten; decide +kernel
  · unfold State.IsScan; decide +kernel
  · exact absurd h.accepted.2.2.1 (by decide)
  · unfold State.PixWritten; decide +kernel
  · unfold State.IsScan; decide +kernel
  · exact absurd h.outFits (by decide +kernel)

/-- `ValidateChecksInOrder`: a state for each clause, at the edge (V-ERR-1, V-ERR-5, V-ERR-9,
V-ERR-10 and an image that fits exactly). -/
theorem witness_ValidateChecksInOrder :
    status (exec .pngScan { State.reset with height := 1 }) = 0x00000312 ∧
      status (exec .pngScan { scenario1 (wideCfg .stored) with pixLen := 11 }) = 0x00000322 ∧
      status (exec .pngScan (scenario1 { wideCfg .stored with pixCap := 11 })) = 0x00000332 ∧
      status (exec .pngScan (scenario1 { wideCfg .stored with scanCap := 13 })) = 0x00000332 ∧
      status (exec .pngScan (scenario1 { wideCfg .stored with pixCap := 12, scanCap := 14 })) =
        0x00000002 := by decide +kernel

/-- The trap clauses of `SigAppendsSignature`, `IhdrAppendsHeaderChunk`, `IdatAppendsWholeStream`,
`IendAppendsConstantChunk` and `ZcompCompressesScan`: one byte over the capacity. -/
theorem witness_traps :
    (tiny .stored).cfg.outCap < ({ tiny .stored with outLen := 65 } : State).outLen.toNat + 8 ∧
      State.reset.width = 0 ∧
      (tiny .stored).cfg.outCap < ({ black .stored with outLen := 48 } : State).outLen.toNat + 25 ∧
      (tiny .stored).cfg.outCap < ({ tiny .stored with outLen := 61 } : State).outLen.toNat + 12 + 0 ∧
      (let s := { tiny .stored with scan := Memory.cells 0 [0, 0, 0, 0, 0], scanLen := 5 }
       s.cfg.zCap + 1 = (zStream s.cfg.compMode (scanData s)).length) := by decide +kernel

/-- `RaiseLeavesExactly`: a failing step command, `PNG.ZCOMP`, and `PNG.ENCODE` in its four phases. -/
theorem witness_RaiseLeavesExactly :
    ((tiny .stored).cfg.wellFormed = true ∧ (tiny .stored).err = none) ∧
      status (exec .pngIend { tiny .stored with outLen := 61 }) = 0x00000632 ∧
      status (exec .pngZcomp { tiny .stored with
        scan := Memory.cells 0 [0, 0, 0, 0, 0], scanLen := 5 }) = 0x00000432 ∧
      status (exec .pngEncode (tiny .stored)) = 0x00000312 ∧
      status (exec .pngEncode (scenario1 { wideCfg .fixedLz with zCap := 16 })) = 0x00000432 ∧
      status (exec .pngEncode (sixPixels { wideCfg .stored with outCap := 76 })) = 0x00000532 ∧
      status (exec .pngEncode (scenario1 { wideCfg .fixedLz with outCap := 73 })) = 0x00000632 ∧
      ∃ x, decode (issued 0x100 State.reset).lastCmd = .error x := by
  refine ⟨?_, ?_, ?_, ?_, ?_, ?_, ?_, ⟨_, rfl⟩⟩ <;> decide +kernel

/-- All of `EncodeFailureRegisters`' hypotheses, with the phase in which `PNG.ENCODE` fails. -/
def FailsIn (s : State) (scan : Bytes) (p : Phase) : Prop :=
  s.Ready ∧ s.cfg.wellFormed = true ∧ s.IsScan scan ∧
    (after (runWord 0x2F s)).err ≠ none ∧ (after (runWord 0x2F s)).phase = p

/-- `EncodeFailureRegisters`, `EncodeEqualsStepCommands`: `PNG.ENCODE` fails in each phase. -/
theorem witness_EncodeFailureRegisters :
    FailsIn (tiny .stored) [] .scan ∧
      FailsIn (scenario1 { wideCfg .fixedLz with zCap := 16 }) scenario1Scan .zcomp ∧
      FailsIn (sixPixels { wideCfg .stored with outCap := 76 }) sixPixelsScan .idat ∧
      FailsIn (scenario1 { wideCfg .fixedLz with outCap := 73 }) scenario1Scan .iend := by
  unfold FailsIn State.IsScan State.Ready
  decide +kernel

/-- `ErrChangesOnlyByFailureOrReset`, `FirstErrorStands`: an error appears at a failing command, and
goes by `SRST` and by a hardware reset. -/
theorem witness_ErrChangesOnlyByFailureOrReset :
    (after (step (issued 0x100 State.reset))).err = some .illegalCommand ∧
      failed.err = some .unsupportedDimensions ∧ failed.busy = false ∧
      (writeRegister 0x00 0x00000001 failed).busy = true ∧
      (after (step (writeRegister 0x00 0x00000001 failed))).err = none ∧
      (after (step (nextTurn .hardwareReset failed))).err = none := by decide +kernel

/-- The invariant (`EveryStepKeepsInvariant`, `FirstErrorStands`) holds in a state with an error and a
written image. -/
theorem witness_Inv : ({ black .stored with done := true, err := some .illegalCommand } : State).Inv :=
  { config := by decide
    busyDone := by decide
    errState := fun _ => .inl ⟨rfl, rfl⟩
    phaseIdle := fun h => nomatch h
    sums := by decide
    bits := ⟨rfl, rfl⟩
    lengths := by decide
    canonical := by decide
    bounded := by decide
    filled := by decide }

/-- `NeverWrittenPixelsFault`, the clauses on writes and steps. -/
theorem witness_NeverWrittenPixelsFault :
    let s := nextTurn (.host (.writePix 2 0xAB)) (tiny .stored)
    (s.busy = false ∧ 2 < s.cfg.pixCap) ∧ s.pix.read 2 = none ∧
      (after (step s)).pix.read 2 = some 0xAB ∧ s.turns.head? ≠ some .hardwareReset := by
  decide +kernel

/-- `CommandWriteIssues`, `ErrorRefusesAllButSrst`: each of R282's three cases. -/
theorem witness_CommandWriteIssues :
    (writeRegister 0x00 0x10 State.reset).busy = true ∧
      (failed.busy = false ∧ failed.err ≠ none ∧ (0x00000000 : Word) ≠ 0x00000001) ∧
      (State.reset.busy = false ∧ State.reset.err = none) ∧ 2 < failed.cfg.pixCap := by decide +kernel

/-- `BusyEngineIgnoresHost`. -/
theorem witness_BusyEngineIgnoresHost : (issued 0x2F (black .stored)).busy = true := rfl

/-- `RegisterAccessTable`, `ReadsHaveNoSideEffect`: the edges of the offset ranges. -/
theorem witness_RegisterAccessTable :
    readRegister 0x28 { State.reset with lastCmd := 0x2F } = 0x2F ∧
      readRegister 0x2C State.reset = 0 ∧ readRegister 0x3C State.reset = 0 ∧
      writeRegister 0x10 7 State.reset = { State.reset with pixLen := 7 } ∧
      writeRegister 0x14 7 State.reset = State.reset ∧
      writeRegister 0x04 7 State.reset = State.reset := by decide +kernel

/-- `WritePixWritesOneByte`, `ReadOutGivesOutputByte`: the last index inside and the first outside. -/
theorem witness_ports :
    (2 < (tiny .stored).cfg.pixCap ∧ (tiny .stored).cfg.pixCap ≤ 3) ∧
      (let s := { tiny .stored with out := [(0, 0x89)], outLen := 1 }
       0 < s.outLen.toNat ∧ s.out.read 0 = some 0x89 ∧ s.outLen.toNat ≤ 1) := by decide

/-- `HardwareResetIsTotal`, `HardwareResetKeepsModelFields`: while busy. -/
theorem witness_HardwareResetIsTotal :
    (nextTurn .hardwareReset (issued 0x2F (black .stored))).turns.head? = some .hardwareReset ∧
      (nextTurn .hardwareReset (issued 0x2F (black .stored))).busy = true := ⟨rfl, rfl⟩

/-- `MessagePseudoInstructions`, on the empty message too; `SystemCommandResults` and
`ChecksumCommandResults` need the same ready state, a busy state and `failed`. -/
theorem witness_MessagePseudoInstructions :
    State.reset.Ready ∧ crcMessage [] = [0x00000010] ∧
      crcMessage [0x49, 0x45] = [0x00000010, 0x00004911, 0x00004511] ∧
      adlMessage [0x61] = [0x00000018, 0x00006119] := ⟨⟨rfl, rfl⟩, by decide, by decide, by decide⟩

/-- `CrcTableFormAgrees`, first and last entry; `CrcDetectsOneChangedByte`: a chunk with its first and
last bit; `BitsArePackedLowBitFirst`. -/
theorem witness_checksum_ranges :
    (crcTable[0]? = some 0 ∧ crcTable[255]? = some 0x2D02EF8D ∧ crcTable.length = 256) ∧
      ((0x00 : Byte) ≠ 0xFF ∧ typeIdat.length = 4 ∧
        flipBit typeIdat 0 0 = [0x48, 0x44, 0x41, 0x54] ∧ 7 < 8 ∧ 7 < 4 + 0 + 4) ∧
      (fieldBits 6 3 = [false, true, true] ∧ codeBits 6 3 = [true, true, false]) := by decide +kernel

/-- `LongestMatchIsLongestNearest`, `TokensStandForTheirInput`: V-Z-22, a match that overlaps. -/
theorem witness_LongestMatchIsLongestNearest :
    let s : Bytes := [0x61, 0x62, 0x61, 0x62, 0x61, 0x62]
    2 < s.length ∧ longestMatch s 2 = (4, 2) ∧ longestMatch s 0 = (0, 0) ∧
      (∀ k < 4, s[2 + k]? = s[2 - 2 + k]?) ∧ Token.copy 4 2 ∈ tokens s := by decide +kernel

/-- `SymbolsInvertByBaseAndExtra`: both ends of both ranges. -/
theorem witness_SymbolsInvertByBaseAndExtra :
    lenSym 3 = { symbol := 257, extra := 0, extraBits := 0 } ∧
      lenSym 258 = { symbol := 285, extra := 0, extraBits := 0 } ∧
      distSym 1 = { symbol := 0, extra := 0, extraBits := 0 } ∧
      distSym 32768 = { symbol := 29, extra := 8191, extraBits := 13 } := by decide +kernel

/-- `AdlerClosedForm`, last clause; `CompressedSizeBounds`, last clause: the bound for four bytes is
13. -/
theorem witness_compressor_bounds :
    CompMode.stored ≠ .other ∧ (tiny .fixedLz).cfg.compMode = .fixedLz ∧
      (tiny .fixedLz).scanLen.toNat ≤ (tiny .fixedLz).cfg.scanCap ∧
      6 + (10 + 9 * (tiny .fixedLz).cfg.scanCap + 7) / 8 ≤ (tiny .fixedLz).cfg.zCap := by decide

/-- `EncodeEqualsStepCommands`, where `PNG.ENCODE` succeeds, from a state with leftovers. -/
theorem witness_EncodeEqualsStepCommands :
    let s := { black .stored with crc := 5, ada := 6, out := [(0, 0x77)], outLen := 1 }
    s.Ready ∧ s.cfg.wellFormed = true ∧ (after (runWord 0x2F s)).err = none ∧
      (after (runWord 0x2F s)).done = true := by
  unfold State.Ready
  decide +kernel

/-- `EncodeDependsOnImageAlone`: two states with one image and different leftovers. -/
theorem witness_EncodeDependsOnImageAlone :
    let s := black .stored
    let u := { black .stored with crc := 5, ada := 6, out := [(0, 0x77)], outLen := 1 }
    s.Ready ∧ u.Ready ∧ s.cfg.wellFormed = true ∧ s.SameImage u ∧ s ≠ u := by
  unfold State.Ready State.SameImage
  decide +kernel

end Sys2Proof.Tests
end

section
/-! SUPPORT. What no command but `SRST` writes (20_memory.md R75, for `PIX`): each step of the
pseudocode keeps it, so every command does. `SRST` keeps `PIX` too. -/

namespace Sys2Proof.Machine

/-- The configuration, the host's registers and `PIX`, the command word, and the model's own fields. -/
structure Inputs where
  cfg : Config
  width : Word
  height : Word
  pixLen : Word
  lastCmd : Word
  pix : Memory
  turns : List Turn
  answers : List Answer
  draws : Nat

/-- The part of a state that no command but `SRST` writes (`exec_inputs`). -/
def State.inputs (s : State) : Inputs :=
  { cfg := s.cfg, width := s.width, height := s.height, pixLen := s.pixLen, lastCmd := s.lastCmd,
    pix := s.pix, turns := s.turns, answers := s.answers, draws := s.draws }

namespace State

variable (s : State)

@[simp] theorem inputs_setPhase (p : Phase) : (s.setPhase p).inputs = s.inputs := rfl
@[simp] theorem inputs_setCrc (c : Word) : (s.setCrc c).inputs = s.inputs := rfl
@[simp] theorem inputs_setAdler (ab : BitVec 16 × BitVec 16) :
    (s.setAdler ab).inputs = s.inputs := rfl
@[simp] theorem inputs_setScan (bs : Bytes) : (s.setScan bs).inputs = s.inputs := rfl
@[simp] theorem inputs_startZ (buf : BitVec 8) (cnt : BitVec 3) :
    (s.startZ buf cnt).inputs = s.inputs := rfl
@[simp] theorem inputs_setZ (z : Bytes) : (s.setZ z).inputs = s.inputs := rfl
@[simp] theorem inputs_clearOut : s.clearOut.inputs = s.inputs := rfl
@[simp] theorem inputs_putOut (bs : Bytes) : (s.putOut bs).inputs = s.inputs := rfl
@[simp] theorem inputs_clearLengths : s.clearLengths.inputs = s.inputs := rfl
@[simp] theorem inputs_complete : s.complete.inputs = s.inputs := rfl
@[simp] theorem inputs_raise (e : PngeError) : (s.raise e).inputs = s.inputs := rfl

end State

/-- The state a run has reached, if it has one, has the inputs `x`. -/
def Flow.HasInputs (x : Inputs) (f : Flow) : Prop := f.All fun t => t.inputs = x

namespace Flow

variable {x : Inputs}

@[simp] theorem hasInputs_go (s : State) : (go s).HasInputs x ↔ s.inputs = x := Iff.rfl

@[simp] theorem hasInputs_raised (e : PngeError) (s : State) :
    (raised e s).HasInputs x ↔ s.inputs = x := Iff.rfl

@[simp] theorem hasInputs_stuck (y : Fault) : (stuck y).HasInputs x := trivial

/-- A sequence keeps the inputs when each of its pieces does. -/
theorem hasInputs_andThen {f : Flow} {next : State → Flow} (hf : f.HasInputs x)
    (hn : ∀ s, (next s).HasInputs s.inputs) : (f.andThen next).HasInputs x :=
  all_andThen hf fun s hs => hs ▸ hn s

theorem inputs_finish {f : Flow} {t : State} (hf : f.HasInputs x) (h : f.finish = .next t) :
    t.inputs = x := by
  cases f with
  | go s => cases h; exact hf
  | raised e s => cases h; exact hf
  | stuck y => cases h

theorem inputs_finishEncode {f : Flow} {t : State} (hf : f.HasInputs x)
    (h : f.finishEncode = .next t) : t.inputs = x := by
  cases f with
  | go s => cases h; exact hf
  | raised e s => cases h; exact hf
  | stuck y => cases h

end Flow

theorem validate_hasInputs (s : State) : (validate s).HasInputs s.inputs := by
  rcases validate_cases s with ⟨_, h⟩ | ⟨_, h⟩ | ⟨_, _, h⟩ | ⟨_, _, _, h⟩ <;> simp [h]

theorem checkDimensions_hasInputs (s : State) : (checkDimensions s).HasInputs s.inputs := by
  rcases checkDimensions_cases s with ⟨_, h⟩ | ⟨_, h⟩ <;> simp [h]

theorem appendOut_hasInputs (bs : Bytes) (s : State) : (appendOut bs s).HasInputs s.inputs := by
  rcases appendOut_cases bs s with ⟨_, h⟩ | ⟨_, h⟩ <;> simp [h]

theorem emitChunk_hasInputs (type data : Bytes) (s : State) :
    (emitChunk type data s).HasInputs s.inputs := by
  rcases emitChunk_cases type data s with ⟨_, h⟩ | ⟨_, h⟩ <;> simp [h]

theorem buildScan_hasInputs (s : State) : (buildScan s).HasInputs s.inputs := by
  rcases buildScan_cases s with ⟨_, _, h⟩ | ⟨_, h⟩ <;> simp [h]

theorem zcompStep_hasInputs (s : State) : (zcompStep s).HasInputs s.inputs := by
  rcases zcompStep_cases s with ⟨_, h⟩ | ⟨_, h⟩ <;> simp [h]

theorem sigStep_hasInputs (s : State) : (sigStep s).HasInputs s.inputs :=
  appendOut_hasInputs pngSignature (s.setPhase .sig)

theorem ihdrStep_hasInputs (s : State) : (ihdrStep s).HasInputs s.inputs :=
  emitChunk_hasInputs typeIhdr (ihdrData s.width s.height) (s.setPhase .ihdr)

theorem scanStep_hasInputs (s : State) : (scanStep s).HasInputs s.inputs :=
  buildScan_hasInputs (s.setPhase .scan)

theorem idatStep_hasInputs (s : State) : (idatStep s).HasInputs s.inputs :=
  emitChunk_hasInputs typeIdat (zData s) (s.setPhase .idat)

theorem iendStep_hasInputs (s : State) : (iendStep s).HasInputs s.inputs :=
  emitChunk_hasInputs typeIend [] (s.setPhase .iend)

theorem encodeRun_hasInputs (s : State) : (encodeRun s).HasInputs s.inputs := by
  have h1 : (validate (s.clearLengths.setPhase .scan)).HasInputs s.inputs :=
    validate_hasInputs (s.clearLengths.setPhase .scan)
  have h2 := Flow.hasInputs_andThen h1 sigStep_hasInputs
  have h3 := Flow.hasInputs_andThen h2 ihdrStep_hasInputs
  have h4 := Flow.hasInputs_andThen h3 scanStep_hasInputs
  have h5 := Flow.hasInputs_andThen h4 zcompStep_hasInputs
  exact Flow.hasInputs_andThen (Flow.hasInputs_andThen h5 idatStep_hasInputs) iendStep_hasInputs

/-- No command but `SRST` writes an input. -/
theorem exec_inputs {i : Instr} {s t : State} (hi : i ≠ .srst) (h : exec i s = .next t) :
    t.inputs = s.inputs := by
  cases i with
  | srst => exact absurd rfl hi
  | nop => cases h; rfl
  | crcInit => cases h; rfl
  | crcByte imm8 => cases h; rfl
  | adlInit => cases h; rfl
  | adlByte imm8 => cases h; rfl
  | outClr => cases h; rfl
  | pngSig => exact Flow.inputs_finish (sigStep_hasInputs s) h
  | pngIhdr =>
    exact Flow.inputs_finish (Flow.hasInputs_andThen
      (checkDimensions_hasInputs (s.setPhase .ihdr)) ihdrStep_hasInputs) h
  | pngScan =>
    exact Flow.inputs_finish (Flow.hasInputs_andThen
      (validate_hasInputs (s.setPhase .scan)) scanStep_hasInputs) h
  | pngZcomp => exact Flow.inputs_finish (zcompStep_hasInputs s) h
  | pngIdat => exact Flow.inputs_finish (idatStep_hasInputs s) h
  | pngIend => exact Flow.inputs_finish (iendStep_hasInputs s) h
  | pngEncode => exact Flow.inputs_finishEncode (encodeRun_hasInputs s) h

/-- No command writes `PIX`: `SRST` "does not unwrite it" (R75). -/
theorem exec_pix {i : Instr} {s t : State} (h : exec i s = .next t) : t.pix = s.pix := by
  by_cases hi : i = .srst
  · subst hi; cases h; rfl
  · exact congrArg Inputs.pix (exec_inputs hi h)

theorem engineStep_pix {s t : State} (h : engineStep s = .next t) : t.pix = s.pix := by
  rcases engineStep_cases h with ⟨_, rfl⟩ | ⟨_, _, _, he⟩ | ⟨_, _, rfl⟩
  · rfl
  · exact exec_pix he
  · rfl

end Sys2Proof.Machine
end

section
/-! SUPPORT. The writes of `PIX`: `HostWritePix` (20_memory.md R65), and everything a step can do to
`PIX` (R75). -/

namespace Sys2Proof.Machine

namespace Memory

@[simp] theorem read_write_byte_same (m : Memory) (i : Nat) (b : Byte) :
    read (m.write i [b]) i = some b := read_write_inside m i [b] 0 Nat.one_pos

theorem read_write_byte_ne (m : Memory) {i a : Nat} (b : Byte) (h : a ≠ i) :
    read (m.write i [b]) a = read m a :=
  read_write_outside m i [b] a (by simp only [List.length_singleton]; omega)

/-- A byte write leaves no index unwritten that was written. -/
theorem read_write_byte_isSome {m : Memory} {a : Nat} (i : Nat) (b : Byte)
    (h : (read m a).isSome) : (read (m.write i [b]) a).isSome := by
  by_cases ha : a = i
  · subst ha; simp
  · rwa [read_write_byte_ne m b ha]

end Memory

theorem writePix_effective {s : State} {i : Nat} (b : Byte) (hb : s.busy = false)
    (hi : i < s.cfg.pixCap) : writePix i b s = { s with pix := s.pix.write i [b] } := by
  simp [writePix, hb, hi]

theorem writePix_ignored {s : State} {i : Nat} (b : Byte)
    (h : s.busy = true ∨ s.cfg.pixCap ≤ i) : writePix i b s = s := by
  rcases h with hb | hi
  · simp [writePix, hb]
  · simp [writePix, Nat.not_lt.2 hi]

@[simp] theorem hostStep_writePix (i : Nat) (b : Byte) (s : State) :
    hostStep (.writePix i b) s = writePix i b s := rfl

theorem issue_pix (w : Word) (s : State) : (issue w s).pix = s.pix := by
  unfold issue
  split <;> rfl

theorem writeRegister_pix (offset : Nat) (v : Word) (s : State) :
    (writeRegister offset v s).pix = s.pix := by
  unfold writeRegister
  split
  · rfl
  · split
    · exact issue_pix v s
    all_goals rfl

/-- Of the host's actions only an effective `HostWritePix` writes `PIX`. -/
theorem hostStep_pix_cases (a : HostAction) (s : State) :
    (hostStep a s).pix = s.pix ∨
    ∃ i b, a = .writePix i b ∧ s.busy = false ∧ i < s.cfg.pixCap ∧
      (hostStep a s).pix = s.pix.write i [b] := by
  cases a with
  | readRegister offset => exact .inl rfl
  | writeRegister offset v => exact .inl (writeRegister_pix offset v s)
  | readOut i => exact .inl rfl
  | writePix i b =>
    simp only [hostStep_writePix]
    by_cases h : s.busy = true ∨ s.cfg.pixCap ≤ i
    · exact .inl (by rw [writePix_ignored b h])
    · obtain ⟨hb, hi⟩ := not_or.1 h
      have hb : s.busy = false := Bool.eq_false_of_not_eq_true hb
      have hi : i < s.cfg.pixCap := Nat.not_le.1 hi
      exact .inr ⟨i, b, rfl, hb, hi, congrArg State.pix (writePix_effective b hb hi)⟩

/-- Everything a step can do to `PIX`: a hardware reset empties it, an effective `HostWritePix`
writes one byte, and every other step keeps it. -/
theorem step_pix_cases {s t : State} (h : step s = .next t) :
    t.pix = s.pix ∨
    (s.turns.head? = some .hardwareReset ∧ t.pix = []) ∨
    ∃ i b, s.turns.head? = some (.host (.writePix i b)) ∧ s.busy = false ∧ i < s.cfg.pixCap ∧
      t.pix = s.pix.write i [b] := by
  rcases step_cases h with ⟨a, ht, rfl⟩ | ⟨ht, rfl⟩ | ⟨_, he⟩
  · rcases hostStep_pix_cases a s.popTurn with hp | ⟨i, b, rfl, hb, hi, hp⟩
    · exact .inl hp
    · exact .inr (.inr ⟨i, b, ht, hb, hi, hp⟩)
  · exact .inr (.inl ⟨ht, rfl⟩)
  · exact .inl (engineStep_pix (s := s.popTurn) he)

/-- A written byte stays written until the next hardware reset. -/
theorem step_keeps_written {s t : State} (h : step s = .next t)
    (hr : s.turns.head? ≠ some .hardwareReset) {a : Nat} (ha : (s.pix.read a).isSome) :
    (t.pix.read a).isSome := by
  rcases step_pix_cases h with hp | ⟨ht, _⟩ | ⟨i, b, _, _, _, hp⟩
  · rwa [hp]
  · exact absurd ht hr
  · rw [hp]; exact Memory.read_write_byte_isSome i b ha

/-- A byte that a step makes written is the one an effective `HostWritePix` names. -/
theorem step_writes_only_by_host {s t : State} {a : Nat} (h : step s = .next t)
    (hn : s.pix.read a = none) (ha : (t.pix.read a).isSome) :
    s.busy = false ∧ a < s.cfg.pixCap ∧
      ∃ b, s.turns.head? = some (.host (.writePix a b)) := by
  rcases step_pix_cases h with hp | ⟨_, hp⟩ | ⟨i, b, ht, hb, hi, hp⟩
  · simp [hp, hn] at ha
  · simp [hp] at ha
  · have hai : a = i := by
      by_contra hne
      simp [hp, Memory.read_write_byte_ne s.pix b hne, hn] at ha
    subst hai
    exact ⟨hb, hi, b, ht⟩

/-- `PNG.SCAN` stops on an accepted image that is not wholly written. -/
theorem exec_pngScan_unwritten {s : State} (ha : s.ImageAccepted) (hp : ¬s.PixWritten) :
    exec .pngScan s = .fault .pixNeverWritten := by
  have hv : validate (s.setPhase .scan) = .go (s.setPhase .scan) :=
    validate_of_accepted (s := s.setPhase .scan) ha
  have hs : scanStep (s.setPhase .scan) = .stuck .pixNeverWritten := by
    rcases buildScan_cases (s.setPhase .scan) with ⟨bs, hb, _⟩ | ⟨_, hb⟩
    · have hb : scanlines s = some bs := hb
      exact absurd ((scanlines_isSome ha).1 (by simp [hb])) hp
    · exact hb
  change ((validate (s.setPhase .scan)).andThen scanStep).finish = _
  rw [hv, Flow.go_andThen, hs, Flow.finish_stuck]

/-- `PNG.ENCODE` stops on an accepted image that is not wholly written. -/
theorem exec_pngEncode_unwritten {s : State} (hc : s.cfg.wellFormed = true)
    (ha : s.ImageAccepted) (hp : ¬s.PixWritten) :
    exec .pngEncode s = .fault .pixNeverWritten := by
  rcases encodeRun_cases hc ha with ⟨_, _, he⟩ | ⟨_, _, hw, _⟩
  · change (encodeRun s).finishEncode = _
    rw [he, Flow.finishEncode_stuck]
  · exact absurd hw hp

end Sys2Proof.Machine
end

section
/-! The statements of 20_memory.md. -/

namespace Sys2Proof.Machine

/-- Settles O20: every clause but the last is read off `step_pix_cases`; the fault is
`exec_pngScan_unwritten` and `exec_pngEncode_unwritten`. -/
theorem neverWrittenPixelsFault : Obligations.NeverWrittenPixelsFault := by
  unfold Obligations.NeverWrittenPixelsFault
  refine ⟨fun _ _ => rfl, fun s i b hb hi => ?_, fun s t h hr a => step_keeps_written h hr,
    fun s t a => step_writes_only_by_host, fun s hc ha hk => ?_⟩
  · simp [writePix_effective b hb hi]
  · obtain ⟨k, hlt, hnone⟩ := hk
    have hp : ¬s.PixWritten := fun hw => by simpa [hnone] using hw k hlt
    exact ⟨exec_pngScan_unwritten ha hp, exec_pngEncode_unwritten hc ha hp⟩

/-- Settles O27: an effective write is one byte of `PIX`, any other is ignored. -/
theorem writePixWritesOneByte : Obligations.WritePixWritesOneByte := by
  unfold Obligations.WritePixWritesOneByte
  simp only [hostStep_writePix]
  refine fun s i b => ⟨fun ⟨hb, hi⟩ => ?_, writePix_ignored b⟩
  rw [writePix_effective b hb hi]
  exact ⟨Memory.read_write_byte_same s.pix i b, fun a => Memory.read_write_byte_ne s.pix b, rfl⟩

end Sys2Proof.Machine
end

section
/-! SUPPORT. The order of the bits in the bytes the bit writer puts out (30_encoding.md R121;
42_deflate.md R192 to R195). -/

namespace Sys2Proof.Machine

/-- Bit `j` of byte `k` of `bs` is bit `8 * k + j` of `bits`; both are 0 past their ends. -/
def Spells (bs : Bytes) (bits : List Bool) : Prop :=
  ∀ k, ∀ j < 8, (bs.getD k 0).getLsbD j = bits.getD (8 * k + j) false

theorem spells_append_zero {bs : Bytes} {bits : List Bool} :
    Spells (bs ++ [0]) bits ↔ Spells bs bits := by
  have hget : ∀ k, (bs ++ [0]).getD k 0 = bs.getD k 0 := by
    intro k
    rcases Nat.lt_or_ge k bs.length with hk | hk
    · exact List.getD_append _ _ _ _ hk
    · rw [List.getD_append_right _ _ _ _ hk, List.getD_eq_default _ _ hk]
      cases k - bs.length <;> rfl
  simp only [Spells, hget]

/-- The next bit of the sequence goes to the lowest place of the last byte that is still free. -/
theorem spells_snoc {bs : Bytes} {b : Byte} {bits : List Bool} {j : Nat} (x : Bool) (hj : j < 8)
    (h : Spells (bs ++ [b]) bits) (hlen : bits.length = 8 * bs.length + j) :
    Spells (bs ++ [b ||| (BitVec.ofBool x).setWidth 8 <<< j]) (bits ++ [x]) := by
  intro k i hi
  have hold := h k i hi
  rcases Nat.lt_trichotomy k bs.length with hk | rfl | hk
  · rw [List.getD_append _ _ _ _ hk] at hold ⊢
    rw [hold, List.getD_append _ _ _ _ (by omega)]
  · rw [List.getD_append_right _ _ _ _ (Nat.le_refl _), Nat.sub_self, List.getD_cons_zero] at hold ⊢
    rw [BitVec.getLsbD_or, hold]
    rcases Nat.lt_trichotomy i j with hij | rfl | hij
    · rw [List.getD_append bits [x] _ _ (by omega)]
      simp [hij]
    · rw [List.getD_eq_default bits _ (by omega), List.getD_append_right bits [x] _ _ (by omega)]
      simp [hlen, hi]
    · rw [List.getD_eq_default bits _ (by omega),
        List.getD_eq_default (bits ++ [x]) _ (by simp; omega)]
      simp
      omega
  · rw [List.getD_eq_default _ _ (by simp; omega), List.getD_eq_default _ _ (by simp; omega)]
    simp

/-- The writer holds exactly `bits`: `BITCNT` of them in `BITBUF`, the others in the output. -/
def BitWriter.Holds (w : BitWriter) (bits : List Bool) : Prop :=
  bits.length = 8 * w.output.length + w.bitcnt.toNat ∧ Spells (w.output ++ [w.bitbuf]) bits

theorem holds_start : BitWriter.start.Holds [] :=
  ⟨rfl, spells_append_zero.2 fun _ _ _ => by simp [BitWriter.start]⟩

theorem holds_putBit {w : BitWriter} {bits : List Bool} (h : w.Holds bits) (x : Bool) :
    (putBit w x).Holds (bits ++ [x]) := by
  obtain ⟨hlen, hs⟩ := h
  have hcnt : w.bitcnt.toNat < 8 := w.bitcnt.isLt
  have hnew := spells_snoc x hcnt hs hlen
  unfold putBit
  split
  · rename_i h7
    refine ⟨?_, spells_append_zero.2 hnew⟩
    simp [hlen, h7]
    omega
  · rename_i h7
    refine ⟨?_, hnew⟩
    have h7 : w.bitcnt.toNat ≠ 7 := fun he => h7 (BitVec.eq_of_toNat_eq he)
    simp [hlen, BitVec.toNat_add]
    omega

theorem holds_putBitList {w : BitWriter} {bits : List Bool} (h : w.Holds bits) (more : List Bool) :
    (putBitList w more).Holds (bits ++ more) := by
  induction more generalizing w bits with
  | nil => rwa [List.append_nil]
  | cons x more ih =>
    rw [List.append_cons]
    exact ih (holds_putBit h x)

/-- After `FlushBits` (R195) the output spells the bits, in as many bytes as they need. -/
theorem flushBits_output {w : BitWriter} {bits : List Bool} (h : w.Holds bits) :
    (flushBits w).output.length = (bits.length + 7) / 8 ∧ Spells (flushBits w).output bits := by
  obtain ⟨hlen, hs⟩ := h
  have hcnt : w.bitcnt.toNat < 8 := w.bitcnt.isLt
  unfold flushBits
  split
  · rename_i h0
    have hlen : bits.length = 8 * w.output.length := by simpa [h0] using hlen
    have hbuf : w.bitbuf = 0 := BitVec.eq_of_getLsbD_eq fun j hj => by
      have := hs w.output.length j hj
      rw [List.getD_append_right _ _ _ _ (Nat.le_refl _), Nat.sub_self, List.getD_cons_zero,
        List.getD_eq_default bits _ (by omega)] at this
      simpa using this
    rw [hbuf] at hs
    exact ⟨by omega, spells_append_zero.1 hs⟩
  · rename_i h0
    have h0 : w.bitcnt.toNat ≠ 0 := fun he => h0 (BitVec.eq_of_toNat_eq he)
    exact ⟨by simp [hlen]; omega, hs⟩

@[simp] theorem length_fieldBits (v n : Nat) : (fieldBits v n).length = n := by
  induction n generalizing v with
  | zero => rfl
  | succ n ih => rw [fieldBits, List.length_cons, ih]

@[simp] theorem length_codeBits (c n : Nat) : (codeBits c n).length = n := by
  rw [codeBits, List.length_reverse, length_fieldBits]

/-- A numeric field goes out low bit first (R121). -/
theorem getElem?_fieldBits (v : Nat) {n i : Nat} (hi : i < n) :
    (fieldBits v n)[i]? = some (v.testBit i) := by
  induction n generalizing v i with
  | zero => omega
  | succ n ih =>
    cases i with
    | zero => rfl
    | succ i => rw [fieldBits, List.getElem?_cons_succ, ih _ (by omega), Nat.testBit_succ]

/-- A Huffman code goes out high bit first (R121). -/
theorem getElem?_codeBits (c : Nat) {n i : Nat} (hi : i < n) :
    (codeBits c n)[i]? = some (c.testBit (n - 1 - i)) := by
  rw [codeBits, List.getElem?_reverse (by simpa using hi), length_fieldBits]
  exact getElem?_fieldBits c (by omega)

end Sys2Proof.Machine
end

section
/-! SUPPORT. The words a row of the opcode map selects, by their fields (30_encoding.md R90, R92),
and what `decode` answers. -/

namespace Sys2Proof

/-- A word is its three fields (R90). -/
theorem word_eq_iff_fields (w v : Word) :
    w = v ↔ zeroField w = zeroField v ∧ imm8Field w = imm8Field v ∧ opField w = opField v := by
  constructor
  · rintro rfl
    exact ⟨rfl, rfl, rfl⟩
  · simp only [zeroField, imm8Field, opField, ← BitVec.toNat_inj, BitVec.extractLsb'_toNat,
      Nat.shiftRight_eq_div_pow]
    omega

/-- The immediate mask of R92 clears `imm8` and keeps the other fields. -/
theorem fields_and_immediateMask (w : Word) :
    zeroField (w &&& 0xFFFF00FF) = zeroField w ∧ imm8Field (w &&& 0xFFFF00FF) = 0 ∧
      opField (w &&& 0xFFFF00FF) = opField w :=
  ⟨BitVec.extractLsb'_and.trans BitVec.and_allOnes, BitVec.extractLsb'_and.trans BitVec.and_zero,
    BitVec.extractLsb'_and.trans BitVec.and_allOnes⟩

/-- The opcodes whose row takes an immediate (R93). -/
def TakesImmediate (op : Byte) : Prop := op = 0x11 ∨ op = 0x19

/-- What the fourteen rows have in common: only the opcode of the pattern is not 0, and the mask
leaves out `imm8` exactly where the opcode takes an immediate. -/
theorem opcodeMap_rows : ∀ r ∈ opcodeMap,
    zeroField r.pattern = 0 ∧ imm8Field r.pattern = 0 ∧
      (TakesImmediate (opField r.pattern) ∧ r.mask = 0xFFFF00FF ∨
        ¬TakesImmediate (opField r.pattern) ∧ r.mask = 0xFFFFFFFF) := by
  unfold TakesImmediate
  decide

/-- The words a row of the opcode map selects (R92). -/
theorem selects_iff {r : OpcodeRow} (hr : r ∈ opcodeMap) (w : Word) :
    r.selects w = true ↔ zeroField w = 0 ∧ opField w = opField r.pattern ∧
      (TakesImmediate (opField w) ∨ imm8Field w = 0) := by
  obtain ⟨hzero, himm, ⟨hop, hmask⟩ | ⟨hop, hmask⟩⟩ := opcodeMap_rows r hr
  · obtain ⟨h1, h2, h3⟩ := fields_and_immediateMask w
    rw [OpcodeRow.selects, beq_iff_eq, hmask, word_eq_iff_fields, h1, h2, h3, hzero, himm]
    constructor
    · rintro ⟨hz, -, ho⟩
      exact ⟨hz, ho, .inl (ho ▸ hop)⟩
    · rintro ⟨hz, ho, -⟩
      exact ⟨hz, rfl, ho⟩
  · have hall : w &&& 0xFFFFFFFF = w := BitVec.and_allOnes
    rw [OpcodeRow.selects, beq_iff_eq, hmask, hall, word_eq_iff_fields, hzero, himm]
    constructor
    · rintro ⟨hz, hi, ho⟩
      exact ⟨hz, ho, .inr hi⟩
    · rintro ⟨hz, ho, ht | hi⟩
      · exact absurd (ho ▸ ht) hop
      · exact ⟨hz, hi, ho⟩

/-- Where `decode` answers a command, a row of the opcode map selects the word and builds it. -/
theorem decode_eq_ok {w : Word} {i : Instr} (h : decode w = .ok i) :
    ∃ r ∈ opcodeMap, r.selects w = true ∧ r.build (imm8Field w) = i := by
  unfold decode at h
  cases hf : opcodeMap.find? (fun r => r.selects w) with
  | none => simp [hf] at h
  | some r =>
    rw [hf] at h
    exact ⟨r, List.mem_of_find?_eq_some hf, by simpa using List.find?_some hf, Except.ok.inj h⟩

/-- `decode` rejects a word exactly when no row selects it (R93). -/
theorem decode_eq_error_iff (w : Word) :
    (∃ e, decode w = .error e) ↔ ∀ r ∈ opcodeMap, ¬r.selects w = true := by
  rw [← List.find?_eq_none]
  unfold decode
  cases opcodeMap.find? (fun r => r.selects w) <;> simp

/-- The words `decode` rejects, by their fields (R93). -/
theorem decode_eq_error_iff_fields (w : Word) :
    (∃ e, decode w = .error e) ↔
      zeroField w ≠ 0 ∨ opField w ∉ opcodeMap.map (fun r => opField r.pattern) ∨
        ¬TakesImmediate (opField w) ∧ imm8Field w ≠ 0 := by
  rw [decode_eq_error_iff, ← not_iff_not]
  push Not
  constructor
  · rintro ⟨r, hr, hs⟩
    obtain ⟨hz, ho, hi⟩ := (selects_iff hr w).1 hs
    exact ⟨hz, List.mem_map.2 ⟨r, hr, ho.symm⟩, hi.resolve_left⟩
  · rintro ⟨hz, ho, hi⟩
    obtain ⟨r, hr, ho⟩ := List.mem_map.1 ho
    exact ⟨r, hr, (selects_iff hr w).2 ⟨hz, ho.symm, or_iff_not_imp_left.2 hi⟩⟩

/-- The fields of a command's word (R90). -/
theorem fields_encode (i : Instr) :
    opField (encode i) = Laws.opcodeOf i ∧ imm8Field (encode i) = Laws.immediateOf i ∧
      zeroField (encode i) = 0 := by
  cases i <;> exact Laws.fields_commandWord _ _

/-- The fourteen opcodes of R92. -/
theorem opcodes_eq : opcodeMap.map (fun r => opField r.pattern) =
    [0x00, 0x01, 0x10, 0x11, 0x18, 0x19, 0x20, 0x21, 0x22, 0x23, 0x24, 0x25, 0x26, 0x2F] := rfl

/-- The opcode map lists the opcode of every command, and an immediate other than 0 only where the
opcode takes one. -/
theorem opcodeMap_complete (i : Instr) :
    Laws.opcodeOf i ∈ opcodeMap.map (fun r => opField r.pattern) ∧
      (TakesImmediate (Laws.opcodeOf i) ∨ Laws.immediateOf i = 0) := by
  rw [opcodes_eq, TakesImmediate]
  cases i <;> simp [Laws.opcodeOf, Laws.immediateOf]

/-- The row with a command's opcode builds that command from its immediate. -/
theorem build_of_opcode {r : OpcodeRow} (hr : r ∈ opcodeMap) (i : Instr)
    (h : opField r.pattern = Laws.opcodeOf i) : r.build (Laws.immediateOf i) = i := by
  revert r
  cases i <;> simp [opcodeMap, opField, Laws.opcodeOf, Laws.immediateOf]

/-- Decoding an encoded command gives it back. -/
@[simp] theorem decode_encode (i : Instr) : decode (encode i) = .ok i := by
  obtain ⟨hop, himm, hzero⟩ := fields_encode i
  obtain ⟨hmem, htakes⟩ := opcodeMap_complete i
  cases hd : decode (encode i) with
  | error e =>
    have herr := (decode_eq_error_iff_fields _).1 ⟨e, hd⟩
    rw [hop, himm, hzero] at herr
    rcases herr with h | h | ⟨ht, hi⟩
    · exact absurd rfl h
    · exact absurd hmem h
    · exact htakes.elim (absurd · ht) (absurd · hi)
  | ok j =>
    obtain ⟨r, hr, hs, rfl⟩ := decode_eq_ok hd
    have ho := ((selects_iff hr _).1 hs).2.1
    rw [himm, build_of_opcode hr i (ho.symm.trans hop)]

end Sys2Proof
end

section
/-! SUPPORT. Command statements of the host in a ready state (30_encoding.md R95, R96). -/

namespace Sys2Proof.Machine

/-- A ready engine performs the command that the host writes. -/
theorem runWord_encode {s : State} (h : s.Ready) (i : Instr) :
    runWord (encode i) s = exec i { s with lastCmd := encode i, busy := true, done := false } := by
  obtain ⟨hb, he⟩ := h
  have hw : writeRegister 0x00 (encode i) s =
      { s with lastCmd := encode i, busy := true, done := false } := by
    simp [writeRegister, registerAt, issue, hb, he]
  rw [runWord, hw, engineStep_busy rfl, perform_ok (decode_encode i)]

theorem runWords_cons {w : Word} {s t : State} (ws : List Word) (h : runWord w s = .next t) :
    runWords (w :: ws) s = runWords ws t := by
  rw [runWords, h]

/-- The bytes of a message as immediates of one command, where `state x w` has `x` in a unit and `w`
in `LAST_CMD`: if the command takes `x` to `next x b`, the unit folds `next` over the message. -/
theorem runWords_bytes {σ : Type} {state : σ → Word → State} {next : σ → Byte → σ}
    {command : Byte → Instr}
    (hrun : ∀ x w b, runWord (encode (command b)) (state x w) =
      .next (state (next x b) (encode (command b))))
    (m : Bytes) (x : σ) (w : Word) :
    ∃ w', runWords (m.map fun b => encode (command b)) (state x w) =
      .next (state (m.foldl next x) w') := by
  induction m generalizing x w with
  | nil => exact ⟨w, rfl⟩
  | cons b m ih =>
    rw [List.map_cons, runWords_cons _ (hrun x w b)]
    exact ih (next x b) (encode (command b))

/-- `s` after a command of the CRC unit: `c` in `CRC`, `w` in `LAST_CMD`. -/
def State.afterCrc (s : State) (c w : Word) : State := ({ s with lastCmd := w }.setCrc c).complete

/-- `s` after a command of the Adler unit: `ab` in `ADA` and `ADB`, `w` in `LAST_CMD`. -/
def State.afterAdler (s : State) (ab : BitVec 16 × BitVec 16) (w : Word) : State :=
  ({ s with lastCmd := w }.setAdler ab).complete

section
variable {s : State} (h : s.Ready)
include h

/-- `CRC.MSG m` (R96) leaves the register at the fold over `m`. -/
theorem runWords_crcMessage (m : Bytes) :
    ∃ w, runWords (crcMessage m) s = .next (s.afterCrc (crcFold crcInitial m) w) := by
  have hinit : runWord (encode .crcInit) s = .next (s.afterCrc crcInitial (encode .crcInit)) :=
    runWord_encode h .crcInit
  rw [crcMessage, runWords_cons _ hinit]
  have hbyte : ∀ c w b, runWord (encode (.crcByte b)) (s.afterCrc c w) =
      .next (s.afterCrc (crcStep c b) (encode (.crcByte b))) := fun c w b =>
    runWord_encode (s := s.afterCrc c w) ⟨rfl, h.2⟩ (.crcByte b)
  exact runWords_bytes hbyte m crcInitial _

/-- `ADL.MSG m` (R96) leaves the sums at the fold over `m`. -/
theorem runWords_adlMessage (m : Bytes) :
    ∃ w, runWords (adlMessage m) s = .next (s.afterAdler (adlerFold adlerInitial m) w) := by
  have hinit : runWord (encode .adlInit) s = .next (s.afterAdler adlerInitial (encode .adlInit)) :=
    runWord_encode h .adlInit
  rw [adlMessage, runWords_cons _ hinit]
  have hbyte : ∀ ab w x, runWord (encode (.adlByte x)) (s.afterAdler ab w) =
      .next (s.afterAdler (adlerStep ab x) (encode (.adlByte x))) := fun ab w x =>
    runWord_encode (s := s.afterAdler ab w) ⟨rfl, h.2⟩ (.adlByte x)
  exact runWords_bytes hbyte m adlerInitial _

end

/-- `ADLER_VAL` (10_state.md R31) is the two sums one after the other, as in R180. -/
theorem adlerVal_eq_append (s : State) : adlerVal s = s.adb ++ s.ada := by
  ext j hj
  rw [BitVec.getElem_append]
  by_cases h : j < 16
  · simp [adlerVal, h]
  · simp [adlerVal, h, BitVec.getLsbD_of_ge s.ada j (Nat.le_of_not_lt h),
      BitVec.getLsbD_eq_getElem (show j - 16 < 16 by omega)]

theorem readRegister_crcVal {s : State} (h : s.busy = false) : readRegister 0x20 s = crcVal s := by
  simp [readRegister, registerAt, registerValue, whenIdle, h]

theorem readRegister_adlerVal {s : State} (h : s.busy = false) :
    readRegister 0x24 s = adlerVal s := by
  simp [readRegister, registerAt, registerValue, whenIdle, h]

end Sys2Proof.Machine
end

section
/-! SUPPORT. What the scanline buffer holds, row by row (30_encoding.md R105), and everything
`PNG.SCAN` can do (43_png_framing.md R244). -/

namespace Sys2Proof.Machine

/-- Byte `k` of a sequence read is the byte at its index. -/
theorem Memory.getElem?_readWritten {m : Memory} {a n : Nat} {bs : Bytes}
    (h : m.readWritten a n = some bs) {k : Nat} (hk : k < n) : bs[k]? = m.read (a + k) := by
  induction n generalizing a bs k with
  | zero => omega
  | succ n ih =>
    cases hr : m.read a with
    | none => simp [readWritten, hr] at h
    | some b =>
      simp only [readWritten, hr, Option.map_eq_some_iff] at h
      obtain ⟨rest, hrest, rfl⟩ := h
      cases k with
      | zero => exact hr.symm
      | succ k =>
        rw [List.getElem?_cons_succ, ih hrest (by omega), Nat.add_assoc, Nat.add_comm 1 k]

/-- Byte `j` of row `q` is the filter byte 00 for `j = 0`, else byte `j - 1` of the row's pixels
(R105). -/
theorem getElem?_scanRows {pix : Memory} {rowBytes r n : Nat} {bs : Bytes}
    (h : scanRows pix rowBytes r n = some bs) {q j : Nat} (hq : q < n) (hj : j < 1 + rowBytes) :
    bs[q * (1 + rowBytes) + j]? =
      if j = 0 then some 0x00 else pix.read ((r + q) * rowBytes + (j - 1)) := by
  induction n generalizing r bs q with
  | zero => omega
  | succ n ih =>
    cases hrow : pix.readWritten (r * rowBytes) rowBytes with
    | none => simp [scanRows, hrow] at h
    | some row =>
      simp only [scanRows, hrow, Option.map_eq_some_iff] at h
      obtain ⟨rest, hrest, rfl⟩ := h
      have hlen : (0x00 :: row : Bytes).length = 1 + rowBytes := by
        rw [List.length_cons, Memory.length_readWritten hrow, Nat.add_comm]
      cases q with
      | zero =>
        rw [Nat.zero_mul, Nat.zero_add, List.getElem?_append_left (by omega)]
        cases j with
        | zero => rfl
        | succ j => exact Memory.getElem?_readWritten hrow (by omega)
      | succ q =>
        have hidx : (q + 1) * (1 + rowBytes) + j - (1 + rowBytes) = q * (1 + rowBytes) + j := by
          rw [Nat.succ_mul]; omega
        rw [List.getElem?_append_right (by rw [Nat.succ_mul]; omega), hlen, hidx,
          ih hrest (by omega), Nat.add_assoc, Nat.add_comm 1 q]

/-- The upper ends of R8's ranges. -/
theorem capacities_lt {c : Config} (h : c.wellFormed = true) :
    c.scanCap < 2 ^ 32 ∧ c.outCap < 2 ^ 32 := by
  simp only [Config.wellFormed, Bool.and_eq_true, decide_eq_true_eq] at h
  omega

/-- The scanline buffer of an accepted image is no longer than a length register can say. -/
theorem length_scanlines_lt {s : State} {bs : Bytes} (hc : s.cfg.wellFormed = true)
    (ha : s.ImageAccepted) (h : scanlines s = some bs) : bs.length < 2 ^ 32 := by
  obtain ⟨-, -, -, -, hfits⟩ := ha
  rw [length_scanlines h]
  exact hfits.trans_lt (capacities_lt hc).1

/-- `PNG.SCAN` on an accepted image that the host has written (R244). -/
theorem exec_pngScan_written {s : State} (ha : s.ImageAccepted) (hp : s.PixWritten) :
    ∃ bs, scanlines s = some bs ∧
      exec .pngScan s = .next ((s.setPhase .scan).setScan bs).complete := by
  have hv : validate (s.setPhase .scan) = .go (s.setPhase .scan) :=
    validate_of_accepted (s := s.setPhase .scan) ha
  rcases buildScan_cases ((s.setPhase .scan).setPhase .scan) with ⟨bs, hbs, hgo⟩ | ⟨hnone, -⟩
  · refine ⟨bs, hbs, ?_⟩
    change ((validate (s.setPhase .scan)).andThen scanStep).finish = _
    rw [hv, Flow.go_andThen, scanStep, hgo, Flow.finish_go]
    rfl
  · have hsome := (scanlines_isSome ha).2 hp
    rw [show scanlines s = none from hnone] at hsome
    cases hsome

/-- `Validate` looks at no phase. -/
theorem validate_setPhase_raised {s : State} {e : PngeError} (p : Phase)
    (h : validate s = .raised e s) : validate (s.setPhase p) = .raised e (s.setPhase p) := by
  unfold validate at h ⊢
  repeat' split at h
  all_goals simp_all

/-- `PNG.SCAN` on an image that `Validate` rejects (R244, R248). -/
theorem exec_pngScan_rejected {s : State} (ha : ¬s.ImageAccepted) :
    ∃ e, validate s = .raised e s ∧ exec .pngScan s = .next ((s.setPhase .scan).raise e) := by
  obtain ⟨e, he, -⟩ := encodeRun_rejected ha
  refine ⟨e, he, ?_⟩
  change ((validate (s.setPhase .scan)).andThen scanStep).finish = _
  rw [validate_setPhase_raised .scan he, Flow.raised_andThen, Flow.finish_raised]

/-- The bytes written to `SCAN` read back from index 0. -/
theorem read_setScan (s : State) (bs : Bytes) {k : Nat} (hk : k < bs.length) :
    (s.setScan bs).scan.read k = bs[k]? := by
  have h := Memory.read_write_inside s.scan 0 bs k hk
  rwa [Nat.zero_add] at h

/-- A place in a row is a place in the buffer. -/
theorem row_index_lt {q n rowLen j : Nat} (hq : q < n) (hj : j < rowLen) :
    q * rowLen + j < n * rowLen :=
  calc q * rowLen + j < q * rowLen + rowLen := Nat.add_lt_add_left hj _
    _ = (q + 1) * rowLen := (Nat.succ_mul q rowLen).symm
    _ ≤ n * rowLen := Nat.mul_le_mul_right rowLen hq

/-- What `SCAN` holds with the scanline buffer written, by row and place in the row (R105). -/
theorem read_setScan_scanlines {s t : State} {bs : Bytes} (h : scanlines s = some bs) {r j : Nat}
    (hr : r < s.height.toNat) (hj : j < 1 + s.width.toNat * 3) :
    (t.setScan bs).scan.read (r * (1 + s.width.toNat * 3) + j) =
      if j = 0 then some 0x00 else s.pix.read (r * (s.width.toNat * 3) + (j - 1)) := by
  rw [read_setScan t bs (length_scanlines h ▸ row_index_lt hr hj), getElem?_scanRows h hr hj,
    Nat.zero_add]

end Sys2Proof.Machine
end

section
/-! SUPPORT. The bytes `PNG.ENCODE` leaves in the three buffers of an image it can encode
(30_encoding.md R100, R106; 43_png_framing.md R247). -/

namespace Sys2Proof.Machine

/-- The buffer that `scanlines` builds is the scanline buffer of R105. -/
theorem isScan_of_scanlines {s : State} {bs : Bytes} (h : scanlines s = some bs) : s.IsScan bs := by
  have hlen := length_scanlines h
  refine ⟨hlen, fun r hr j hj => ?_⟩
  have hget := getElem?_scanRows h hr hj
  have hlt : r * (1 + s.width.toNat * 3) + j < bs.length := hlen ▸ row_index_lt hr hj
  rw [State.scanByte, State.pixel]
  split
  · rename_i h0
    rw [hget, if_pos h0]
  · rename_i h0
    rw [if_neg h0, Nat.zero_add] at hget
    rw [← hget, List.getElem?_eq_getElem hlt, Option.getD_some]

/-- An image has one scanline buffer (R105). -/
theorem isScan_unique {s : State} {a b : Bytes} (ha : s.IsScan a) (hb : s.IsScan b) : a = b := by
  obtain ⟨halen, haget⟩ := ha
  obtain ⟨hblen, hbget⟩ := hb
  refine List.ext_getElem? fun i => ?_
  rcases Nat.lt_or_ge i (s.height.toNat * (1 + s.width.toNat * 3)) with hi | hi
  · have hrow : i / (1 + s.width.toNat * 3) < s.height.toNat :=
      Nat.div_lt_of_lt_mul (Nat.mul_comm _ _ ▸ hi)
    have hcol : i % (1 + s.width.toNat * 3) < 1 + s.width.toNat * 3 := Nat.mod_lt _ (by omega)
    have hsplit := Nat.div_add_mod' i (1 + s.width.toNat * 3)
    rw [← hsplit, haget _ hrow _ hcol, hbget _ hrow _ hcol]
  · rw [List.getElem?_eq_none (halen ▸ hi), List.getElem?_eq_none (hblen ▸ hi)]

/-- A buffer with length register `len` holds `bs`, and above them what `o` held. -/
def Memory.HoldsOver (m : Memory) (len : Word) (bs : Bytes) (o : Memory) : Prop :=
  m.readWritten 0 len.toNat = some bs ∧ ∀ a, len.toNat ≤ a → m.read a = o.read a

/-- A buffer written from index 0 (R205, R244). -/
theorem Memory.holdsOver_write (m : Memory) {bs : Bytes} (h : bs.length < 2 ^ 32) :
    (m.write 0 bs).HoldsOver (BitVec.ofNat 32 bs.length) bs m := by
  have hlen : (BitVec.ofNat 32 bs.length).toNat = bs.length := Nat.mod_eq_of_lt h
  rw [HoldsOver, hlen]
  exact ⟨readWritten_write m 0 bs, fun a ha => read_write_outside m 0 bs a (by omega)⟩

/-- The output is `P`, over an `OUT` that was `o` before. -/
def State.OutIs (s : State) (P : Bytes) (o : Memory) : Prop := s.out.HoldsOver s.outLen P o

/-- An append (R12) adds its bytes to the output. -/
theorem outIs_putOut {s : State} {P bs : Bytes} {o : Memory} (h : s.OutIs P o)
    (hlt : P.length + bs.length < 2 ^ 32) : (s.putOut bs).OutIs (P ++ bs) o := by
  obtain ⟨hdata, habove⟩ := h
  have hlen : s.outLen.toNat = P.length := (Memory.length_readWritten hdata).symm
  obtain ⟨hlen', hnew, hold⟩ := putOut_appends bs s (hlen ▸ hlt)
  rw [hlen] at hdata habove hlen' hnew hold
  rw [← List.length_append] at hlen'
  rw [State.OutIs, Memory.HoldsOver, hlen']
  refine ⟨Memory.readWritten_eq_some fun k hk => ?_, fun a ha => ?_⟩
  · rw [List.length_append] at hk
    rw [Nat.zero_add]
    rcases Nat.lt_or_ge k P.length with hkP | hkP
    · rw [hold k (.inl hkP), List.getElem?_append_left hkP, Memory.getElem?_readWritten hdata hkP,
        Nat.zero_add]
    · obtain ⟨d, rfl⟩ := Nat.exists_eq_add_of_le hkP
      rw [hnew d (by omega), List.getElem?_append_right hkP, Nat.add_sub_cancel_left]
  · rw [List.length_append] at ha
    rw [hold a (.inr ha), habove a (by omega)]

section
variable (s : State) (P : Bytes) (o : Memory)

@[simp] theorem outIs_setPhase (p : Phase) : (s.setPhase p).OutIs P o ↔ s.OutIs P o := Iff.rfl
@[simp] theorem outIs_setCrc (c : Word) : (s.setCrc c).OutIs P o ↔ s.OutIs P o := Iff.rfl
@[simp] theorem outIs_setAdler (ab : BitVec 16 × BitVec 16) :
    (s.setAdler ab).OutIs P o ↔ s.OutIs P o := Iff.rfl
@[simp] theorem outIs_setScan (bs : Bytes) : (s.setScan bs).OutIs P o ↔ s.OutIs P o := Iff.rfl
@[simp] theorem outIs_startZ (buf : BitVec 8) (cnt : BitVec 3) :
    (s.startZ buf cnt).OutIs P o ↔ s.OutIs P o := Iff.rfl
@[simp] theorem outIs_setZ (z : Bytes) : (s.setZ z).OutIs P o ↔ s.OutIs P o := Iff.rfl
@[simp] theorem outIs_complete : s.complete.OutIs P o ↔ s.OutIs P o := Iff.rfl

end

/-- `OUT_LEN <- 0` (R247): the output is empty, over all of `OUT`. -/
theorem outIs_clearLengths (s : State) : s.clearLengths.OutIs [] s.out :=
  ⟨rfl, fun _ _ => rfl⟩

/-- The frame of `PNG.ENCODE`, from what it keeps (`exec_inputs`, the error code) and the values it
ends with. -/
theorem eq_of_encodeFrame {s t : State} (hin : t.inputs = s.inputs) (herr : t.err = s.err)
    (hbits : t.bitbuf = 0 ∧ t.bitcnt = 0)
    (hflags : t.phase = .idle ∧ t.busy = false ∧ t.done = true) :
    t = { s with out := t.out, outLen := t.outLen, scan := t.scan, scanLen := t.scanLen,
                 zbuf := t.zbuf, zLen := t.zLen, crc := t.crc, ada := t.ada, adb := t.adb,
                 bitbuf := 0, bitcnt := 0, phase := .idle, busy := false, done := true } := by
  cases t
  simp only [State.inputs, Inputs.mk.injEq] at hin
  simp_all

/-- The output of `PNG.ENCODE` is the datastream of R100. -/
theorem atEnd_outIs (s : State) (scan : Bytes)
    (h : 57 + (zStream s.cfg.compMode scan).length < 2 ^ 32) :
    (s.atEnd scan).OutIs (pngStream s.width s.height (zStream s.cfg.compMode scan)) s.out := by
  have hsig : pngSignature.length = 8 := rfl
  have htype : typeIhdr.length = 4 ∧ typeIdat.length = 4 ∧ typeIend.length = 4 := ⟨rfl, rfl, rfl⟩
  rw [State.atEnd, pngStream]
  refine outIs_putOut ?_ (by simp [hsig, htype, length_chunk]; omega)
  rw [outIs_setCrc, State.atIend, outIs_setPhase]
  refine outIs_putOut ?_ (by simp [hsig, htype, length_chunk]; omega)
  simp only [State.atIdat, State.atZcomp, State.afterScan, State.afterHeader, outIs_setPhase,
    outIs_setCrc, outIs_setAdler, outIs_setScan, outIs_startZ, outIs_setZ]
  refine outIs_putOut ?_ (by simp [hsig, htype, length_chunk])
  rw [outIs_setCrc, outIs_setPhase]
  exact outIs_putOut (P := []) (outIs_clearLengths s) (by simp [hsig])

/-- What `PNG.ENCODE` has written at its end besides the output (R247). -/
theorem atEnd_fields (s : State) (scan : Bytes) :
    let z := zStream s.cfg.compMode scan
    ((s.atEnd scan).scan = s.scan.write 0 scan ∧
      (s.atEnd scan).scanLen = BitVec.ofNat 32 scan.length) ∧
    ((s.atEnd scan).zbuf = s.zbuf.write 0 z ∧ (s.atEnd scan).zLen = BitVec.ofNat 32 z.length) ∧
    (s.atEnd scan).err = s.err ∧ (s.atEnd scan).bitbuf = 0 ∧ (s.atEnd scan).bitcnt = 0 := by
  simp [State.atEnd, State.atIend, State.atIdat, State.atZcomp, State.afterScan, State.afterHeader]

/-- On an image it can encode `PNG.ENCODE` runs to its end (R247), and no length wraps. -/
theorem exec_pngEncode_canEncode {s : State} {scan : Bytes} (h : s.CanEncode scan) :
    exec .pngEncode s = .next (s.atEnd scan).complete ∧ scan.length < 2 ^ 32 ∧
      57 + (zStream s.cfg.compMode scan).length < 2 ^ 32 := by
  obtain ⟨hc, ha, hp, hscan, hz, hout⟩ := h
  rcases encodeRun_cases hc ha with ⟨hnp, -, -⟩ | ⟨scan', hs', -, hrun⟩
  · exact absurd hp hnp
  · obtain rfl := isScan_unique (isScan_of_scanlines hs') hscan
    refine ⟨?_, length_scanlines_lt hc ha hs', hout.trans_lt (capacities_lt hc).2⟩
    rcases hrun with ⟨hz', -⟩ | ⟨-, ho', -⟩ | ⟨-, -, ho', -⟩ | ⟨-, -, hgo⟩
    · omega
    · omega
    · omega
    · exact congrArg Flow.finishEncode hgo

end Sys2Proof.Machine
end

section
/-! The statements of 30_encoding.md. -/

namespace Sys2Proof.Machine

/-- Settles O3: the illegal words are those no row of the opcode map selects, and `perform` answers
each with the same raise. -/
theorem illegalWordsRaiseIllegalCommand : Obligations.IllegalWordsRaiseIllegalCommand := by
  unfold Obligations.IllegalWordsRaiseIllegalCommand
  refine ⟨fun w => ?_, fun s hb ⟨e, he⟩ => (engineStep_busy hb).trans (perform_error he)⟩
  rw [decode_eq_error_iff_fields, opcodes_eq, TakesImmediate, not_or, and_assoc]
  rfl

/-- Settles O13: `Validate` passes or rejects, and where it passes the buffer is there exactly when
the pixels have been written. -/
theorem scanBuildsScanlineBuffer : Obligations.ScanBuildsScanlineBuffer := by
  unfold Obligations.ScanBuildsScanlineBuffer
  refine fun s hc => ⟨by decide, fun ha hp => ?_, exec_pngScan_unwritten, exec_pngScan_rejected⟩
  obtain ⟨bs, hbs, hexec⟩ := exec_pngScan_written ha hp
  have hlen := length_scanlines hbs
  refine ⟨_, hexec, ?_, fun r hr => ?_, fun r hr j hj => ?_, fun a h => ?_, rfl⟩
  · rw [← hlen]
    exact Nat.mod_eq_of_lt (length_scanlines_lt hc ha hbs)
  · exact read_setScan_scanlines hbs hr (j := 0) (by omega)
  · rw [Nat.add_assoc, Nat.add_comm 1 j]
    exact read_setScan_scanlines hbs hr (by omega)
  · exact Memory.read_write_outside s.scan 0 bs a (by omega)

/-- Settles O15: the run reaches its end, the four appends of R247 put out the four parts of R100
(`atEnd_outIs`), and `SCAN` and `ZBUF` are written from index 0. -/
theorem encodeEmitsPngStream : Obligations.EncodeEmitsPngStream := by
  unfold Obligations.EncodeEmitsPngStream
  intro s scan h z
  obtain ⟨hexec, hscan, hz⟩ := exec_pngEncode_canEncode h
  have hout := (outIs_complete ..).2 (atEnd_outIs s scan hz)
  obtain ⟨⟨hscanEq, hscanLen⟩, ⟨hzEq, hzLen⟩, herr, hbits⟩ := atEnd_fields s scan
  have hscanBuf := Memory.holdsOver_write s.scan hscan
  have hzBuf := Memory.holdsOver_write s.zbuf ((Nat.le_add_left _ 57).trans_lt hz)
  rw [← hscanEq, ← hscanLen, ← State.complete_scan, ← State.complete_scanLen] at hscanBuf
  rw [← hzEq, ← hzLen, ← State.complete_zbuf, ← State.complete_zLen] at hzBuf
  have hframe := eq_of_encodeFrame (exec_inputs (by decide) hexec) herr hbits ⟨rfl, rfl, rfl⟩
  generalize (s.atEnd scan).complete = t at *
  refine ⟨t, hexec, hout.1, fun P hP => ?_, hout.2, hscanBuf.1, hscanBuf.2, hzBuf.1, hzBuf.2,
    hframe⟩
  obtain rfl := Option.some.inj (hout.1.symm.trans hP)
  rfl

/-- Settles O33: each sequence completes with the fold over the message in its unit, and the view of
that fold is the checksum. -/
theorem messagePseudoInstructions : Obligations.MessagePseudoInstructions := by
  unfold Obligations.MessagePseudoInstructions
  intro m s h
  have hb : s.busy = false := h.1
  obtain ⟨w, hcrc⟩ := runWords_crcMessage h m
  obtain ⟨w', hadl⟩ := runWords_adlMessage h m
  refine ⟨⟨_, hcrc, readRegister_crcVal rfl, ?_⟩, ⟨_, hadl, ?_, ?_⟩⟩
  · rw [hb]; rfl
  · exact (readRegister_adlerVal rfl).trans (adlerVal_eq_append _)
  · rw [hb]; rfl

/-- Settles O41: the bits put out are kept in order by `PutBit` (`holds_putBit`), and the two kinds
of field are indexed from the low and from the high end. -/
theorem bitsArePackedLowBitFirst : Obligations.BitsArePackedLowBitFirst := by
  unfold Obligations.BitsArePackedLowBitFirst
  refine ⟨fun bits => ?_, fun v n i hi => ⟨length_fieldBits v n, getElem?_fieldBits v hi⟩,
    fun c n i hi => ⟨length_codeBits c n, getElem?_codeBits c hi⟩⟩
  obtain ⟨hlen, hbits⟩ := flushBits_output (holds_putBitList holds_start bits)
  exact ⟨hlen, fun k _ => hbits k⟩

end Sys2Proof.Machine
end

section
/-! SUPPORT. The algebra of the CRC step (40_crc32.md R151, R159): the shifts are linear over GF(2)
and injective, and the bits above the low byte of a word pass through them. -/

namespace Sys2Proof.Machine

/-- One shift, the selected polynomial as an operand of the xor (R159 (b)). -/
theorem crcShift_eq_xor (c : Word) :
    crcShift c = (c >>> 1) ^^^ (if c.getLsbD 0 then crcPoly else 0) := by
  unfold crcShift
  split
  · rfl
  · exact BitVec.xor_zero.symm

/-- One shift is linear over GF(2) (R159 (a)). -/
theorem crcShift_xor (c d : Word) : crcShift (c ^^^ d) = crcShift c ^^^ crcShift d := by
  have hsel (x y : Bool) : (if x ^^ y then crcPoly else 0) =
      (if x then crcPoly else 0) ^^^ (if y then crcPoly else 0) := by
    cases x <;> cases y <;> rfl
  rw [crcShift_eq_xor, BitVec.ushiftRight_xor_distrib, BitVec.getLsbD_xor, hsel, crcShift_eq_xor,
    crcShift_eq_xor]
  ac_rfl

/-- The eight shifts are linear over GF(2) (R159 (a)). -/
theorem crcShift8_xor (c d : Word) : crcShift8 (c ^^^ d) = crcShift8 c ^^^ crcShift8 d := by
  simp only [crcShift8, crcShift_xor]

/-- `crc_step` of a xor (R159 (a)). -/
theorem crcStep_xor (c d : Word) (b : Byte) :
    crcStep (c ^^^ d) b = crcStep c b ^^^ crcShift8 d := by
  rw [crcStep, crcStep, ← crcShift8_xor]
  ac_rfl

/-- The bit shifted out is the top bit of the result, since bit 31 of `CRC_POLY` is 1 (R159 (b)). -/
theorem getLsbD_crcShift_31 (c : Word) : (crcShift c).getLsbD 31 = c.getLsbD 0 := by
  have hpoly : crcPoly.getLsbD 31 = true := rfl
  rw [crcShift_eq_xor, BitVec.getLsbD_xor]
  cases c.getLsbD 0 <;> simp [hpoly]

/-- The register before a shift, from the one after it and the bit shifted out (R159 (b)). -/
theorem crcShift_inverse (c : Word) :
    c = ((crcShift c ^^^ (if c.getLsbD 0 then crcPoly else 0)) <<< 1) |||
      (if c.getLsbD 0 then 1 else 0) := by
  rw [crcShift_eq_xor, BitVec.xor_assoc, BitVec.xor_self, BitVec.xor_zero]
  ext i hi
  cases i with
  | zero => cases h : c.getLsbD 0 <;> simp_all [BitVec.getLsbD_eq_getElem]
  | succ i => cases c.getLsbD 0 <;> simp [Nat.add_comm 1 i, BitVec.getLsbD_eq_getElem hi]

theorem crcShift_injective : Function.Injective crcShift := by
  intro c d h
  have hbit : c.getLsbD 0 = d.getLsbD 0 := by
    rw [← getLsbD_crcShift_31 c, ← getLsbD_crcShift_31 d, h]
  rw [crcShift_inverse c, crcShift_inverse d, h, hbit]

/-- As each shift can be undone, so can the eight (R159 (b)). -/
theorem crcShift8_injective : Function.Injective crcShift8 := by
  intro c d h
  iterate 8 replace h := crcShift_injective h
  exact h

/-- Two registers that differ still differ after the same byte (R160's proof). -/
theorem crcStep_left_injective (b : Byte) : Function.Injective (crcStep · b) := fun _ _ h =>
  (BitVec.xor_left_inj _).1 (crcShift8_injective h)

/-- Two bytes that differ leave one register in two states (R160's proof). -/
theorem crcStep_right_injective (c : Word) : Function.Injective (crcStep c) := by
  intro x y h
  have hz : x.setWidth 32 = y.setWidth 32 := (BitVec.xor_right_inj _).1 (crcShift8_injective h)
  simpa using congrArg (BitVec.setWidth 8) hz

theorem crcFold_left_injective (m : Bytes) : Function.Injective (crcFold · m) := by
  induction m with
  | nil => exact fun _ _ h => h
  | cons b m ih => exact fun _ _ h => crcStep_left_injective b (ih h)

theorem crcShift_ushiftRight {w : Word} {k : Nat} (h : w.getLsbD k = false) :
    crcShift (w >>> k) = w >>> (k + 1) := by
  rw [crcShift_eq_xor, BitVec.getLsbD_ushiftRight, Nat.add_zero, h, BitVec.shiftRight_add]
  exact BitVec.xor_zero

/-- Where the low byte is 0, no shift selects the polynomial. -/
theorem crcShift8_of_low_clear {w : Word} (h : ∀ k < 8, w.getLsbD k = false) :
    crcShift8 w = w >>> 8 := by
  have hfirst : crcShift w = w >>> 1 := crcShift_ushiftRight (k := 0) (h 0 (by decide))
  simp only [crcShift8, hfirst, crcShift_ushiftRight (h _ _), Nat.reduceLT, Nat.reduceAdd]

/-- Of a word xored into the register, the low byte is taken in as by `crc_step`, and the rest moves
down unchanged: why R153's table form and R161's residue hold. -/
theorem crcShift8_xor_word (c w : Word) :
    crcShift8 (c ^^^ w) = crcStep c (w.setWidth 8) ^^^ (w >>> 8) := by
  have hsplit : w = (w.setWidth 8).setWidth 32 ^^^ (w >>> 8) <<< 8 := by
    ext i hi
    by_cases h : i < 8
    · simp [h, BitVec.getLsbD_eq_getElem hi]
    · simp [h, Nat.add_sub_of_le (Nat.le_of_not_lt h), BitVec.getLsbD_eq_getElem hi]
  have hlow : ∀ k < 8, ((w >>> 8) <<< 8).getLsbD k = false := by
    intro k hk
    simp [hk]
  have hhigh : (w >>> 8) <<< 8 >>> 8 = w >>> 8 := by
    ext i hi
    by_cases h : 8 + i < 32
    · simp [h]
    · simp [h, BitVec.getLsbD_of_ge w _ (Nat.le_of_not_lt h)]
  conv_lhs => rw [hsplit, ← BitVec.xor_assoc, crcShift8_xor, crcShift8_of_low_clear hlow, hhigh]
  rfl

/-- Feeding the four bytes of a word, least significant first, is 32 shifts of the register xored
with the word. -/
theorem crcFold_reverse_be32 (c w : Word) :
    crcFold c (be32 w).reverse = crcShift8 (crcShift8 (crcShift8 (crcShift8 (c ^^^ w)))) := by
  have hout : w >>> 8 >>> 8 >>> 8 >>> 8 = 0#32 := by
    ext i hi
    simp
  rw [crcShift8_xor_word c, crcShift8_xor_word, crcShift8_xor_word, crcShift8_xor_word, hout,
    BitVec.xor_zero]
  simp only [← BitVec.shiftRight_add]
  rfl

/-- The CRC of a message and its own CRC, least significant byte first, is one constant (R161). -/
theorem crc32_residue (m : Bytes) : crc32 (m ++ (be32 (crc32 m)).reverse) = 0x2144DF1C := by
  have hones : crcFold crcInitial m ^^^ crc32 m = 0xFFFFFFFF := by
    rw [crc32, ← BitVec.xor_assoc, BitVec.xor_self, BitVec.zero_xor]
  have hres : crcShift8 (crcShift8 (crcShift8 (crcShift8 0xFFFFFFFF))) ^^^ 0xFFFFFFFF =
    0x2144DF1C := by decide +kernel
  rw [crc32, crcFold_append, crcFold_reverse_be32, hones, hres]

/-- The 256 entries of R153 are the eight shifts of their indexes. -/
theorem crcTable_eq : crcTable = (List.range 256).map fun n => crcShift8 (BitVec.ofNat 32 n) := by
  decide +kernel

theorem getElem?_crcTable {n : Nat} (h : n < 256) :
    crcTable[n]? = some (crcShift8 (BitVec.ofNat 32 n)) := by
  rw [crcTable_eq, List.getElem?_map, List.getElem?_range h]
  rfl

/-- The table form (R153): the table gives the eight shifts of the low byte, and the rest of the
register moves down. -/
theorem crcStep_eq_crcStepByTable (c : Word) (b : Byte) : crcStep c b = crcStepByTable c b := by
  have hhigh : (c ^^^ b.setWidth 32) >>> 8 = c >>> 8 := by
    ext i hi
    simp
  rw [crcStepByTable, crcStep]
  generalize c ^^^ b.setWidth 32 = x at *
  have hlow : (x.setWidth 8).setWidth 32 = x &&& 0xFF := by
    apply BitVec.eq_of_toNat_eq
    rw [BitVec.toNat_setWidth_of_le (by decide), BitVec.toNat_setWidth, BitVec.toNat_and]
    exact (Nat.and_two_pow_sub_one_eq_mod x.toNat 8).symm
  have hlt : (x &&& 0xFF).toNat < 256 := by
    rw [← hlow, BitVec.toNat_setWidth_of_le (by decide)]
    exact BitVec.isLt _
  have hx : crcShift8 x = crcShift8 (x &&& 0xFF) ^^^ (c >>> 8) := by
    have h := crcShift8_xor_word 0#32 x
    rwa [BitVec.zero_xor, crcStep, BitVec.zero_xor, hlow, hhigh] at h
  rw [List.getD_eq_getElem?_getD, getElem?_crcTable hlt, Option.getD_some, BitVec.ofNat_toNat,
    BitVec.setWidth_eq, hx]

end Sys2Proof.Machine
end

section
/-! SUPPORT. What a changed byte or an inverted bit does to the CRC (40_crc32.md R160). -/

namespace Sys2Proof.Machine

/-- R160: the registers differ after the changed byte and at every byte after it. -/
theorem crc32_ne_of_byte_ne (a b : Bytes) {x y : Byte} (h : x ≠ y) :
    crc32 (a ++ [x] ++ b) ≠ crc32 (a ++ [y] ++ b) := by
  intro he
  have hf := (BitVec.xor_left_inj _).1 he
  rw [crcFold_append, crcFold_append, crcFold_append, crcFold_append] at hf
  exact h (crcStep_right_injective _ (crcFold_left_injective b hf))

theorem flipBit_byte_ne (b : Byte) {k : Nat} (hk : k < 8) : b ^^^ BitVec.twoPow 8 k ≠ b := by
  intro h
  have hbit := congrArg (·.getLsbD k) h
  simp [hk] at hbit

theorem crc32_flipBit_ne {m : Bytes} {i k : Nat} (hi : i < m.length) (hk : k < 8) :
    crc32 (flipBit m i k) ≠ crc32 m := by
  have hm : m = m.take i ++ [m[i]] ++ m.drop (i + 1) := by simp
  have hflip : flipBit m i k = m.take i ++ [m[i] ^^^ BitVec.twoPow 8 k] ++ m.drop (i + 1) := by
    simp [flipBit, List.modify_eq_take_cons_drop hi]
  rw [hflip]
  conv_rhs => rw [hm]
  exact crc32_ne_of_byte_ne _ _ (flipBit_byte_ne _ hk)

theorem flipBit_ne {m : Bytes} {i k : Nat} (hi : i < m.length) (hk : k < 8) : flipBit m i k ≠ m :=
  fun h => crc32_flipBit_ne hi hk (congrArg crc32 h)

theorem be32_injective : Function.Injective be32 := by
  intro v w h
  simp only [be32, List.cons.injEq, ← BitVec.toNat_inj, BitVec.extractLsb'_toNat,
    Nat.shiftRight_eq_div_pow] at h
  apply BitVec.eq_of_toNat_eq
  omega

/-- A bit inverted before a boundary leaves what stands after it. -/
theorem flipBit_append_of_lt {a : Bytes} (b : Bytes) {i : Nat} (k : Nat) (h : i < a.length) :
    (flipBit (a ++ b) i k).take a.length = flipBit a i k ∧
      (flipBit (a ++ b) i k).drop a.length = b := by
  rw [flipBit, List.take_modify, List.drop_modify_of_lt _ _ _ _ h, List.take_left, List.drop_left]
  exact ⟨rfl, rfl⟩

/-- A bit inverted after a boundary leaves what stands before it. -/
theorem flipBit_append_of_ge {a : Bytes} (b : Bytes) {i : Nat} (k : Nat) (h : a.length ≤ i) :
    (flipBit (a ++ b) i k).take a.length = a ∧
      (flipBit (a ++ b) i k).drop a.length = flipBit b (i - a.length) k := by
  rw [flipBit, List.take_modify, List.drop_modify_of_ge _ _ _ _ h, List.take_left, List.drop_left,
    List.modify_eq_self h]
  exact ⟨rfl, rfl⟩

/-- R160 for a chunk: with a bit of `type ++ data` inverted, the recomputed CRC changes and the
stored one does not; with a bit of the CRC field inverted, it is the other way round. -/
theorem crcCheck_flipBit {body : Bytes} {i k : Nat} (hi : i < body.length + 4) (hk : k < 8) :
    let damaged := flipBit (body ++ be32 (crc32 body)) i k
    damaged.drop body.length ≠ be32 (crc32 (damaged.take body.length)) := by
  intro damaged
  rcases Nat.lt_or_ge i body.length with h | h
  · obtain ⟨htake, hdrop⟩ := flipBit_append_of_lt (be32 (crc32 body)) k h
    rw [htake, hdrop]
    exact fun he => crc32_flipBit_ne h hk (be32_injective he).symm
  · obtain ⟨htake, hdrop⟩ := flipBit_append_of_ge (be32 (crc32 body)) k h
    rw [htake, hdrop]
    exact flipBit_ne (by rw [length_be32]; omega) hk

end Sys2Proof.Machine
end

section
/-! SUPPORT. The CRC register as a polynomial over GF(2) (40_crc32.md R154). -/

namespace Sys2Proof.Machine

open Polynomial

/-- The polynomial of `n` bits, the first bit the coefficient of the highest power (R154). -/
noncomputable def bitsPoly (n : Nat) (f : Nat → Bool) : (ZMod 2)[X] :=
  ∑ t ∈ Finset.range n, if f t then X ^ (n - 1 - t) else 0

theorem bitsPoly_congr {n : Nat} {f g : Nat → Bool} (h : ∀ t < n, f t = g t) :
    bitsPoly n f = bitsPoly n g :=
  Finset.sum_congr rfl fun t ht => by rw [h t (Finset.mem_range.1 ht)]

@[simp] theorem bitsPoly_false (n : Nat) : bitsPoly n (fun _ => false) = 0 := by
  simp [bitsPoly]

/-- The polynomial `I(x)` of R154, for any number of bits. -/
theorem bitsPoly_true (n : Nat) : bitsPoly n (fun _ => true) = ∑ i ∈ Finset.range n, X ^ i :=
  Finset.sum_range_reflect (fun i => (X ^ i : (ZMod 2)[X])) n

/-- Xor of bits is addition of polynomials over GF(2). -/
theorem bitsPoly_xor (n : Nat) (f g : Nat → Bool) :
    bitsPoly n (fun t => f t ^^ g t) = bitsPoly n f + bitsPoly n g := by
  rw [bitsPoly, bitsPoly, bitsPoly, ← Finset.sum_add_distrib]
  refine Finset.sum_congr rfl fun t _ => ?_
  cases f t <;> cases g t <;> simp [CharTwo.add_self_eq_zero]

/-- Of two groups of bits one after the other, the first is the higher. -/
theorem bitsPoly_add (n k : Nat) (f : Nat → Bool) :
    bitsPoly (n + k) f = X ^ k * bitsPoly n f + bitsPoly k (fun t => f (n + t)) := by
  rw [bitsPoly, Finset.sum_range_add, bitsPoly, Finset.mul_sum, bitsPoly]
  congr 1
  · refine Finset.sum_congr rfl fun t ht => ?_
    have ht := Finset.mem_range.1 ht
    rw [mul_ite, mul_zero, ← pow_add, show n + k - 1 - t = k + (n - 1 - t) by omega]
  · refine Finset.sum_congr rfl fun t _ => ?_
    rw [show n + k - 1 - (n + t) = k - 1 - t by omega]

theorem degree_bitsPoly_lt (n : Nat) (f : Nat → Bool) : (bitsPoly n f).degree < n := by
  rw [← mem_degreeLT]
  refine Submodule.sum_mem _ fun t ht => ?_
  have ht := Finset.mem_range.1 ht
  split
  · rw [mem_degreeLT, degree_X_pow]
    exact_mod_cast (by omega : n - 1 - t < n)
  · exact Submodule.zero_mem _

theorem coeff_bitsPoly {n i : Nat} (f : Nat → Bool) (hi : i < n) :
    (bitsPoly n f).coeff (n - 1 - i) = if f i then 1 else 0 := by
  rw [bitsPoly, finsetSum_coeff, Finset.sum_eq_single_of_mem i (Finset.mem_range.2 hi)]
  · cases f i <;> simp
  · intro t ht hne
    have ht := Finset.mem_range.1 ht
    split
    · rw [coeff_X_pow, if_neg (by omega)]
    · exact coeff_zero _

/-- The register as a polynomial: bit `i` is the coefficient of `x^(31-i)` (R154). -/
noncomputable def regPoly (c : Word) : (ZMod 2)[X] := bitsPoly 32 c.getLsbD

/-- A byte of a message as a polynomial: its least significant bit is fed first (R154). -/
noncomputable def bytePoly (b : Byte) : (ZMod 2)[X] := bitsPoly 8 b.getLsbD

/-- Bit `t` of a message: "each byte least significant bit first" (R154). -/
def msgBit (m : Bytes) (t : Nat) : Bool := (m.getD (t / 8) 0).getLsbD (t % 8)

/-- `M(x)` of R154. -/
noncomputable def msgPoly (m : Bytes) : (ZMod 2)[X] := bitsPoly (8 * m.length) (msgBit m)

/-- `G(x)` of R154: `x^32`, and below it the bits of `CRC_POLY`. -/
noncomputable def crcGenerator : (ZMod 2)[X] := X ^ 32 + regPoly crcPoly

theorem regPoly_xor (c d : Word) : regPoly (c ^^^ d) = regPoly c + regPoly d := by
  rw [regPoly, regPoly, regPoly, ← bitsPoly_xor]
  exact bitsPoly_congr fun _ _ => BitVec.getLsbD_xor

theorem regPoly_ones : regPoly 0xFFFFFFFF = ∑ i ∈ Finset.range 32, X ^ i := by
  rw [← bitsPoly_true]
  exact bitsPoly_congr (by decide)

/-- The byte is xored into the low end of the register, the coefficients from `x^24` up. -/
theorem regPoly_setWidth (b : Byte) : regPoly (b.setWidth 32) = X ^ 24 * bytePoly b := by
  have hlow : bitsPoly 8 (b.setWidth 32).getLsbD = bytePoly b :=
    bitsPoly_congr fun t ht => by simp [show t < 32 by omega]
  have hhigh : bitsPoly 24 (fun t => (b.setWidth 32).getLsbD (8 + t)) = 0 :=
    (bitsPoly_congr fun t _ => by simp).trans (bitsPoly_false 24)
  rw [regPoly, bitsPoly_add 8 24, hlow, hhigh, add_zero]

/-- Multiplication by `x` moves each bit down by one, and bit 0 out at `x^32`. -/
theorem X_mul_regPoly (c : Word) :
    X * regPoly c = (if c.getLsbD 0 then X ^ 32 else 0) + regPoly (c >>> 1) := by
  have hout : bitsPoly 1 (fun t => c.getLsbD (32 + t)) = 0 :=
    (bitsPoly_congr fun t _ => BitVec.getLsbD_of_ge c _ (by omega)).trans (bitsPoly_false 1)
  have htop : bitsPoly 1 c.getLsbD = if c.getLsbD 0 then 1 else 0 := by
    rw [bitsPoly, Finset.sum_range_one, pow_zero]
  have hshift : bitsPoly 32 (fun t => c.getLsbD (1 + t)) = regPoly (c >>> 1) :=
    bitsPoly_congr fun t _ => by simp
  calc X * regPoly c = bitsPoly (32 + 1) c.getLsbD := by
        rw [bitsPoly_add, hout, pow_one, add_zero, regPoly]
    _ = bitsPoly (1 + 32) c.getLsbD := rfl
    _ = (if c.getLsbD 0 then X ^ 32 else 0) + regPoly (c >>> 1) := by
        rw [bitsPoly_add, htop, hshift, mul_ite, mul_one, mul_zero]

theorem regPoly_zero : regPoly 0#32 = 0 :=
  (bitsPoly_congr fun _ _ => BitVec.getLsbD_zero).trans (bitsPoly_false 32)

/-- One shift is multiplication by `x`, with `G(x)` taken off where bit 0 leaves the register. -/
theorem X_mul_regPoly_eq_crcShift (c : Word) :
    X * regPoly c = regPoly (crcShift c) + if c.getLsbD 0 then crcGenerator else 0 := by
  rw [X_mul_regPoly, crcShift_eq_xor, regPoly_xor]
  cases c.getLsbD 0 with
  | false => simp [regPoly_zero]
  | true =>
    have hdouble := CharTwo.add_self_eq_zero (regPoly crcPoly)
    simp only [if_true, crcGenerator]
    linear_combination -hdouble

/-- In the ring of residues modulo `G(x)` one shift is multiplication by `x`. -/
theorem mk_crcShift (c : Word) :
    AdjoinRoot.mk crcGenerator (regPoly (crcShift c)) =
      AdjoinRoot.mk crcGenerator (X * regPoly c) := by
  rw [X_mul_regPoly_eq_crcShift, map_add]
  cases c.getLsbD 0 <;> simp

theorem mk_crcShift8 (c : Word) :
    AdjoinRoot.mk crcGenerator (regPoly (crcShift8 c)) =
      AdjoinRoot.mk crcGenerator (X ^ 8 * regPoly c) := by
  simp only [crcShift8, mk_crcShift, map_mul, map_pow]
  ring

/-- `crc_step` modulo `G(x)`. -/
theorem mk_crcStep (c : Word) (b : Byte) :
    AdjoinRoot.mk crcGenerator (regPoly (crcStep c b)) =
      AdjoinRoot.mk crcGenerator (X ^ 8 * regPoly c + X ^ 32 * bytePoly b) := by
  rw [crcStep, mk_crcShift8, regPoly_xor, regPoly_setWidth]
  ring_nf

/-- The bits of the first byte are the highest of the message. -/
theorem msgPoly_cons (b : Byte) (m : Bytes) :
    msgPoly (b :: m) = X ^ (8 * m.length) * bytePoly b + msgPoly m := by
  have hfirst : bitsPoly 8 (msgBit (b :: m)) = bytePoly b :=
    bitsPoly_congr fun t ht => by simp [msgBit, Nat.div_eq_of_lt ht, Nat.mod_eq_of_lt ht]
  have hrest : (fun t => msgBit (b :: m) (8 + t)) = msgBit m := by
    funext t
    simp [msgBit, Nat.add_div_left]
  rw [msgPoly, List.length_cons, Nat.mul_succ, Nat.add_comm, bitsPoly_add, hfirst, hrest, msgPoly]

theorem crcFold_cons (c : Word) (b : Byte) (m : Bytes) :
    crcFold c (b :: m) = crcFold (crcStep c b) m := rfl

/-- `fold` modulo `G(x)`: `x^32` times the message, and `x^N` times the register it starts from. -/
theorem mk_crcFold (c : Word) (m : Bytes) :
    AdjoinRoot.mk crcGenerator (regPoly (crcFold c m)) =
      AdjoinRoot.mk crcGenerator (X ^ 32 * msgPoly m + X ^ (8 * m.length) * regPoly c) := by
  induction m generalizing c with
  | nil => simp [crcFold, msgPoly, bitsPoly]
  | cons b m ih =>
    have hstep : AdjoinRoot.mk crcGenerator (X ^ (8 * m.length) * regPoly (crcStep c b)) =
        AdjoinRoot.mk crcGenerator
          (X ^ (8 * m.length) * (X ^ 8 * regPoly c + X ^ 32 * bytePoly b)) := by
      rw [map_mul, mk_crcStep, map_mul]
    rw [crcFold_cons, ih, map_add, hstep, ← map_add, msgPoly_cons, List.length_cons]
    exact congrArg (AdjoinRoot.mk crcGenerator) (by ring)

theorem degree_regPoly_lt (c : Word) : (regPoly c).degree < 32 := degree_bitsPoly_lt 32 _

theorem crcGenerator_monic : crcGenerator.Monic := monic_X_pow_add (degree_regPoly_lt crcPoly)

theorem degree_crcGenerator : crcGenerator.degree = 32 := by
  have hX : (X ^ 32 : (ZMod 2)[X]).degree = 32 := degree_X_pow 32
  have hlt : (regPoly crcPoly).degree < (X ^ 32 : (ZMod 2)[X]).degree := by
    rw [hX]
    exact degree_regPoly_lt crcPoly
  rw [crcGenerator, degree_add_eq_left_of_degree_lt hlt, hX]

/-- The register has degree at most 31, so it is the remainder itself. -/
theorem regPoly_crcFold (c : Word) (m : Bytes) :
    regPoly (crcFold c m) =
      (X ^ 32 * msgPoly m + X ^ (8 * m.length) * regPoly c) %ₘ crcGenerator := by
  rw [← modByMonic_eq_of_dvd_sub crcGenerator_monic (AdjoinRoot.mk_eq_mk.1 (mk_crcFold c m))]
  refine ((modByMonic_eq_self_iff crcGenerator_monic).2 ?_).symm
  rw [degree_crcGenerator]
  exact degree_regPoly_lt _

theorem coeff_regPoly (c : Word) {i : Nat} (hi : i < 32) :
    c.getLsbD i = decide ((regPoly c).coeff (31 - i) = 1) := by
  rw [regPoly, coeff_bitsPoly c.getLsbD hi]
  cases c.getLsbD i <;> rfl

/-- `G(x)` as R154 writes it out. -/
theorem crcGenerator_eq : crcGenerator =
    X ^ 32 + X ^ 26 + X ^ 23 + X ^ 22 + X ^ 16 + X ^ 12 + X ^ 11 + X ^ 10 +
      X ^ 8 + X ^ 7 + X ^ 5 + X ^ 4 + X ^ 2 + X + 1 := by
  simp [crcGenerator, regPoly, bitsPoly, Finset.sum_range_succ, crcPoly]
  ring

/-- The polynomial of `crc32(m)` is `R(x)` of R154. -/
theorem regPoly_crc32 (m : Bytes) :
    regPoly (crc32 m) =
      (X ^ 32 * msgPoly m + X ^ (8 * m.length) * ∑ i ∈ Finset.range 32, X ^ i) %ₘ crcGenerator +
        ∑ i ∈ Finset.range 32, X ^ i := by
  rw [crc32, regPoly_xor, regPoly_crcFold, crcInitial, regPoly_ones]

end Sys2Proof.Machine
end

section
/-! SUPPORT. The words of the commands (30_encoding.md R90), and when the host cannot issue one
(44_system.md R282). -/

namespace Sys2Proof

theorem encode_injective : Function.Injective encode := by
  intro i j h
  have hd := congrArg decode h
  rw [decode_encode, decode_encode] at hd
  exact Except.ok.inj hd

/-- Format `C` with the fields in their places (R90). -/
theorem commandWord_eq_or (op imm8 : Byte) :
    commandWord op imm8 = (imm8.setWidth 32 <<< 8) ||| op.setWidth 32 := by
  refine BitVec.eq_of_getLsbD_eq fun i hi => ?_
  rw [commandWord, BitVec.getLsbD_append, BitVec.getLsbD_append, BitVec.getLsbD_or]
  by_cases h : i < 8
  · simp [h, hi]
  · have hop : op.getLsbD i = false := BitVec.getLsbD_of_ge op i (Nat.le_of_not_lt h)
    simpa [h, hi, hop] using BitVec.lt_of_getLsbD

end Sys2Proof

namespace Sys2Proof.Machine

/-- A command other than `SRST` is refused while busy and while in error (R282). -/
theorem writeRegister_encode_refused {s : State} {i : Instr} (h : s.busy = true ∨ s.err ≠ none)
    (hi : i ≠ .srst) : writeRegister 0x00 (encode i) s = s := by
  have hw : encode i ≠ 1#32 := encode_injective.ne hi
  cases hb : s.busy with
  | true => simp [writeRegister, hb]
  | false =>
    have he : s.err ≠ none := h.resolve_left (by simp [hb])
    simp [writeRegister, registerAt, issue, hb, he, hw]

end Sys2Proof.Machine
end

section
/-! The statements of 40_crc32.md. -/

namespace Sys2Proof.Machine

/-- Settles O34, by `crcTable_eq` and the table form of `crc_step`. -/
theorem crcTableFormAgrees : Obligations.CrcTableFormAgrees := by
  unfold Obligations.CrcTableFormAgrees
  refine ⟨fun n hn => ?_, crcStep_eq_crcStepByTable⟩
  rw [getElem?_crcTable hn, crcStep]
  exact congrArg (fun x => some (crcShift8 x)) BitVec.xor_zero.symm

/-- Settles O35: the shifts are linear one by one, and each is undone from the bit it shifts out. -/
theorem crcStepLinearAndInvertible : Obligations.CrcStepLinearAndInvertible := by
  unfold Obligations.CrcStepLinearAndInvertible
  refine ⟨fun _ _ => rfl, crcShift8_xor, rfl, crcStep_xor,
    Finite.injective_iff_bijective.1 crcShift8_injective, fun c => ?_⟩
  simp only [getLsbD_crcShift_31]
  exact ⟨trivial, crcShift_inverse c⟩

/-- Settles O37: bytes in the same place differ, so the registers differ from there on. -/
theorem crcDetectsOneChangedByte : Obligations.CrcDetectsOneChangedByte := by
  unfold Obligations.CrcDetectsOneChangedByte
  refine ⟨fun a b x y => crc32_ne_of_byte_ne a b, fun type data i k htype hk hi => ?_⟩
  have hlen : 4 + data.length = (type ++ data).length := by rw [List.length_append, htype]
  rw [hlen] at hi ⊢
  exact crcCheck_flipBit hi hk

/-- Settles O38: appended least significant byte first, the CRC turns the register to all ones
before the 32 shifts; appended big-endian, it gives two values, for `[]` and for `[0]`. -/
theorem crcResidueOnlyLittleEndian : Obligations.CrcResidueOnlyLittleEndian := by
  unfold Obligations.CrcResidueOnlyLittleEndian
  exact ⟨crc32_residue, [], [0], by decide +kernel⟩

/-- Settles O39: `R` is the polynomial of `crc32(m)` (`regPoly_crc32`). -/
theorem crcIsPolynomialRemainder : Obligations.CrcIsPolynomialRemainder := by
  unfold Obligations.CrcIsPolynomialRemainder
  intro m N u G M I R
  have hG : G = crcGenerator := crcGenerator_eq.symm
  have hR : R = regPoly (crc32 m) := by
    rw [regPoly_crc32, ← hG]
    rfl
  rw [hR]
  exact ⟨degree_regPoly_lt _, fun i => coeff_regPoly _⟩

/-- Settles O8: the four results are their definitions; the words are format `C`, and none of them
is `SRST`'s. -/
theorem checksumCommandResults : Obligations.ChecksumCommandResults := by
  unfold Obligations.ChecksumCommandResults
  refine ⟨fun _ => rfl, fun _ _ => rfl, fun _ => rfl, fun _ _ => rfl, rfl, rfl,
    fun b => ⟨commandWord_eq_or _ _, commandWord_eq_or _ _⟩, fun b s h i hi => ?_⟩
  refine writeRegister_encode_refused h ?_
  rintro rfl
  simp at hi

/-- Settles O36, by `crcFold_append`. -/
theorem crcIncrementalLaw : Obligations.CrcIncrementalLaw := by
  unfold Obligations.CrcIncrementalLaw
  exact ⟨crcFold_append, fun _ => rfl⟩

end Sys2Proof.Machine
end

section
/-! SUPPORT. The two Adler sums over a message, and where a zlib stream holds them (41_adler32.md
R180; 30_encoding.md R108). -/

namespace Sys2Proof.Machine

/-- `adler_step` on natural numbers (R180): each sum fits in its 16 bits. -/
theorem adlerStep_toNat (ab : BitVec 16 × BitVec 16) (x : Byte) :
    (adlerStep ab x).1.toNat = (ab.1.toNat + x.toNat) % adlerMod ∧
      (adlerStep ab x).2.toNat = (ab.2.toNat + (ab.1.toNat + x.toNat) % adlerMod) % adlerMod := by
  have hfits (n : Nat) : (BitVec.ofNat 16 (n % adlerMod)).toNat = n % adlerMod := by
    rw [BitVec.toNat_ofNat]
    exact Nat.mod_eq_of_lt ((Nat.mod_lt n (by decide)).trans (by decide))
  exact ⟨hfits _, hfits _⟩

/-- The sum of the bytes of a message. -/
def byteSum (m : Bytes) : Nat := ∑ i ∈ Finset.range m.length, (m.getD i 0).toNat

/-- The sum of the bytes of a message, each as often as the second Adler sum counts it: the first
byte as often as the message is long, the last once. -/
def weightedByteSum (m : Bytes) : Nat :=
  ∑ i ∈ Finset.range m.length, (m.length - i) * (m.getD i 0).toNat

theorem byteSum_cons (x : Byte) (m : Bytes) : byteSum (x :: m) = byteSum m + x.toNat :=
  Finset.sum_range_succ' ..

theorem weightedByteSum_cons (x : Byte) (m : Bytes) :
    weightedByteSum (x :: m) = weightedByteSum m + (m.length + 1) * x.toNat := by
  rw [weightedByteSum, List.length_cons, Finset.sum_range_succ', weightedByteSum]
  simp only [List.getD_cons_succ, List.getD_cons_zero, Nat.add_sub_add_right, Nat.sub_zero]

/-- The sums after a message, modulo `ADLER_MOD`, from any sums: the first sum before the message
counts once in the second for each byte. -/
theorem adlerFold_modEq (ab : BitVec 16 × BitVec 16) (m : Bytes) :
    (adlerFold ab m).1.toNat ≡ ab.1.toNat + byteSum m [MOD adlerMod] ∧
      (adlerFold ab m).2.toNat ≡
        ab.2.toNat + m.length * ab.1.toNat + weightedByteSum m [MOD adlerMod] := by
  induction m generalizing ab with
  | nil => exact ⟨rfl, by simp [adlerFold, weightedByteSum, Nat.ModEq.refl]⟩
  | cons x m ih =>
    obtain ⟨ihA, ihB⟩ := ih (adlerStep ab x)
    obtain ⟨hA, hB⟩ := adlerStep_toNat ab x
    have hstepA : (adlerStep ab x).1.toNat ≡ ab.1.toNat + x.toNat [MOD adlerMod] :=
      hA ▸ Nat.mod_modEq _ _
    have hstepB : (adlerStep ab x).2.toNat ≡ ab.2.toNat + (ab.1.toNat + x.toNat) [MOD adlerMod] :=
      hB ▸ (Nat.mod_modEq _ _).trans ((Nat.mod_modEq _ _).add_left _)
    constructor
    · calc (adlerFold ab (x :: m)).1.toNat
          ≡ (adlerStep ab x).1.toNat + byteSum m [MOD adlerMod] := ihA
        _ ≡ ab.1.toNat + x.toNat + byteSum m [MOD adlerMod] := hstepA.add_right _
        _ = ab.1.toNat + byteSum (x :: m) := by rw [byteSum_cons]; ring
    · calc (adlerFold ab (x :: m)).2.toNat
          ≡ (adlerStep ab x).2.toNat + m.length * (adlerStep ab x).1.toNat + weightedByteSum m
            [MOD adlerMod] := ihB
        _ ≡ ab.2.toNat + (ab.1.toNat + x.toNat) + m.length * (ab.1.toNat + x.toNat) +
              weightedByteSum m [MOD adlerMod] :=
            (hstepB.add (hstepA.mul_left _)).add_right _
        _ = ab.2.toNat + (x :: m).length * ab.1.toNat + weightedByteSum (x :: m) := by
            rw [weightedByteSum_cons, List.length_cons]; ring

/-- Both sums in closed form: from the initial `(1, 0)` they stay reduced (`adlerFold_range`). -/
theorem adlerFold_initial_toNat (m : Bytes) :
    (adlerFold adlerInitial m).1.toNat = (1 + byteSum m) % adlerMod ∧
      (adlerFold adlerInitial m).2.toNat = (m.length + weightedByteSum m) % adlerMod := by
  obtain ⟨hltA, hltB⟩ := adlerFold_range adlerInitial_range m
  obtain ⟨hA, hB⟩ := adlerFold_modEq adlerInitial m
  have hstart : adlerInitial.2.toNat + m.length * adlerInitial.1.toNat = m.length := by
    simp [adlerInitial]
  rw [hstart] at hB
  exact ⟨(Nat.mod_eq_of_lt hltA).symm.trans hA, (Nat.mod_eq_of_lt hltB).symm.trans hB⟩

/-- The second sum is the high half of the checksum (R180). -/
theorem adler32_toNat (m : Bytes) :
    (adler32 m).toNat =
      (adlerFold adlerInitial m).2.toNat * 65536 + (adlerFold adlerInitial m).1.toNat := by
  rw [adler32, BitVec.toNat_append, ← Nat.shiftLeft_add_eq_or_of_lt (BitVec.isLt _),
    Nat.shiftLeft_eq]

theorem adlerMod_prime : Nat.Prime adlerMod := by
  norm_num [adlerMod]

/-- Each of the 14 numbers from 65522 to `2^16 - 1` has a proper divisor. -/
theorem prime_le_adlerMod {p : Nat} (hp : p.Prime) (hlt : p < 2 ^ 16) : p ≤ adlerMod := by
  by_contra hgt
  rw [adlerMod, Nat.not_le] at hgt
  interval_cases p <;> norm_num at hp

/-- A zlib stream ends with the checksum of the uncompressed data (R108). -/
theorem zlibWrap_trailer (deflateData s : Bytes) :
    (zlibWrap deflateData s).drop ((zlibWrap deflateData s).length - 4) = be32 (adler32 s) := by
  have hstart : (zlibHeader ++ deflateData).length = (zlibWrap deflateData s).length - 4 := by
    rw [zlibWrap, List.length_append (bs := be32 _), length_be32, Nat.add_sub_cancel]
  exact List.drop_left' hstart

/-- Under either instance the compressor's stream is deflate data in the zlib wrapper (R204). -/
theorem zStream_eq_zlibWrap {mode : CompMode} (h : mode ≠ .other) (s : Bytes) :
    ∃ deflateData, zStream mode s = zlibWrap deflateData s := by
  cases mode with
  | fixedLz => exact ⟨deflateFixedLz s, rfl⟩
  | stored => exact ⟨deflateStored s, rfl⟩
  | other => exact absurd rfl h

end Sys2Proof.Machine
end

section
/-! The statement of 41_adler32.md. -/

namespace Sys2Proof.Machine

/-- Settles O40: the closed form is that of the two sums (`adlerFold_initial_toNat`), the second
above the first; the trailer is the zlib wrapper's. -/
theorem adlerClosedForm : Obligations.AdlerClosedForm := by
  unfold Obligations.AdlerClosedForm
  refine ⟨adlerStep_toNat, fun m => ?_, rfl, rfl, ⟨adlerMod_prime, fun _ => prime_le_adlerMod⟩,
    fun mode s hmode => ?_⟩
  · obtain ⟨hA, hB⟩ := adlerFold_initial_toNat m
    rw [adler32_toNat, hA, hB]
    rfl
  · obtain ⟨deflateData, hz⟩ := zStream_eq_zlibWrap hmode s
    rw [hz]
    exact zlibWrap_trailer deflateData s

end Sys2Proof.Machine
end

section
/-! SUPPORT. The longest match at a position, and the nearest of the longest (42_deflate.md R196). -/

namespace Sys2Proof.Machine

/-- The shared lengths are those within the bound and the first sequence up to which the two agree;
`sharedLength` is the largest of them. -/
theorem le_sharedLength_iff {len n : Nat} {xs ys : Bytes} :
    len ≤ sharedLength n xs ys ↔ len ≤ n ∧ len ≤ xs.length ∧ ∀ k < len, xs[k]? = ys[k]? := by
  induction len generalizing n xs ys with
  | zero => simp
  | succ len ih =>
    cases n with
    | zero => simp [sharedLength]
    | succ n =>
      cases xs with
      | nil => simp [sharedLength]
      | cons x xs =>
        cases ys with
        | nil =>
          exact iff_of_false (by simp [sharedLength]) fun ⟨_, _, h⟩ => nomatch h 0 len.succ_pos
        | cons y ys =>
          have hcons : (∀ k < len + 1, (x :: xs)[k]? = (y :: ys)[k]?) ↔
              x = y ∧ ∀ k < len, xs[k]? = ys[k]? := by
            rw [Nat.forall_lt_succ_left]
            simp
          rw [hcons, sharedLength]
          by_cases hxy : x = y
          · simp [hxy, ih]
          · simp [hxy]

/-- The length of the match at distance `d` from position `i`: R196's `len` for one `d`. -/
def matchLength (s : Bytes) (i d : Nat) : Nat :=
  sharedLength (min maxMatch (s.length - i)) (s.drop i) (s.drop (i - d))

/-- A match at distance `d` is as long as `matchLength` or shorter. -/
theorem le_matchLength_iff {s : Bytes} {i : Nat} (hi : i ≤ s.length) (d len : Nat) :
    len ≤ matchLength s i d ↔
      len ≤ maxMatch ∧ i + len ≤ s.length ∧ ∀ k < len, s[i + k]? = s[i - d + k]? := by
  simp only [matchLength, le_sharedLength_iff, List.length_drop, List.getElem?_drop, le_min_iff]
  constructor
  · rintro ⟨⟨hmax, hdata⟩, -, hmatch⟩
    exact ⟨hmax, by omega, hmatch⟩
  · rintro ⟨hmax, hdata, hmatch⟩
    exact ⟨⟨hmax, by omega⟩, by omega, hmatch⟩

/-- The body of R196's loop, by the length of the match at its distance. -/
theorem betterMatch_eq (s : Bytes) (i : Nat) (best : Nat × Nat) (d : Nat) :
    betterMatch s i (min maxMatch (s.length - i)) best d =
      if best.1 < matchLength s i d then (matchLength s i d, d) else best := rfl

/-- `best` is a longest match among the distances 1 to `n`, at the smallest distance that reaches its
length; `(0, 0)` where no distance has a match. -/
structure IsNearestLongest (s : Bytes) (i n : Nat) (best : Nat × Nat) : Prop where
  inRange : best.2 ≤ n
  noMatch : best.1 = 0 → best.2 = 0
  attained : 0 < best.1 → 1 ≤ best.2 ∧ best.1 = matchLength s i best.2
  longest : ∀ d, 1 ≤ d → d ≤ n → matchLength s i d ≤ best.1
  nearest : ∀ d, 1 ≤ d → d ≤ n → matchLength s i d = best.1 → best.2 ≤ d

theorem isNearestLongest_zero (s : Bytes) (i : Nat) : IsNearestLongest s i 0 (0, 0) where
  inRange := Nat.le_refl 0
  noMatch _ := rfl
  attained h := absurd h (Nat.lt_irrefl 0)
  longest d h1 h0 := by omega
  nearest d h1 h0 := by omega

/-- One turn of R196's loop: the next distance is the farthest so far, so a tie keeps the best. -/
theorem isNearestLongest_succ {s : Bytes} {i n : Nat} {best : Nat × Nat}
    (h : IsNearestLongest s i n best) :
    IsNearestLongest s i (n + 1)
      (betterMatch s i (min maxMatch (s.length - i)) best (n + 1)) := by
  obtain ⟨hrange, hnone, hatt, hlong, hnear⟩ := h
  rw [betterMatch_eq]
  split
  case isTrue hlt =>
    refine ⟨Nat.le_refl _, fun h0 => absurd hlt (by omega), fun _ => ⟨n.succ_pos, rfl⟩,
      fun d h1 hd => ?_, fun d h1 hd heq => ?_⟩
    · rcases Nat.le_succ_iff.1 hd with hd | rfl
      · exact (hlong d h1 hd).trans hlt.le
      · exact Nat.le_refl _
    · rcases Nat.le_succ_iff.1 hd with hd | rfl
      · exact absurd heq ((hlong d h1 hd).trans_lt hlt).ne
      · exact Nat.le_refl _
  case isFalse hge =>
    refine ⟨hrange.trans n.le_succ, hnone, hatt, fun d h1 hd => ?_, fun d h1 hd heq => ?_⟩
    · rcases Nat.le_succ_iff.1 hd with hd | rfl
      · exact hlong d h1 hd
      · exact Nat.not_lt.1 hge
    · rcases Nat.le_succ_iff.1 hd with hd | rfl
      · exact hnear d h1 hd heq
      · exact hrange.trans n.le_succ

/-- R196's loop over the distances. -/
theorem isNearestLongest_foldl (s : Bytes) (i n : Nat) :
    IsNearestLongest s i n
      ((List.range' 1 n).foldl (betterMatch s i (min maxMatch (s.length - i))) (0, 0)) := by
  induction n with
  | zero => exact isNearestLongest_zero s i
  | succ n ih =>
    rw [List.range'_1_concat, List.foldl_append, Nat.add_comm 1 n]
    exact isNearestLongest_succ ih

theorem longestMatch_isNearestLongest (s : Bytes) (i : Nat) :
    IsNearestLongest s i (min i window) (longestMatch s i) := isNearestLongest_foldl s i _

end Sys2Proof.Machine
end

section
/-! SUPPORT. Everything `PNG.ZCOMP` can do (42_deflate.md R205). -/

namespace Sys2Proof.Machine

/-- Byte `k` of a sequence read is the byte written at its index, else the residue. -/
theorem Memory.getElem?_readAny (m : Memory) (residue : Nat → Byte) (a : Nat) {n k : Nat}
    (hk : k < n) :
    (m.readAny residue a n)[k]? = some ((m.read (a + k)).getD (residue (a + k))) := by
  induction n generalizing a k with
  | zero => omega
  | succ n ih =>
    cases k with
    | zero => rfl
    | succ k =>
      rw [readAny, List.getElem?_cons_succ, ih (a + 1) (by omega), Nat.add_assoc, Nat.add_comm 1 k]

/-- The data to compress holds every byte of `SCAN[0 .. SCAN_LEN)` that was written. -/
theorem getElem?_scanData {s : State} {k : Nat} (hk : k < s.scanLen.toNat) {b : Byte}
    (hb : s.scan.read k = some b) : (scanData s)[k]? = some b := by
  rw [scanData, Memory.getElem?_readAny _ _ _ hk, Nat.zero_add, hb, Option.getD_some]

theorem zCap_lt {c : Config} (h : c.wellFormed = true) : c.zCap < 2 ^ 31 := by
  simp only [Config.wellFormed, Bool.and_eq_true, decide_eq_true_eq] at h
  omega

/-- R205 before the capacity check: the Adler pass is done, the bit packer is empty
(`compress_bits`), and `Z_LEN` is 0. -/
def State.atZcompCheck (s : State) : State :=
  ((s.setPhase .zcomp).setAdler (adlerFold adlerInitial (scanData s))).startZ 0 0

/-- `PNG.ZCOMP` writes the stream where it fits, and raises `CapacityExceeded` where not (R205). -/
theorem exec_pngZcomp_cases (s : State) :
    let z := zStream s.cfg.compMode (scanData s)
    (z.length ≤ s.cfg.zCap ∧ exec .pngZcomp s = .next (s.atZcompCheck.setZ z).complete) ∨
    (s.cfg.zCap < z.length ∧
      exec .pngZcomp s = .next (s.atZcompCheck.raise .capacityExceeded)) := by
  obtain ⟨hbuf, hcnt⟩ := compress_bits s.cfg.compMode (scanData s)
  have hcases := zcompStep_cases s
  simp only [hbuf, hcnt] at hcases
  rcases hcases with ⟨hfits, hgo⟩ | ⟨hover, hraised⟩
  · exact .inl ⟨hfits, congrArg Flow.finish hgo⟩
  · exact .inr ⟨hover, congrArg Flow.finish hraised⟩

/-- `Z_LEN` and the contents of `ZBUF` after the write of a stream (R205). -/
theorem setZ_zbuf_reads (s : State) {z : Bytes} (hz : z.length < 2 ^ 32) :
    (s.setZ z).zLen.toNat = z.length ∧
      (∀ k < (s.setZ z).zLen.toNat, (s.setZ z).zbuf.read k = z[k]?) ∧
      ∀ a, (s.setZ z).zLen.toNat ≤ a → (s.setZ z).zbuf.read a = s.zbuf.read a := by
  obtain ⟨hdata, habove⟩ := Memory.holdsOver_write s.zbuf hz
  refine ⟨Nat.mod_eq_of_lt hz, fun k hk => ?_, habove⟩
  rw [Memory.getElem?_readWritten hdata hk, Nat.zero_add, State.setZ_zbuf]

/-- Under either instance the stream ends with the Adler-32 of the data (R108, R204). -/
theorem zStream_trailer {mode : CompMode} (h : mode ≠ .other) (s : Bytes) :
    (zStream mode s).drop ((zStream mode s).length - 4) = be32 (adler32 s) := by
  obtain ⟨deflateData, hz⟩ := zStream_eq_zlibWrap h s
  rw [hz]
  exact zlibWrap_trailer deflateData s

/-- The stream of no data (R202, R203): the wrapper's six bytes, and the ten bits of an empty fixed
block or the five bytes of an empty stored block. -/
theorem length_zStream_nil :
    (zStream .fixedLz []).length = 8 ∧ (zStream .stored []).length = 11 := by
  decide +kernel

theorem scanData_eq_nil {s : State} (h : s.scanLen = 0) : scanData s = [] := by
  rw [scanData, h]
  rfl

end Sys2Proof.Machine
end

section
/-! The statements of 42_deflate.md on the command and the matcher. -/

namespace Sys2Proof.Machine

/-- Settles O14: `PNG.ZCOMP` has two outcomes (`exec_pngZcomp_cases`), both after the Adler pass over
the data. -/
theorem zcompCompressesScan : Obligations.ZcompCompressesScan := by
  unfold Obligations.ZcompCompressesScan
  intro s hc z
  refine ⟨by decide, Memory.length_readAny .., fun k hk b => getElem?_scanData hk, fun hfits => ?_,
    fun hover => ?_, fun hmode => zStream_trailer hmode _, fun h0 => ?_,
    fun h => writeRegister_encode_refused h (by decide)⟩
  · rcases exec_pngZcomp_cases s with ⟨-, hexec⟩ | ⟨hover, -⟩
    · obtain ⟨hlen, hdata, habove⟩ := setZ_zbuf_reads s.atZcompCheck (z := z)
        ((hfits.trans_lt (zCap_lt hc)).trans (by decide))
      exact ⟨_, hexec, hlen, hdata, habove, adlerVal_eq_append _, rfl⟩
    · exact absurd hfits (Nat.not_le.2 hover)
  · rcases exec_pngZcomp_cases s with ⟨hfits, -⟩ | ⟨-, hexec⟩
    · exact absurd hover (Nat.not_lt.2 hfits)
    · exact ⟨_, hexec, adlerVal_eq_append _, rfl⟩
  · have hz : z = zStream s.cfg.compMode [] := congrArg (zStream s.cfg.compMode) (scanData_eq_nil h0)
    obtain ⟨hfixed, hstored⟩ := length_zStream_nil
    rw [hz]
    exact ⟨fun hm => hm ▸ hfixed, fun hm => hm ▸ hstored⟩

/-- Settles O42: the loop over the distances ends with the nearest of the longest matches
(`longestMatch_isNearestLongest`). -/
theorem longestMatchIsLongestNearest : Obligations.LongestMatchIsLongestNearest := by
  unfold Obligations.LongestMatchIsLongestNearest
  intro s i hi r isMatch
  obtain ⟨hrange, hnone, hatt, hlong, hnear⟩ : IsNearestLongest s i (min i window) r :=
    longestMatch_isNearestLongest s i
  have hdist {d : Nat} : d ≤ min i window ↔ d ≤ i ∧ d ≤ 32768 := le_min_iff
  obtain ⟨hri, hrw⟩ := hdist.1 hrange
  have hmatch : r.1 ≤ 258 ∧ i + r.1 ≤ s.length ∧ isMatch r.2 r.1 := by
    rcases Nat.eq_zero_or_pos r.1 with h0 | hpos
    · rw [h0]
      exact ⟨by omega, by omega, fun k hk => absurd hk k.not_lt_zero⟩
    · exact (le_matchLength_iff hi.le _ _).1 (hatt hpos).2.le
  obtain ⟨hmax, hdata, hm⟩ := hmatch
  refine ⟨hmax, hdata, hrw, hnone, fun hpos => ⟨(hatt hpos).1, hri, hm⟩, ?_⟩
  intro d len h1 hdi hdw hlen hend hmd
  have hd := hdist.2 ⟨hdi, hdw⟩
  have hle : len ≤ matchLength s i d := (le_matchLength_iff hi.le d len).2 ⟨hlen, hend, hmd⟩
  have hbest : matchLength s i d ≤ r.1 := hlong d h1 hd
  exact ⟨hle.trans hbest, fun _ heq => hnear d h1 hd (hbest.antisymm (heq ▸ hle))⟩

end Sys2Proof.Machine
end

section
/-! SUPPORT. What the framing commands append or raise (43_png_framing.md R240 to R246), and how
`PNG.SCAN` and `PNG.ENCODE` report `Validate`'s error (R248). -/

namespace Sys2Proof.Machine

/-- A step command that appends `Chunk(type, data)` where it fits (R240). -/
theorem emitChunk_finish_fits {type data : Bytes} {s : State} (p : Phase) (htype : type.length = 4)
    (hc : s.cfg.wellFormed = true) (hfits : s.outLen.toNat + 12 + data.length ≤ s.cfg.outCap) :
    ∃ t, (emitChunk type data (s.setPhase p)).finish = .next t ∧
      Appends (chunk type data) s t ∧ crcVal t = crc32 (type ++ data) ∧
      t = { s with out := t.out, outLen := t.outLen, crc := t.crc, phase := .idle, busy := false,
                   done := true } := by
  rcases emitChunk_cases type data (s.setPhase p) with ⟨-, hgo⟩ | ⟨hover, -⟩
  · rw [hgo, Flow.finish_go]
    refine ⟨_, rfl, ?_, rfl, rfl⟩
    refine putOut_appends (chunk type data) s ?_
    rw [length_chunk, htype]
    have := (capacities_lt hc).2
    omega
  · exact absurd hfits (Nat.not_le.2 hover)

/-- The same command where the chunk does not fit (R240). -/
theorem emitChunk_finish_over {type data : Bytes} {s : State} (p : Phase)
    (hover : s.cfg.outCap < s.outLen.toNat + 12 + data.length) :
    (emitChunk type data (s.setPhase p)).finish =
      .next ((s.setPhase p).raise .capacityExceeded) := by
  rcases emitChunk_cases type data (s.setPhase p) with ⟨hfits, -⟩ | ⟨-, hraised⟩
  · exact absurd hover (Nat.not_lt.2 hfits)
  · rw [hraised, Flow.finish_raised]

/-- The data of the IDAT chunk holds every byte of `ZBUF[0 .. Z_LEN)` that was written. -/
theorem getElem?_zData {s : State} {k : Nat} (hk : k < s.zLen.toNat) {b : Byte}
    (hb : s.zbuf.read k = some b) : (zData s)[k]? = some b := by
  rw [zData, Memory.getElem?_readAny _ _ _ hk, Nat.zero_add, hb, Option.getD_some]

theorem length_zData (s : State) : (zData s).length = s.zLen.toNat := Memory.length_readAny ..

/-- The pseudocode of `PNG.IHDR` (R243). -/
def ihdrRun (s : State) : Flow := (checkDimensions (s.setPhase .ihdr)).andThen ihdrStep

/-- The pseudocode of `PNG.SCAN` (R244). -/
def scanRun (s : State) : Flow := (validate (s.setPhase .scan)).andThen scanStep

/-- `PNG.IHDR` with dimensions that are not 0 emits its chunk (R243). -/
theorem ihdrRun_dimensions {s : State} (hw : s.width ≠ 0) (hh : s.height ≠ 0) :
    ihdrRun s = emitChunk typeIhdr (ihdrData s.width s.height) (s.setPhase .ihdr) := by
  rcases checkDimensions_cases (s.setPhase .ihdr) with ⟨-, hgo⟩ | ⟨hzero, -⟩
  · rw [ihdrRun, hgo]
    rfl
  · exact absurd hzero (not_or.2 ⟨hw, hh⟩)

/-- `PNG.IHDR` with a dimension 0 raises (R243). -/
theorem ihdrRun_zero {s : State} (h : s.width = 0 ∨ s.height = 0) :
    ihdrRun s = .raised .unsupportedDimensions (s.setPhase .ihdr) := by
  rcases checkDimensions_cases (s.setPhase .ihdr) with ⟨⟨hw, hh⟩, -⟩ | ⟨-, hraised⟩
  · exact absurd h (not_or.2 ⟨hw, hh⟩)
  · rw [ihdrRun, hraised, Flow.raised_andThen]

/-- `PNG.SCAN` on an accepted image builds the buffer (R244). -/
theorem scanRun_accepted {s : State} (h : s.ImageAccepted) :
    scanRun s = buildScan (s.setPhase .scan) := by
  have hv : validate (s.setPhase .scan) = .go (s.setPhase .scan) :=
    validate_of_accepted (s := s.setPhase .scan) h
  rw [scanRun, hv]
  rfl

/-- `PNG.SCAN` raises what `Validate` raises (R244, R248). -/
theorem scanRun_raised {s : State} {e : PngeError} (h : validate s = .raised e s) :
    scanRun s = .raised e (s.setPhase .scan) := by
  rw [scanRun, validate_setPhase_raised .scan h, Flow.raised_andThen]

theorem not_accepted_of_raised {s t : State} {e : PngeError} (h : validate s = .raised e t) :
    ¬s.ImageAccepted := fun ha => by
  rw [validate_of_accepted ha] at h
  cases h

/-- `PNG.ENCODE` raises what `Validate` raises (R247, R248). -/
theorem encodeRun_raised {s : State} {e : PngeError} (h : validate s = .raised e s) :
    encodeRun s = .raised e (s.clearLengths.setPhase .scan) := by
  obtain ⟨e', he', hrun⟩ := encodeRun_rejected (not_accepted_of_raised h)
  obtain rfl : e = e' := (Flow.raised.inj (h.symm.trans he')).1
  exact hrun

theorem toNat_eq_zero_iff (v : Word) : v.toNat = 0 ↔ v = 0 := BitVec.toNat_eq (y := 0).symm

end Sys2Proof.Machine
end

section
/-! The statements of 43_png_framing.md section 2 on the framing commands, and of R248. -/

namespace Sys2Proof.Machine

/-- Settles O9: the append fits or not (`appendOut_cases`). -/
theorem sigAppendsSignature : Obligations.SigAppendsSignature := by
  unfold Obligations.SigAppendsSignature
  refine fun s hc => ⟨by decide, fun hfits => ?_, fun hover => ?_⟩
  · rcases appendOut_cases pngSignature (s.setPhase .sig) with ⟨-, hgo⟩ | ⟨hover, -⟩
    · refine ⟨_, congrArg Flow.finish hgo, ?_, rfl⟩
      exact putOut_appends pngSignature s (hfits.trans_lt (capacities_lt hc).2)
    · exact absurd hfits (Nat.not_le.2 hover)
  · rcases appendOut_cases pngSignature (s.setPhase .sig) with ⟨hfits, -⟩ | ⟨-, hraised⟩
    · exact absurd hover (Nat.not_lt.2 hfits)
    · exact congrArg Flow.finish hraised

/-- Settles O10: the dimensions are checked first, then the chunk of 25 bytes is appended or not. -/
theorem ihdrAppendsHeaderChunk : Obligations.IhdrAppendsHeaderChunk := by
  unfold Obligations.IhdrAppendsHeaderChunk
  intro s hc body failed
  refine ⟨by decide, fun hw hh hfits => ?_, fun hz => congrArg Flow.finish (ihdrRun_zero hz),
    fun hw hh hover => ?_⟩
  · obtain ⟨t, hrun, happ, hcrc, hframe⟩ := emitChunk_finish_fits (type := typeIhdr)
      (data := ihdrData s.width s.height) .ihdr rfl hc hfits
    have hbody : typeIhdr ++ ihdrData s.width s.height = body := rfl
    have hlength : be32Nat (ihdrData s.width s.height).length = [0x00, 0x00, 0x00, 0x0D] := by
      rw [length_ihdrData]
      decide
    rw [chunk, List.append_assoc (be32Nat _), hbody, hlength] at happ
    rw [hbody] at hcrc
    exact ⟨t, (congrArg Flow.finish (ihdrRun_dimensions hw hh)).trans hrun, happ, hcrc, hframe⟩
  · exact (congrArg Flow.finish (ihdrRun_dimensions hw hh)).trans
      (emitChunk_finish_over (data := ihdrData s.width s.height) .ihdr hover)

/-- Settles O11: the chunk's data is `zData s`, of `Z_LEN` bytes. -/
theorem idatAppendsWholeStream : Obligations.IdatAppendsWholeStream := by
  unfold Obligations.IdatAppendsWholeStream
  intro s hc
  have hlen := length_zData s
  refine ⟨by decide, fun hfits => ?_, fun hover => ?_⟩
  · obtain ⟨t, hexec, happ, hcrc, hframe⟩ :=
      emitChunk_finish_fits (type := typeIdat) .idat rfl hc (hlen.symm ▸ hfits)
    refine ⟨zData s, t, hlen, fun k hk b => getElem?_zData hk, hexec, ?_, hcrc, hframe⟩
    rwa [chunk, be32Nat, hlen, BitVec.ofNat_toNat, BitVec.setWidth_eq] at happ
  · exact emitChunk_finish_over (type := typeIdat) .idat (hlen.symm ▸ hover)

/-- Settles O12: the chunk of no data is the twelve bytes. -/
theorem iendAppendsConstantChunk : Obligations.IendAppendsConstantChunk := by
  unfold Obligations.IendAppendsConstantChunk
  refine fun s hc => ⟨by decide, fun hfits => ?_, fun hover => ?_⟩
  · obtain ⟨t, hexec, happ, hcrc, hframe⟩ :=
      emitChunk_finish_fits (type := typeIend) (data := []) .iend rfl hc hfits
    have hcrc32 : crc32 (typeIend ++ []) = 0xAE426082 := by decide +kernel
    refine ⟨t, hexec, ?_, hcrc.trans hcrc32, hframe⟩
    have hbytes : chunk typeIend [] =
        [0x00, 0x00, 0x00, 0x00, 0x49, 0x45, 0x4E, 0x44, 0xAE, 0x42, 0x60, 0x82] := by
      decide +kernel
    rwa [hbytes] at happ
  · exact emitChunk_finish_over (type := typeIend) (data := []) .iend hover

/-- Settles O16: the tests of `validate` are in R248's order, and both commands report what it
raises. -/
theorem validateChecksInOrder : Obligations.ValidateChecksInOrder := by
  unfold Obligations.ValidateChecksInOrder
  intro s failed fails w h n
  have hfails {e : PngeError} (he : validate s = .raised e s) : fails e :=
    ⟨he, congrArg Flow.finish (scanRun_raised he), congrArg Flow.finishEncode (encodeRun_raised he)⟩
  have hzero : (w = 0 ∨ h = 0) ↔ (s.width = 0 ∨ s.height = 0) :=
    or_congr (toNat_eq_zero_iff s.width) (toNat_eq_zero_iff s.height)
  have hnonzero (hw : w ≠ 0) (hh : h ≠ 0) : ¬(s.width = 0 ∨ s.height = 0) :=
    hzero.not.1 (not_or.2 ⟨hw, hh⟩)
  refine ⟨fun hz => hfails ?_, fun ⟨hw, hh, hn⟩ => hfails ?_, fun ⟨hw, hh, hn, hp⟩ => hfails ?_,
    fun ⟨hw, hh, hn, hp, hs⟩ => hfails ?_, fun ⟨hw, hh, hn, hp, hs⟩ => ?_⟩
  · rw [validate, if_pos (hzero.1 hz)]
  · rw [validate, if_neg (hnonzero hw hh), if_pos hn]
  · rw [validate, if_neg (hnonzero hw hh), if_neg (not_not.2 hn), if_pos hp]
  · rw [validate, if_neg (hnonzero hw hh), if_neg (not_not.2 hn), if_neg (Nat.not_lt.2 hp),
      if_pos hs]
  · obtain ⟨hw0, hh0⟩ := not_or.1 (hnonzero hw hh)
    exact validate_of_accepted ⟨hw0, hh0, hn, hp, hs⟩

end Sys2Proof.Machine
end

section
/-! SUPPORT. Where the parts of the datastream stand (30_encoding.md R100, R102, R104), and the
check of a chunk's CRC in place (43_png_framing.md R252). -/

namespace Sys2Proof.Machine

/-- The four bytes of `be32` are the number's digits to base 256. -/
@[simp] theorem beValue_be32 (v : Word) : beValue (be32 v) = v.toNat := by
  simp only [beValue, be32, List.foldl_cons, List.foldl_nil, BitVec.extractLsb'_toNat,
    Nat.shiftRight_eq_div_pow]
  omega

/-- `PNG.ENCODE` completes on an image it can encode, and its output is the datastream of R100. -/
theorem exec_pngEncode_output {s : State} {scan : Bytes} (h : s.CanEncode scan) :
    exec .pngEncode s = .next (s.atEnd scan).complete ∧
      outData (s.atEnd scan).complete =
        some (pngStream s.width s.height (zStream s.cfg.compMode scan)) := by
  obtain ⟨hexec, -, hlt⟩ := exec_pngEncode_canEncode h
  exact ⟨hexec, (atEnd_outIs s scan hlt).1⟩

theorem length_pngStream (width height : Word) (z : Bytes) :
    (pngStream width height z).length = 57 + z.length := by
  simp only [pngStream, List.length_append, length_chunk, length_ihdrData, pngSignature, typeIhdr,
    typeIdat, typeIend, List.length_cons, List.length_nil]
  omega

/-- `bs` stands in `p` at index `i`. -/
def StandsAt (p : Bytes) (i : Nat) (bs : Bytes) : Prop :=
  ∃ pre post, p = pre ++ bs ++ post ∧ pre.length = i

namespace StandsAt

variable {p bs : Bytes} {at_ : Nat}

theorem take_drop (h : StandsAt p at_ bs) : (p.drop at_).take bs.length = bs := by
  obtain ⟨pre, post, rfl, rfl⟩ := h
  rw [List.append_assoc, List.drop_left, List.take_left]

/-- The parts of what stands in `p` stand in `p`. -/
theorem split {a b : Bytes} (h : StandsAt p at_ (a ++ b)) :
    StandsAt p at_ a ∧ StandsAt p (at_ + a.length) b := by
  obtain ⟨pre, post, rfl, rfl⟩ := h
  exact ⟨⟨pre, b ++ post, by simp only [List.append_assoc], rfl⟩,
    ⟨pre ++ a, post, by simp only [List.append_assoc], List.length_append⟩⟩

/-- A bit inverted in what stands in `p` leaves the rest. -/
theorem flipBit (h : StandsAt p at_ bs) {i : Nat} (hi : i < bs.length) (k : Nat) :
    StandsAt (flipBit p (at_ + i) k) at_ (flipBit bs i k) := by
  obtain ⟨pre, post, rfl, rfl⟩ := h
  obtain ⟨hpre, hrest⟩ :=
    flipBit_append_of_ge (a := pre) (bs ++ post) k (Nat.le_add_right pre.length i)
  rw [Nat.add_sub_cancel_left] at hrest
  obtain ⟨hbs, hpost⟩ := flipBit_append_of_lt post k hi
  refine ⟨pre, post, ?_, rfl⟩
  calc Machine.flipBit (pre ++ bs ++ post) (pre.length + i) k
      = pre ++ Machine.flipBit (bs ++ post) i k := by
        rw [← List.take_append_drop pre.length (Machine.flipBit _ _ k), List.append_assoc, hpre,
          hrest]
    _ = pre ++ (Machine.flipBit bs i k ++ post) := by
        rw [← List.take_append_drop bs.length (Machine.flipBit (bs ++ post) i k), hbs, hpost]
    _ = pre ++ Machine.flipBit bs i k ++ post := (List.append_assoc ..).symm

end StandsAt

/-- The check of the chunk with `len` data bytes that stands in `p` at index `at_` (R252): the
stored CRC against the one recomputed over type and data. -/
def ChunkCheck (at_ len : Nat) (p : Bytes) : Prop :=
  (p.drop (at_ + 8 + len)).take 4 = be32 (crc32 ((p.drop (at_ + 4)).take (4 + len)))

/-- The check looks at type, data and CRC field alone. -/
theorem chunkCheck_iff {p q : Bytes} {at_ len : Nat} (h : StandsAt p (at_ + 4) q)
    (hlen : q.length = 4 + len + 4) :
    ChunkCheck at_ len p ↔ q.drop (4 + len) = be32 (crc32 (q.take (4 + len))) := by
  obtain ⟨pre, post, rfl, hpre⟩ := h
  have hcrc : at_ + 8 + len = pre.length + (4 + len) := by omega
  rw [ChunkCheck, hcrc, ← hpre, List.append_assoc, ← List.drop_drop, List.drop_left,
    List.take_append_of_le_length (by omega), List.drop_append_of_le_length (by omega),
    List.take_left' (by rw [List.length_drop]; omega)]

/-- R252 for one chunk: what it stores, and that every inverted bit of its type, data or CRC field
is detected. -/
theorem chunk_standsAt {p type data : Bytes} {at_ len : Nat} (htype : type.length = 4)
    (hdata : data.length = len) (h : StandsAt p at_ (chunk type data)) :
    (p.drop at_).take 4 = be32Nat len ∧ ChunkCheck at_ len p ∧
      ∀ i < 4 + len + 4, ∀ k < 8, ¬ChunkCheck at_ len (flipBit p (at_ + 4 + i) k) := by
  have hbody : (type ++ data).length = 4 + len := by rw [List.length_append, htype, hdata]
  rw [chunk, hdata, List.append_assoc (be32Nat len), List.append_assoc (be32Nat len)] at h
  generalize type ++ data = body at hbody h
  obtain ⟨hlen, hq⟩ := h.split
  rw [length_be32Nat] at hq
  have hqlen : (body ++ be32 (crc32 body)).length = 4 + len + 4 := by
    rw [List.length_append, hbody, length_be32]
  refine ⟨hlen.take_drop, (chunkCheck_iff hq hqlen).2 ?_, fun i hi k hk => ?_⟩
  · rw [← hbody, List.drop_left, List.take_left]
  · rw [chunkCheck_iff (hq.flipBit (hqlen ▸ hi) k) (by rw [flipBit, List.length_modify, hqlen]),
      ← hbody]
    exact crcCheck_flipBit (hbody ▸ hi) hk

/-- The three chunks of a datastream and their places (R100). -/
theorem pngStream_chunks (width height : Word) (z : Bytes) :
    StandsAt (pngStream width height z) 8 (chunk typeIhdr (ihdrData width height)) ∧
      StandsAt (pngStream width height z) 33 (chunk typeIdat z) ∧
      StandsAt (pngStream width height z) (45 + z.length) (chunk typeIend []) := by
  refine ⟨⟨pngSignature, chunk typeIdat z ++ chunk typeIend [], ?_, rfl⟩,
    ⟨pngSignature ++ chunk typeIhdr (ihdrData width height), chunk typeIend [], rfl, rfl⟩,
    ⟨pngSignature ++ chunk typeIhdr (ihdrData width height) ++ chunk typeIdat z, [], ?_, ?_⟩⟩
  · rw [pngStream, List.append_assoc _ (chunk typeIdat z)]
  · rw [pngStream, List.append_nil]
  · rw [List.length_append, length_chunk typeIdat]
    change 33 + _ = _
    rw [typeIdat]
    simp
    omega

end Sys2Proof.Machine
end

section
/-! The statements of 43_png_framing.md on the chunks of the output (R252, R253). -/

namespace Sys2Proof.Machine

/-- Settles O53: each of the three chunks is checked where it stands (`chunk_standsAt`). -/
theorem outputChunkCrcsDetectDamage : Obligations.OutputChunkCrcsDetectDamage := by
  unfold Obligations.OutputChunkCrcsDetectDamage
  intro s scan h n
  obtain ⟨hexec, hout⟩ := exec_pngEncode_output h
  obtain ⟨hihdr, hidat, hiend⟩ :=
    pngStream_chunks s.width s.height (zStream s.cfg.compMode scan)
  refine ⟨_, _, hexec, hout, length_pngStream .., fun at_ len hmem => ?_⟩
  simp only [List.mem_cons, List.not_mem_nil, or_false, Prod.mk.injEq] at hmem
  obtain ⟨rfl, rfl⟩ | ⟨rfl, rfl⟩ | ⟨rfl, rfl⟩ := hmem
  · exact chunk_standsAt rfl rfl hihdr
  · exact chunk_standsAt rfl rfl hidat
  · exact chunk_standsAt rfl rfl hiend

/-- Settles O54: the dimensions stand at the head of the IHDR chunk's data, and `beValue` reads them
back (`beValue_be32`). -/
theorem ihdrRoundTrip : Obligations.IhdrRoundTrip := by
  unfold Obligations.IhdrRoundTrip
  intro s scan h
  obtain ⟨hexec, hout⟩ := exec_pngEncode_output h
  exact ⟨_, _, hexec, hout, rfl, rfl, rfl, rfl, rfl, beValue_be32 s.width, beValue_be32 s.height⟩

end Sys2Proof.Machine
end

section
/-! SUPPORT. The step commands one after another (43_png_framing.md R249): between two commands the
state is, but for the flags and `LAST_CMD`, the one the pseudocode of both stands at. -/

namespace Sys2Proof.Machine

/-- `s` as a completed command with word `w` leaves it (R283). -/
def State.idleAfter (s : State) (w : Word) : State :=
  { s with lastCmd := w, phase := .idle, busy := false, done := true }

/-- `s` as the command with word `w` finds it: issued, and the engine busy (R282). -/
def State.during (s : State) (w : Word) : State :=
  { s with lastCmd := w, busy := true, done := false }

/-- How the command with word `w` ends where its pseudocode, which looks at no flag, ends so. -/
def Flow.finishAs (w : Word) : Flow → Host.Outcome State Fault Refusal
  | .go t => .next (t.idleAfter w)
  | .raised e t => .next ((t.during w).raise e)
  | .stuck x => .fault x

/-- The command whose pseudocode is in a phase (R36, R242 to R246). -/
def Phase.command : Phase → Instr
  | .idle => .nop
  | .sig => .pngSig
  | .ihdr => .pngIhdr
  | .scan => .pngScan
  | .zcomp => .pngZcomp
  | .idat => .pngIdat
  | .iend => .pngIend

/-- `f` can be the pseudocode of a step command of phase `p`: it sets `PHASE` first, reads and
writes no other flag, and raises in its own phase. -/
structure IsStepIn (p : Phase) (f : State → Flow) : Prop where
  ignoresFlags : ∀ s v w, (f ((s.idleAfter v).during w)).finish = (f s).finishAs w
  keepsErr : ∀ s t, f s = .go t → t.err = s.err
  raisesIn : ∀ s e t, f s = .raised e t → t.phase = p

theorem ite_finish {c : Prop} [Decidable c] (f g : Flow) :
    (if c then f else g).finish = if c then f.finish else g.finish := apply_ite ..

theorem ite_finishAs {c : Prop} [Decidable c] (w : Word) (f g : Flow) :
    (if c then f else g).finishAs w = if c then f.finishAs w else g.finishAs w := apply_ite ..

theorem isStepIn_sigStep : IsStepIn .sig sigStep := by
  refine ⟨fun s v w => ?_, fun s t h => ?_, fun s e t h => ?_⟩
  · simp only [sigStep, appendOut, ite_finish, ite_finishAs]
    rfl
  all_goals
    rcases appendOut_cases pngSignature (s.setPhase .sig) with ⟨-, he⟩ | ⟨-, he⟩ <;>
      cases he.symm.trans h
    rfl

theorem isStepIn_emitChunk (type : Bytes) {data : State → Bytes} (p : Phase)
    (hdata : ∀ (s : State) (v w : Word), data ((s.idleAfter v).during w) = data s) :
    IsStepIn p fun s => emitChunk type (data s) (s.setPhase p) := by
  refine ⟨fun s v w => ?_, fun s t h => ?_, fun s e t h => ?_⟩
  · simp only [emitChunk, ite_finish, ite_finishAs, hdata]
    rfl
  all_goals
    rcases emitChunk_cases type (data s) (s.setPhase p) with ⟨-, he⟩ | ⟨-, he⟩ <;>
      cases he.symm.trans h
    rfl

theorem isStepIn_idatStep : IsStepIn .idat idatStep :=
  isStepIn_emitChunk typeIdat (data := zData) .idat fun _ _ _ => rfl

theorem isStepIn_iendStep : IsStepIn .iend iendStep :=
  isStepIn_emitChunk typeIend (data := fun _ => []) .iend fun _ _ _ => rfl

theorem isStepIn_ihdrRun : IsStepIn .ihdr ihdrRun := by
  obtain ⟨hflags, herr, hphase⟩ :=
    isStepIn_emitChunk typeIhdr (data := fun s => ihdrData s.width s.height) .ihdr fun _ _ _ => rfl
  have hcases (s : State) : (s.width = 0 ∨ s.height = 0) ∨ s.width ≠ 0 ∧ s.height ≠ 0 :=
    (em _).imp_right not_or.1
  refine ⟨fun s v w => ?_, fun s t h => ?_, fun s e t h => ?_⟩ <;>
    rcases hcases s with hzero | ⟨hw, hh⟩
  · rw [ihdrRun_zero hzero, ihdrRun_zero (s := (s.idleAfter v).during w) hzero]
    rfl
  · rw [ihdrRun_dimensions hw hh, ihdrRun_dimensions (s := (s.idleAfter v).during w) hw hh]
    exact hflags s v w
  · cases (ihdrRun_zero hzero).symm.trans h
  · exact herr s t ((ihdrRun_dimensions hw hh).symm.trans h)
  · cases (ihdrRun_zero hzero).symm.trans h
    rfl
  · exact hphase s e t ((ihdrRun_dimensions hw hh).symm.trans h)

/-- `Validate` looks at the dimensions, `PIX_LEN` and the capacities alone. -/
theorem validate_raised_congr {s t : State} {e : PngeError} (h : validate s = .raised e s)
    (hcfg : t.cfg = s.cfg) (hw : t.width = s.width) (hh : t.height = s.height)
    (hp : t.pixLen = s.pixLen) : validate t = .raised e t := by
  unfold validate at h ⊢
  rw [hcfg, hw, hh, hp]
  repeat' split at h
  all_goals simp_all

theorem isStepIn_scanRun : IsStepIn .scan scanRun := by
  have hcases (s : State) : s.ImageAccepted ∨ ∃ e, validate s = .raised e s :=
    (em _).imp_right fun ha => (encodeRun_rejected ha).imp fun _ h => h.1
  refine ⟨fun s v w => ?_, fun s t h => ?_, fun s e t h => ?_⟩ <;>
    rcases hcases s with ha | ⟨e', he⟩
  · rw [scanRun_accepted ha, scanRun_accepted (s := (s.idleAfter v).during w) ha]
    have hsame : scanlines (((s.idleAfter v).during w).setPhase .scan) =
      scanlines (s.setPhase .scan) := rfl
    rw [buildScan, buildScan, hsame]
    cases scanlines (s.setPhase .scan) <;> rfl
  · rw [scanRun_raised he,
      scanRun_raised (s := (s.idleAfter v).during w) (validate_raised_congr he rfl rfl rfl rfl)]
    rfl
  · rw [scanRun_accepted ha] at h
    rcases buildScan_cases (s.setPhase .scan) with ⟨bs, -, hb⟩ | ⟨-, hb⟩ <;> cases hb.symm.trans h
    rfl
  · cases (scanRun_raised he).symm.trans h
  · rw [scanRun_accepted ha] at h
    rcases buildScan_cases (s.setPhase .scan) with ⟨bs, -, hb⟩ | ⟨-, hb⟩ <;> cases hb.symm.trans h
  · cases (scanRun_raised he).symm.trans h
    rfl

theorem isStepIn_zcompStep : IsStepIn .zcomp zcompStep := by
  refine ⟨fun s v w => ?_, fun s t h => ?_, fun s e t h => ?_⟩
  · have hdata : scanData ((s.idleAfter v).during w) = scanData s := rfl
    simp only [zcompStep, ite_finish, ite_finishAs, hdata]
    rfl
  all_goals
    rcases zcompStep_cases s with ⟨-, he⟩ | ⟨-, he⟩ <;> cases he.symm.trans h
    rfl

/-- `o` is the outcome of step commands, the last with word `w`, whose pseudocode in all stands at
`f`: they have completed, or the command of the phase has raised. -/
def Flow.RunsAs (w : Word) (o : Host.Outcome State Fault Refusal) : Flow → Prop
  | .go t => t.err = none ∧ o = .next (t.idleAfter w)
  | .raised e t => o = .next ((t.during (encode t.phase.command)).raise e)
  | .stuck x => o = .fault x

theorem runWords_append (ws vs : List Word) (s : State) :
    runWords (ws ++ vs) s =
      match runWords ws s with
      | .next t => runWords vs t
      | .fault f => .fault f
      | .refused r => .refused r := by
  induction ws generalizing s with
  | nil => rfl
  | cons w ws ih =>
    rw [List.cons_append, runWords, runWords]
    cases runWord w s with
    | next t => exact ih t
    | fault f => rfl
    | refused r => rfl

/-- A failed machine refuses every command but `SRST` (R285). -/
theorem runWord_raise {i : Instr} (hi : i ≠ .srst) (s : State) (e : PngeError) :
    runWord (encode i) (s.raise e) = .next (s.raise e) := by
  rw [runWord, writeRegister_encode_refused (.inr (by simp)) hi, engineStep_idle rfl]

theorem Phase.command_ne_srst (p : Phase) : p.command ≠ .srst := by
  cases p <;> simp [Phase.command]

/-- One more step command goes on as the pseudocode does. -/
theorem Flow.RunsAs.andThen {f : Flow} {ws : List Word} {s : State} {w : Word}
    (h : f.RunsAs w (runWords ws s)) {p : Phase} {g : State → Flow} (hg : IsStepIn p g)
    (hexec : ∀ t, exec p.command t = (g t).finish) :
    (f.andThen g).RunsAs (encode p.command) (runWords (ws ++ [encode p.command]) s) := by
  cases f with
  | go t =>
    obtain ⟨herr, ho⟩ := h
    have hrun : runWord (encode p.command) (t.idleAfter w) =
        (g t).finishAs (encode p.command) := by
      have hready : (t.idleAfter w).Ready := ⟨rfl, herr⟩
      rw [runWord_encode hready, hexec]
      exact hg.ignoresFlags t w _
    rw [runWords_append, ho, Flow.go_andThen]
    simp only [runWords, hrun]
    cases hgt : g t with
    | go t' => exact ⟨(hg.keepsErr t t' hgt).trans herr, rfl⟩
    | raised e t' =>
      obtain rfl : t'.phase = p := hg.raisesIn t e t' hgt
      rfl
    | stuck x => rfl
  | raised e t =>
    rw [runWords_append, show runWords ws s = _ from h]
    simp only [runWords, runWord_raise p.command_ne_srst]
    rfl
  | stuck x =>
    rw [runWords_append, show runWords ws s = _ from h]
    rfl

/-- The pseudocode of the step commands that R249 sets against `PNG.ENCODE`. -/
def sequenceRun (s : State) : Flow :=
  ((((((Flow.go s.clearOut).andThen sigStep).andThen ihdrRun).andThen scanRun).andThen
    zcompStep).andThen idatStep).andThen iendStep

/-- The step commands of R249 run as their pseudocode does; the flags and the word that it starts
with do not matter. -/
theorem stepSequence_runsAs {s : State} (h : s.Ready) (w : Word) :
    (sequenceRun (s.during w)).RunsAs (encode .pngIend) (runWords stepSequence s) := by
  have hclr : runWord (encode .outClr) s = .next (s.clearOut.idleAfter (encode .outClr)) :=
    runWord_encode h .outClr
  have h0 : (Flow.go (s.during w).clearOut).RunsAs (encode .outClr) (runWords [encode .outClr] s) :=
    ⟨h.2, by rw [runWords_cons _ hclr]; rfl⟩
  have h1 := h0.andThen isStepIn_sigStep fun _ => rfl
  have h2 := h1.andThen isStepIn_ihdrRun fun _ => rfl
  have h3 := h2.andThen isStepIn_scanRun fun _ => rfl
  have h4 := h3.andThen isStepIn_zcompStep fun _ => rfl
  have h5 := h4.andThen isStepIn_idatStep fun _ => rfl
  have hwords : stepSequence = [encode .outClr] ++ [encode Phase.sig.command] ++
    [encode Phase.ihdr.command] ++ [encode Phase.scan.command] ++ [encode Phase.zcomp.command] ++
    [encode Phase.idat.command] ++ [encode Phase.iend.command] := rfl
  rw [hwords]
  exact h5.andThen isStepIn_iendStep fun _ => rfl

/-- The signature as a step command (R242): `SCAN_LEN` and `Z_LEN` are what they were. -/
def State.afterSignature (s : State) : State := (s.clearOut.setPhase .sig).putOut pngSignature

/-- The signature and the IHDR chunk as step commands (R242, R243). -/
def State.afterIhdr (s : State) : State :=
  { s.afterHeader with scanLen := s.scanLen, zLen := s.zLen }

/-- `PNG.ZCOMP` starts `Z_LEN` anew (R205). -/
theorem zcompStep_zLen (s : State) (n : Word) : zcompStep { s with zLen := n } = zcompStep s := by
  have hdata : scanData { s with zLen := n } = scanData s := rfl
  rw [zcompStep, zcompStep, hdata]
  rfl

/-- `Validate` finds the same image. -/
theorem afterIhdr_image (s : State) : s.afterIhdr.cfg = s.cfg ∧ s.afterIhdr.width = s.width ∧
    s.afterIhdr.height = s.height ∧ s.afterIhdr.pixLen = s.pixLen := by
  simp [State.afterIhdr, State.afterHeader]

section
variable {s : State} (hc : 72 ≤ s.cfg.outCap)
include hc

theorem sigStep_clearOut : sigStep s.clearOut = .go s.afterSignature := by
  rcases appendOut_cases pngSignature (s.clearOut.setPhase .sig) with ⟨-, hgo⟩ | ⟨hover, -⟩
  · exact hgo
  · simp [pngSignature] at hover
    omega

/-- With a dimension 0 the step commands fail at `PNG.IHDR`, with the signature put out (R249). -/
theorem sequenceRun_zero (h : s.width = 0 ∨ s.height = 0) :
    sequenceRun s = .raised .unsupportedDimensions (s.afterSignature.setPhase .ihdr) := by
  have hihdr : ihdrRun s.afterSignature = _ := ihdrRun_zero (s := s.afterSignature) h
  simp only [sequenceRun, sigStep_clearOut hc, hihdr, Flow.go_andThen, Flow.raised_andThen]

theorem ihdrRun_afterSignature (hw : s.width ≠ 0) (hh : s.height ≠ 0) :
    ihdrRun s.afterSignature = .go s.afterIhdr := by
  rw [ihdrRun_dimensions (s := s.afterSignature) hw hh]
  rcases emitChunk_cases typeIhdr (ihdrData s.width s.height) (s.afterSignature.setPhase .ihdr)
    with ⟨-, hgo⟩ | ⟨hover, -⟩
  · exact hgo
  · simp [State.afterSignature, pngSignature] at hover
    omega

/-- On any other image that `Validate` rejects they fail at `PNG.SCAN` (R249). -/
theorem sequenceRun_rejected {e : PngeError} (hw : s.width ≠ 0) (hh : s.height ≠ 0)
    (he : validate s = .raised e s) :
    sequenceRun s = .raised e (s.afterIhdr.setPhase .scan) := by
  obtain ⟨hcfg, hwidth, hheight, hpix⟩ := afterIhdr_image s
  have hscan := scanRun_raised (validate_raised_congr he hcfg hwidth hheight hpix)
  simp only [sequenceRun, sigStep_clearOut hc, ihdrRun_afterSignature hc hw hh, hscan,
    Flow.go_andThen, Flow.raised_andThen]

/-- On an accepted image they run as `PNG.ENCODE` does (R249). -/
theorem sequenceRun_accepted (ha : s.ImageAccepted) : sequenceRun s = encodeRun s := by
  obtain ⟨hcfg, hwidth, hheight, hpix⟩ := afterIhdr_image s
  have ha' : s.afterIhdr.ImageAccepted := by
    rwa [State.ImageAccepted, hcfg, hwidth, hheight, hpix]
  have hscan : (scanRun s.afterIhdr).andThen zcompStep =
      (scanStep s.afterHeader).andThen zcompStep := by
    rw [scanRun_accepted ha', scanStep, buildScan, buildScan]
    have hsame : scanlines (s.afterIhdr.setPhase .scan) =
        scanlines (s.afterHeader.setPhase .scan) := by
      simp only [scanlines, State.afterIhdr, State.setPhase]
    rw [hsame]
    cases scanlines (s.afterHeader.setPhase .scan) with
    | none => rfl
    | some bs =>
      have hlen : (s.afterIhdr.setPhase .scan).setScan bs =
        { (s.afterHeader.setPhase .scan).setScan bs with zLen := s.zLen } := by
        simp only [State.afterIhdr, State.setScan, State.setPhase]
      simp only [Flow.go_andThen]
      rw [hlen]
      exact zcompStep_zLen ((s.afterHeader.setPhase .scan).setScan bs) s.zLen
  rw [encodeRun_accepted hc ha, ← hscan]
  simp only [sequenceRun, sigStep_clearOut hc, ihdrRun_afterSignature hc ha.1 ha.2.1,
    Flow.go_andThen]

end

/-- How the pseudocode of `PNG.ENCODE` and that of the step commands end together (R249). -/
inductive EndAlike : Flow → Flow → Prop
  | go (x : State) : EndAlike (.go x) (.go x)
  | stuck (f : Fault) : EndAlike (.stuck f) (.stuck f)
  | atHeader {x y : State} (hx : x.phase = .scan) (hy : y.phase = .ihdr)
      (hout : y.outLen.toNat = 8) :
      EndAlike (.raised .unsupportedDimensions x) (.raised .unsupportedDimensions y)
  | later {e : PngeError} {x y : State} (he : e ≠ .unsupportedDimensions)
      (hsize : e = .bufferSizeMismatch → y.phase = .scan) (hphase : y.phase = x.phase)
      (hp : y.phase = .iend ∧ y.outLen.toNat = 45 + y.zLen.toNat ∨
        y.phase ∈ [Phase.scan, .zcomp, .idat] ∧ y.outLen.toNat = 33) :
      EndAlike (.raised e x) (.raised e y)

theorem le_outCap {c : Config} (h : c.wellFormed = true) : 72 ≤ c.outCap := by
  simp only [Config.wellFormed, Bool.and_eq_true, decide_eq_true_eq] at h
  omega

theorem afterIhdr_outLen (s : State) : s.afterIhdr.outLen = 33 := afterHeader_outLen s

theorem afterSignature_outLen (s : State) : s.afterSignature.outLen.toNat = 8 := by
  simp [State.afterSignature, pngSignature]

/-- At the IEND chunk the output is the signature, the IHDR chunk and the IDAT chunk (R249). -/
theorem atIend_phase_outLen (s : State) (scan : Bytes)
    (h : 45 + (zStream s.cfg.compMode scan).length < 2 ^ 32) :
    (s.atIend scan).phase = .iend ∧
      (s.atIend scan).outLen.toNat = 45 + (s.atIend scan).zLen.toNat := by
  have hz : (s.atIend scan).zLen = BitVec.ofNat 32 (zStream s.cfg.compMode scan).length := by
    simp [State.atIend, State.atIdat]
  refine ⟨by simp [State.atIend], ?_⟩
  rw [atIend_outLen, hz, BitVec.toNat_ofNat, BitVec.toNat_ofNat, Nat.mod_eq_of_lt h,
    Nat.mod_eq_of_lt (by omega)]

/-- `PNG.ENCODE` and the step commands end alike (R249). -/
theorem encodeRun_endAlike {s : State} (hc : s.cfg.wellFormed = true) :
    EndAlike (encodeRun s) (sequenceRun s) := by
  have hmin : 72 ≤ s.cfg.outCap := le_outCap hc
  have hmax : s.cfg.outCap < 2 ^ 32 := (capacities_lt hc).2
  have hscan : (s.afterIhdr.setPhase .scan).outLen.toNat = 33 := by
    rw [State.setPhase_outLen, afterIhdr_outLen]
    rfl
  rcases validate_cases s with ⟨ha, -⟩ | ⟨hzero, hv⟩ | ⟨⟨hw, hh⟩, -, hv⟩ | ⟨⟨hw, hh⟩, -, -, hv⟩
  · rw [sequenceRun_accepted hmin ha]
    rcases encodeRun_cases hc ha with ⟨-, -, hrun⟩ | ⟨scan, -, -, hrun⟩
    · rw [hrun]
      exact .stuck _
    · rcases hrun with ⟨-, hrun⟩ | ⟨-, -, hrun⟩ | ⟨-, hidat, -, hrun⟩ | ⟨-, -, hrun⟩ <;> rw [hrun]
      · refine .later (by simp) (by simp) rfl (.inr ⟨by simp [State.atZcomp], ?_⟩)
        rw [atZcomp_outLen]
        rfl
      · refine .later (by simp) (by simp) rfl (.inr ⟨by simp [State.atIdat], ?_⟩)
        rw [atIdat_outLen]
        rfl
      · exact .later (by simp) (by simp) rfl (.inl (atIend_phase_outLen s scan (by omega)))
      · exact .go _
  · rw [encodeRun_raised hv, sequenceRun_zero hmin hzero]
    exact .atHeader rfl rfl (afterSignature_outLen s)
  · rw [encodeRun_raised hv, sequenceRun_rejected hmin hw hh hv]
    exact .later (by simp) (fun _ => rfl) (by simp) (.inr ⟨by simp, hscan⟩)
  · rw [encodeRun_raised hv, sequenceRun_rejected hmin hw hh hv]
    exact .later (by simp) (fun _ => rfl) (by simp) (.inr ⟨by simp, hscan⟩)

end Sys2Proof.Machine
end

section
/-! The statement of 43_png_framing.md on the step commands (R249). -/

namespace Sys2Proof.Machine

/-- Settles O49: the pseudocode of the step commands ends as that of `PNG.ENCODE`
(`encodeRun_endAlike`), and the commands end as their pseudocode (`stepSequence_runsAs`). -/
theorem encodeEqualsStepCommands : Obligations.EncodeEqualsStepCommands := by
  unfold Obligations.EncodeEqualsStepCommands
  intro s t hready hc hrun
  have hseq := stepSequence_runsAs hready (encode .pngEncode)
  have halike : EndAlike _ _ := encodeRun_endAlike (s := s.during (encode .pngEncode)) hc
  have henc : (encodeRun (s.during (encode .pngEncode))).finishEncode = .next t :=
    (runWord_encode hready .pngEncode).symm.trans hrun
  generalize encodeRun (s.during (encode .pngEncode)) = f at halike henc
  generalize sequenceRun (s.during (encode .pngEncode)) = g at halike hseq
  cases halike with
  | stuck x => cases henc
  | go x =>
    obtain ⟨herr, ho⟩ := hseq
    cases henc
    exact ⟨fun _ => ho, fun e he => nomatch he.symm.trans herr⟩
  | @atHeader x y hx hy hout =>
    cases henc
    refine ⟨fun h => (nomatch h), fun e he =>
      ⟨_, hseq, he, rfl, rfl, rfl, fun _ => ?_, fun hne => ?_⟩⟩
    · exact ⟨hx, hy, congrArg (fun p => encode (Phase.command p)) hy, hout⟩
    · exact absurd (Option.some.inj he).symm hne
  | @later e x y he hsize hphase hp =>
    cases henc
    refine ⟨fun h => (nomatch h), fun e' he' =>
      ⟨_, hseq, he', rfl, rfl, rfl, fun hu => ?_, fun _ => ?_⟩⟩
    · exact absurd ((Option.some.inj he').trans hu) he
    · have hword {p : Phase} (h : y.phase = p) : encode y.phase.command = encode p.command :=
        congrArg (fun p => encode (Phase.command p)) h
      have hhead {p : Phase} (hne : p ≠ .iend) (h : y.phase = p) : y.outLen.toNat = 33 :=
        (hp.resolve_left fun hend => hne (h.symm.trans hend.1)).2
      have hend (h : y.phase = .iend) : y.outLen.toNat = 45 + y.zLen.toNat :=
        (hp.resolve_right fun hother => by simp [h] at hother).2
      have hmem : y.phase ∈ [Phase.scan, .zcomp, .idat, .iend] :=
        hp.elim (fun ⟨h, _⟩ => by simp [h]) fun ⟨h, _⟩ => List.mem_append_left [Phase.iend] h
      obtain rfl : e = e' := Option.some.inj he'
      exact ⟨hphase, fun h => ⟨hword h, hhead (by simp) h⟩, fun h => ⟨hword h, hhead (by simp) h⟩,
        fun h => ⟨hword h, hhead (by simp) h⟩, fun h => ⟨hword h, hend h⟩, hmem, hsize⟩

end Sys2Proof.Machine
end

section
/-! SUPPORT. The bits of a `FIXED_LZ` stream (42_deflate.md R200 to R202), and how many they are
(R214). -/

namespace Sys2Proof.Machine

theorem putBitList_append (w : BitWriter) (a b : List Bool) :
    putBitList (putBitList w a) b = putBitList w (a ++ b) := (List.foldl_append ..).symm

/-- The bits of a token (R200): its literal/length code, and for a match the extra bits of the
length, the distance code and the extra bits of the distance. -/
def tokenBits : Token → List Bool
  | .lit b => codeBits (fixLit b.toNat).1 (fixLit b.toNat).2
  | .copy len dist =>
    codeBits (fixLit (lenSym len).symbol).1 (fixLit (lenSym len).symbol).2 ++
      fieldBits (lenSym len).extra (lenSym len).extraBits ++
      codeBits (distSym dist).symbol 5 ++ fieldBits (distSym dist).extra (distSym dist).extraBits

theorem emitToken_eq (w : BitWriter) (t : Token) : emitToken w t = putBitList w (tokenBits t) := by
  cases t with
  | lit b => rfl
  | copy len dist =>
    simp only [emitToken, putBits, putCode, putBitList_append, tokenBits]

theorem foldl_emitToken (w : BitWriter) (ts : List Token) :
    ts.foldl emitToken w = putBitList w (ts.flatMap tokenBits) := by
  induction ts generalizing w with
  | nil => rfl
  | cons t ts ih =>
    rw [List.foldl_cons, ih, emitToken_eq, putBitList_append, List.flatMap_cons]

/-- The bits of `DeflateFixedLZ(s)` before the padding (R201, R202): final block, fixed codes, the
tokens, the end of the block. -/
def fixedLzBits (s : Bytes) : List Bool :=
  fieldBits 1 1 ++ fieldBits 1 2 ++ (tokens s).flatMap tokenBits ++ codeBits 0 7

theorem deflateFixedLzWriter_eq (s : Bytes) :
    deflateFixedLzWriter s = flushBits (putBitList .start (fixedLzBits s)) := by
  simp only [deflateFixedLzWriter, putBits, putCode, foldl_emitToken, putBitList_append,
    fixedLzBits]

/-- The stream spells its bits, in as many bytes as they need. -/
theorem deflateFixedLz_spells (s : Bytes) :
    (deflateFixedLz s).length = ((fixedLzBits s).length + 7) / 8 ∧
      Spells (deflateFixedLz s) (fixedLzBits s) := by
  rw [deflateFixedLz, deflateFixedLzWriter_eq]
  exact flushBits_output (holds_putBitList holds_start (fixedLzBits s))

/-- The format's limits on a match at position `i`, and that it is one (R196, R197). -/
structure MatchAt (s : Bytes) (i len dist : Nat) : Prop where
  len_range : 3 ≤ len ∧ len ≤ 258
  dist_range : 1 ≤ dist ∧ dist ≤ 32768
  back : dist ≤ i
  fits : i + len ≤ s.length
  same : ∀ k < len, s[i + k]? = s[i - dist + k]?

/-- The tokens cover `s` from position `i` on, each position once and in order (R197). -/
inductive Parses (s : Bytes) : Nat → List Token → Prop
  | done : Parses s s.length []
  | lit {i : Nat} {ts : List Token} (hi : i < s.length) (rest : Parses s (i + 1) ts) :
      Parses s i (.lit (s.getD i 0) :: ts)
  | copy {i len dist : Nat} {ts : List Token} (h : MatchAt s i len dist)
      (rest : Parses s (i + len) ts) : Parses s i (.copy len dist :: ts)

/-- What the matcher finds is a match wherever it is long enough to be emitted. -/
theorem longestMatch_matchAt {s : Bytes} {i : Nat} (hi : i < s.length)
    (h : minMatch ≤ (longestMatch s i).1) :
    MatchAt s i (longestMatch s i).1 (longestMatch s i).2 := by
  have hfacts := longestMatchIsLongestNearest
  unfold Obligations.LongestMatchIsLongestNearest at hfacts
  obtain ⟨hmax, hfits, hwindow, -, hmatch, -⟩ := hfacts s i hi
  have h3 : 3 ≤ (longestMatch s i).1 := h
  obtain ⟨hpos, hback, hsame⟩ := hmatch (by omega)
  exact ⟨⟨h3, hmax⟩, ⟨hpos, hwindow⟩, hback, hfits, hsame⟩

theorem tokensFrom_parses {s : Bytes} {fuel i : Nat} (hi : i ≤ s.length)
    (hfuel : s.length ≤ i + fuel) : Parses s i (tokensFrom s fuel i) := by
  induction fuel generalizing i with
  | zero =>
    obtain rfl : i = s.length := by omega
    exact .done
  | succ fuel ih =>
    rw [tokensFrom]
    rcases hi.lt_or_eq with hlt | rfl
    · rw [if_pos hlt]
      dsimp only
      split
      case isTrue h =>
        have hm := longestMatch_matchAt hlt h
        have hlen := hm.len_range.1
        exact .copy hm (ih hm.fits (by omega))
      case isFalse => exact .lit hlt (ih hlt (by omega))
    · rw [if_neg (Nat.lt_irrefl _)]
      exact .done

/-- The greedy parse covers its input. -/
theorem tokens_parses (s : Bytes) : Parses s 0 (tokens s) :=
  tokensFrom_parses (Nat.zero_le _) (by omega)

/-- The four ranges of the fixed literal/length code (R199). -/
theorem fixLit_cases (sym : Nat) :
    (sym ≤ 143 ∧ (fixLit sym).1 = 0x30 + sym ∧ (fixLit sym).2 = 8) ∨
    (144 ≤ sym ∧ sym ≤ 255 ∧ (fixLit sym).1 = 0x100 + sym ∧ (fixLit sym).2 = 9) ∨
    (256 ≤ sym ∧ sym ≤ 279 ∧ (fixLit sym).1 = sym - 256 ∧ (fixLit sym).2 = 7) ∨
    (280 ≤ sym ∧ (fixLit sym).1 = sym - 88 ∧ (fixLit sym).2 = 8) := by
  unfold fixLit
  repeat' split
  all_goals simp
  all_goals omega

theorem fixLit_bits (sym : Nat) : 7 ≤ (fixLit sym).2 ∧ (fixLit sym).2 ≤ 9 := by
  have := fixLit_cases sym
  omega

theorem fixLit_bits_byte (b : Byte) : 8 ≤ (fixLit b.toNat).2 := by
  have := fixLit_cases b.toNat
  have := b.isLt
  omega

theorem lenSym_bits : ∀ len ≤ 258, 3 ≤ len →
    (fixLit (lenSym len).symbol).2 + (lenSym len).extraBits + 18 ≤ 9 * len := by
  decide +kernel

theorem distSym_extraBits_le (dist : Nat) : (distSym dist).extraBits ≤ 13 := by
  have h : ∀ e ∈ distExtra, e ≤ 13 := by decide
  simp only [distSym, List.getD_eq_getElem?_getD]
  cases he : distExtra[largestIndex distBase dist 29]? with
  | none => simp
  | some e => exact h e (List.mem_of_getElem? he)

theorem length_tokenBits_lit (b : Byte) :
    8 ≤ (tokenBits (.lit b)).length ∧ (tokenBits (.lit b)).length ≤ 9 := by
  rw [tokenBits, length_codeBits]
  exact ⟨fixLit_bits_byte b, (fixLit_bits _).2⟩

/-- A match of `len` bytes takes no more than `len` literals of nine bits. -/
theorem length_tokenBits_copy {len : Nat} (dist : Nat) (h : 3 ≤ len ∧ len ≤ 258) :
    8 ≤ (tokenBits (.copy len dist)).length ∧
      (tokenBits (.copy len dist)).length ≤ 9 * len := by
  have hlit := (fixLit_bits (lenSym len).symbol).1
  have hlen := lenSym_bits len h.2 h.1
  have hdist := distSym_extraBits_le dist
  simp only [tokenBits, List.length_append, length_codeBits, length_fieldBits]
  omega

/-- A parse takes at least eight bits for each token, and at most nine for each byte it covers
(R214). -/
theorem Parses.length_bits {s : Bytes} {i : Nat} {ts : List Token} (h : Parses s i ts) :
    8 * ts.length ≤ (ts.flatMap tokenBits).length ∧
      (ts.flatMap tokenBits).length + 9 * i ≤ 9 * s.length := by
  induction h with
  | done => simp
  | @lit i _ hi _ ih =>
    have hlit := length_tokenBits_lit (s.getD i 0)
    rw [List.flatMap_cons, List.length_append, List.length_cons]
    omega
  | @copy i len dist _ hm _ ih =>
    have hcopy := length_tokenBits_copy dist hm.len_range
    rw [List.flatMap_cons, List.length_append, List.length_cons]
    omega

/-- What is left of the input has a token. -/
theorem Parses.length_pos {s : Bytes} {i : Nat} {ts : List Token} (h : Parses s i ts)
    (hi : i < s.length) : 0 < ts.length := by
  cases h with
  | done => omega
  | lit => exact Nat.succ_pos _
  | copy => exact Nat.succ_pos _

/-- The first token of a parse is a literal, so two bytes make two tokens. -/
theorem Parses.two_tokens {s : Bytes} {ts : List Token} (h : Parses s 0 ts) (hs : 2 ≤ s.length) :
    2 ≤ ts.length := by
  generalize h0 : 0 = i at h
  cases h with
  | done => omega
  | copy hm _ =>
    have hpos := hm.dist_range.1
    have hback := hm.back
    omega
  | lit _ rest => exact Nat.succ_le_succ (rest.length_pos (by omega))

/-- The size of a `FIXED_LZ` stream (R214); the lower bound is that of two literals. -/
theorem length_fixedLzBits (s : Bytes) :
    (fixedLzBits s).length ≤ 10 + 9 * s.length ∧ (2 ≤ s.length → 26 ≤ (fixedLzBits s).length) := by
  have hparse := tokens_parses s
  have hbits := hparse.length_bits
  simp only [fixedLzBits, List.length_append, length_fieldBits, length_codeBits]
  refine ⟨by omega, fun hs => ?_⟩
  have := hparse.two_tokens hs
  omega

theorem length_zlibWrap (deflateData s : Bytes) :
    (zlibWrap deflateData s).length = 6 + deflateData.length := by
  simp only [zlibWrap, zlibHeader, List.length_append, List.length_cons, List.length_nil,
    length_be32]
  omega

theorem length_zStream_fixedLz (s : Bytes) :
    (zStream .fixedLz s).length ≤ 6 + (10 + 9 * s.length + 7) / 8 ∧
      (2 ≤ s.length → 10 ≤ (zStream .fixedLz s).length) := by
  have hz : (zStream .fixedLz s).length = 6 + ((fixedLzBits s).length + 7) / 8 := by
    rw [← (deflateFixedLz_spells s).1]
    exact length_zlibWrap ..
  obtain ⟨hle, hge⟩ := length_fixedLzBits s
  rw [hz]
  exact ⟨by omega, fun hs => by have := hge hs; omega⟩

/-- One stored block has five bytes besides its data (R123). -/
theorem length_storedBlock (final : Bool) (data : Bytes) :
    (storedBlock final data).length = 5 + data.length := by
  simp only [storedBlock, le16, List.length_append, List.length_cons, List.length_nil]

/-- The stored blocks of `n` bytes: one for each 65535 bytes and for what is left (R203). -/
theorem length_storedBlocks {fuel : Nat} {rest : Bytes} (h : rest.length ≤ fuel) :
    (storedBlocks fuel rest).length = rest.length + 5 * ((rest.length + 65534) / 65535) := by
  induction fuel generalizing rest with
  | zero =>
    obtain rfl : rest = [] := List.eq_nil_of_length_eq_zero (by omega)
    rfl
  | succ fuel ih =>
    rw [storedBlocks]
    split
    case isTrue hnil => subst hnil; rfl
    case isFalse hne =>
      have hpos := List.length_pos_iff.2 hne
      have hmax : maxStored = 65535 := rfl
      rw [List.length_append, length_storedBlock, List.length_take,
        ih (by rw [List.length_drop]; omega), List.length_drop]
      omega

/-- The size of a `STORED` stream of data that is not empty (R214). -/
theorem length_zStream_stored {s : Bytes} (h : s ≠ []) :
    (zStream .stored s).length = 6 + s.length + 5 * ((s.length + 65534) / 65535) := by
  have hz : (zStream .stored s).length = 6 + (deflateStored s).length := length_zlibWrap ..
  rw [hz, deflateStored, if_neg h, length_storedBlocks (Nat.le_refl _)]
  omega

end Sys2Proof.Machine
end

section
/-! The statement of 43_png_framing.md on the lengths (R250). -/

namespace Sys2Proof.Machine

/-- The scanline buffer of an image that can be encoded has a filter byte and a pixel at least. -/
theorem State.CanEncode.length_scan {s : State} {scan : Bytes} (h : s.CanEncode scan) :
    scan.length = s.height.toNat * (1 + 3 * s.width.toNat) ∧ 4 ≤ scan.length := by
  obtain ⟨hw, hh, -⟩ := h.accepted
  have hwpos : 0 < s.width.toNat := Nat.pos_of_ne_zero ((toNat_eq_zero_iff _).not.2 hw)
  have hhpos : 0 < s.height.toNat := Nat.pos_of_ne_zero ((toNat_eq_zero_iff _).not.2 hh)
  have hlen : scan.length = s.height.toNat * (1 + 3 * s.width.toNat) := by
    rw [h.isScan.1, Nat.mul_comm s.width.toNat]
  refine ⟨hlen, ?_⟩
  calc 4 ≤ 1 + 3 * s.width.toNat := by omega
    _ ≤ s.height.toNat * (1 + 3 * s.width.toNat) := Nat.le_mul_of_pos_left _ hhpos
    _ = scan.length := hlen.symm

/-- Settles O50: the registers are the lengths of what was written, and the sizes are those of the
two instances' streams. -/
theorem encodeLengths : Obligations.EncodeLengths := by
  unfold Obligations.EncodeLengths
  intro s scan h
  obtain ⟨hexec, hscan, hz⟩ := exec_pngEncode_canEncode h
  obtain ⟨hout, -⟩ := (outIs_complete ..).2 (atEnd_outIs s scan hz)
  obtain ⟨⟨-, hscanLen⟩, ⟨-, hzLen⟩, -⟩ := atEnd_fields s scan
  rw [← State.complete_scanLen] at hscanLen
  rw [← State.complete_zLen] at hzLen
  generalize (s.atEnd scan).complete = t at *
  obtain ⟨hlen, hfour⟩ := h.length_scan
  have hscanNat : t.scanLen.toNat = scan.length := hscanLen ▸ Nat.mod_eq_of_lt hscan
  have hzNat : t.zLen.toNat = (zStream s.cfg.compMode scan).length :=
    hzLen ▸ Nat.mod_eq_of_lt (by omega)
  have houtNat : t.outLen.toNat = 57 + t.zLen.toNat := by
    rw [← Memory.length_readWritten hout, length_pngStream, hzNat]
  refine ⟨t, hexec, hscanNat.trans hlen, hzNat, houtNat, fun hmode => ?_, fun hmode => ?_⟩
  · have hne : scan ≠ [] := fun hnil => by simp [hnil] at hfour
    rw [houtNat, hzNat, hmode, length_zStream_stored hne, hscanNat]
    omega
  · obtain ⟨hle, hge⟩ := length_zStream_fixedLz scan
    have := hge (by omega)
    rw [houtNat, hzNat, hmode, hscanNat]
    omega

end Sys2Proof.Machine
end

section
/-! SUPPORT. What the bit reader (42_deflate.md R206) and `DecodeSym` (R209) give where the bits
that come next are known. -/

namespace Sys2Proof.Machine

/-- The reader `n` bits on. -/
def BitReader.skip (r : BitReader) (n : Nat) : BitReader := { r with pos := r.pos + n }

@[simp] theorem BitReader.skip_skip (r : BitReader) (m n : Nat) :
    (r.skip m).skip n = r.skip (m + n) := by
  simp [skip, Nat.add_assoc]

/-- The bits that `GetBit` gives next, one after another. -/
def BitReader.Next (r : BitReader) : List Bool → Prop
  | [] => True
  | x :: bits => getBit r = some (x.toNat, r.skip 1) ∧ (r.skip 1).Next bits

theorem next_append {r : BitReader} {a b : List Bool} :
    r.Next (a ++ b) ↔ r.Next a ∧ (r.skip a.length).Next b := by
  induction a generalizing r with
  | nil => exact by simp [BitReader.Next, BitReader.skip]
  | cons x a ih =>
    rw [List.cons_append, BitReader.Next, BitReader.Next, ih, BitReader.skip_skip, List.length_cons,
      Nat.add_comm 1, and_assoc]

/-- `GetBits` gives a numeric field back (R121, R206). -/
theorem getBits_field {r : BitReader} {v n : Nat} (h : r.Next (fieldBits v n)) :
    getBits r n = some (v % 2 ^ n, r.skip n) := by
  induction n generalizing r v with
  | zero => simp [getBits, BitReader.skip, Nat.mod_one]
  | succ n ih =>
    obtain ⟨hbit, hrest⟩ := h
    have hsum : (v.testBit 0).toNat + 2 * (v / 2 % 2 ^ n) = v % 2 ^ (n + 1) := by
      rw [Nat.pow_succ', Nat.mod_mul, Nat.testBit_zero]
      rcases Nat.mod_two_eq_zero_or_one v with h | h <;> simp [h]
    have hskip : (r.skip 1).skip n = r.skip (n + 1) := by rw [BitReader.skip_skip, Nat.add_comm]
    rw [← hsum, ← hskip]
    simp only [getBits, hbit, ih hrest, Option.pure_def, Option.bind_eq_bind, Option.bind_some]

theorem getBits_field_of_lt {r : BitReader} {v n : Nat} (h : r.Next (fieldBits v n))
    (hv : v < 2 ^ n) : getBits r n = some (v, r.skip n) := by
  rw [getBits_field h, Nat.mod_eq_of_lt hv]

theorem fieldBits_snoc (v n : Nat) : fieldBits v (n + 1) = fieldBits v n ++ [v.testBit n] := by
  induction n generalizing v with
  | zero => rfl
  | succ n ih => rw [fieldBits, ih, fieldBits, List.cons_append, Nat.testBit_succ]

/-- A Huffman code starts with its high bit. -/
theorem codeBits_succ (c n : Nat) : codeBits c (n + 1) = c.testBit n :: codeBits c n := by
  rw [codeBits, fieldBits_snoc, List.reverse_append]
  rfl

/-- `DecodeSym` finds the symbol of a codeword that starts with no shorter codeword (R209). -/
theorem decodeSym_code {code : Code} {c n s : Nat} {r : BitReader} (hn : 0 < n) (h15 : n ≤ 15)
    (hc : c < 2 ^ n) (hfound : findSymbol code n c = some s)
    (hshorter : ∀ m, 0 < m → m < n → findSymbol code (n - m) (c / 2 ^ m) = none)
    (h : r.Next (codeBits c n)) : decodeSym code r = some (s, r.skip n) := by
  have hread : ∀ m fuel r, 0 < m → m ≤ n → m ≤ fuel → r.Next (codeBits c m) →
      decodeSymFrom code fuel (n - m) (c / 2 ^ m) r = some (s, r.skip m) := by
    intro m
    induction m with
    | zero => intro _ _ h0; exact absurd h0 (Nat.lt_irrefl 0)
    | succ m ih =>
      intro fuel r _ hmn hfuel hr
      obtain ⟨fuel, rfl⟩ : ∃ f, fuel = f + 1 := ⟨fuel - 1, by omega⟩
      rw [codeBits_succ] at hr
      obtain ⟨hbit, hrest⟩ := hr
      have hval : 2 * (c / 2 ^ (m + 1)) + (c.testBit m).toNat = c / 2 ^ m := by
        rw [Nat.pow_succ, ← Nat.div_div_eq_div_mul, Nat.testBit_eq_decide_div_mod_eq]
        rcases Nat.mod_two_eq_zero_or_one (c / 2 ^ m) with h | h <;> simp [h] <;> omega
      have hlen : n - (m + 1) + 1 = n - m := by omega
      rw [decodeSymFrom, hbit]
      simp only [hval, hlen]
      rcases Nat.eq_zero_or_pos m with rfl | hm
      · simp [hfound]
      · rw [hshorter m hm (by omega)]
        simp only
        rw [ih fuel _ hm (by omega) (by omega) hrest, BitReader.skip_skip, Nat.add_comm 1]
  have hstart := hread n 15 r hn (Nat.le_refl n) h15 h
  rwa [Nat.sub_self, Nat.div_eq_of_lt hc] at hstart

theorem findSymbol_eq_some {code : Code} {e : CodeEntry} (he : e ∈ code)
    (huniq : ∀ e' ∈ code, e'.length = e.length → e'.codeword = e.codeword → e'.symbol = e.symbol) :
    findSymbol code e.length e.codeword = some e.symbol := by
  have hsome : (code.find? fun x => x.length == e.length && x.codeword == e.codeword).isSome := by
    rw [List.find?_isSome]
    exact ⟨e, he, by simp⟩
  obtain ⟨e', he'⟩ := Option.isSome_iff_exists.1 hsome
  have hmatch := List.find?_some he'
  simp only [Bool.and_eq_true, beq_iff_eq] at hmatch
  rw [findSymbol, he', Option.map_some,
    huniq e' (List.mem_of_find?_eq_some he') hmatch.1 hmatch.2]

theorem findSymbol_eq_none {code : Code} {n c : Nat}
    (h : ∀ e ∈ code, e.length = n → e.codeword ≠ c) : findSymbol code n c = none := by
  rw [findSymbol, Option.map_eq_none_iff, List.find?_eq_none]
  intro e he
  simpa using h e he

/-! ## The fixed codes (R127, R128, R199) -/

/-- The entry of a symbol in the fixed literal/length code. -/
def fixLitEntry (sym : Nat) : CodeEntry :=
  { symbol := sym, length := (fixLit sym).2, codeword := (fixLit sym).1 }

/-- The fixed literal/length code is the canonical code of its lengths. -/
theorem fixedLitCode_eq : fixedLitCode = (List.range 288).map fixLitEntry := by
  decide +kernel

/-- The fixed distance code is the canonical code of 32 lengths of 5. -/
theorem fixedDistCode_eq :
    fixedDistCode = (List.range 32).map fun j => { symbol := j, length := 5, codeword := j } := by
  decide +kernel

theorem decodeSym_fixLit {sym : Nat} {r : BitReader} (hsym : sym < 288)
    (h : r.Next (codeBits (fixLit sym).1 (fixLit sym).2)) :
    decodeSym fixedLitCode r = some (sym, r.skip (fixLit sym).2) := by
  have hranges := fixLit_cases sym
  have hmem {e : CodeEntry} : e ∈ fixedLitCode → ∃ x < 288, e = fixLitEntry x := by
    rw [fixedLitCode_eq, List.mem_map]
    rintro ⟨x, hx, rfl⟩
    exact ⟨x, List.mem_range.1 hx, rfl⟩
  have hself : fixLitEntry sym ∈ fixedLitCode := by
    rw [fixedLitCode_eq]
    exact List.mem_map_of_mem (List.mem_range.2 hsym)
  have hfits : (fixLit sym).1 < 2 ^ (fixLit sym).2 := by
    rcases hranges with ⟨_, h1, h2⟩ | ⟨_, _, h1, h2⟩ | ⟨_, _, h1, h2⟩ | ⟨_, h1, h2⟩ <;>
      rw [h1, h2] <;> omega
  refine decodeSym_code (by omega) (by omega) hfits
    (findSymbol_eq_some hself fun e he hlen hcode => ?_)
    (fun m h0 hm => findSymbol_eq_none fun e he hlen hcode => ?_) h
  · obtain ⟨x, hx, rfl⟩ := hmem he
    have hx' := fixLit_cases x
    simp only [fixLitEntry] at hlen hcode ⊢
    omega
  · obtain ⟨x, hx, rfl⟩ := hmem he
    have hx' := fixLit_cases x
    simp only [fixLitEntry] at hlen hcode
    have h12 : m = 1 ∨ m = 2 := by omega
    rcases h12 with rfl | rfl <;> omega

theorem decodeSym_fixDist {j : Nat} {r : BitReader} (hj : j < 32) (h : r.Next (codeBits j 5)) :
    decodeSym fixedDistCode r = some (j, r.skip 5) := by
  have hmem {e : CodeEntry} : e ∈ fixedDistCode → e.length = 5 ∧ e.codeword = e.symbol := by
    rw [fixedDistCode_eq, List.mem_map]
    rintro ⟨x, -, rfl⟩
    exact ⟨rfl, rfl⟩
  have hself : { symbol := j, length := 5, codeword := j } ∈ fixedDistCode := by
    rw [fixedDistCode_eq]
    exact List.mem_map.2 ⟨j, List.mem_range.2 hj, rfl⟩
  refine decodeSym_code (by decide) (by decide) hj (findSymbol_eq_some hself fun e he _ hcode => ?_)
    (fun m h0 hm => findSymbol_eq_none fun e he hlen => ?_) h
  · exact (hmem he).2.symm.trans hcode
  · have := (hmem he).1
    omega

end Sys2Proof.Machine
end

section
/-! SUPPORT. The reference decoder on a `FIXED_LZ` stream (42_deflate.md R213): the tokens give the
input back, and `InflateCodes` reads the tokens. -/

namespace Sys2Proof.Machine

/-! ## Length and distance symbols (R125, R126, R198) -/

/-- A length is its symbol's base plus the extra value, which fits its extra bits. -/
theorem lenSym_inverse : ∀ len ≤ 258, 3 ≤ len →
    (257 ≤ (lenSym len).symbol ∧ (lenSym len).symbol ≤ 285) ∧
      lengthBase.getD ((lenSym len).symbol - 257) 0 + (lenSym len).extra = len ∧
      lengthExtra.getD ((lenSym len).symbol - 257) 0 = (lenSym len).extraBits ∧
      (lenSym len).extra < 2 ^ (lenSym len).extraBits := by
  decide +kernel

/-- The entry found is at most `v`, and the next one is above it. -/
theorem largestIndex_spec {table : List Nat} {v : Nat} (h0 : table.getD 0 0 ≤ v) (bound : Nat) :
    largestIndex table v bound ≤ bound ∧ table.getD (largestIndex table v bound) 0 ≤ v ∧
      (largestIndex table v bound < bound → v < table.getD (largestIndex table v bound + 1) 0) := by
  induction bound with
  | zero => exact ⟨Nat.le_refl 0, h0, fun h => absurd h (Nat.lt_irrefl 0)⟩
  | succ k ih =>
    rw [largestIndex]
    split
    case isTrue hle => exact ⟨Nat.le_refl _, hle, fun h => absurd h (Nat.lt_irrefl _)⟩
    case isFalse hgt =>
      obtain ⟨hbound, hle, hnext⟩ := ih
      refine ⟨hbound.trans (Nat.le_succ k), hle, fun _ => ?_⟩
      rcases hbound.lt_or_eq with hlt | heq
      · exact hnext hlt
      · rw [heq]
        exact Nat.not_le.1 hgt

/-- The bases of R126 are as far apart as the extra bits reach. -/
theorem distBase_succ : ∀ j < 29,
    distBase.getD (j + 1) 0 = distBase.getD j 0 + 2 ^ distExtra.getD j 0 := by
  decide +kernel

/-- A distance is its symbol's base plus the extra value, which fits its extra bits. -/
theorem distSym_inverse {dist : Nat} (h1 : 1 ≤ dist) (hmax : dist ≤ 32768) :
    (distSym dist).symbol ≤ 29 ∧
      distBase.getD (distSym dist).symbol 0 + (distSym dist).extra = dist ∧
      (distSym dist).extra < 2 ^ distExtra.getD (distSym dist).symbol 0 := by
  obtain ⟨hj, hle, hnext⟩ := largestIndex_spec (table := distBase) h1 29
  simp only [distSym]
  generalize largestIndex distBase dist 29 = j at hj hle hnext
  refine ⟨hj, by omega, ?_⟩
  rcases hj.lt_or_eq with hlt | rfl
  · have hbase := distBase_succ j hlt
    have := hnext hlt
    omega
  · have hlast : distBase.getD 29 0 = 24577 ∧ distExtra.getD 29 0 = 13 := ⟨rfl, rfl⟩
    rw [hlast.1, hlast.2]
    omega

/-! ## The tokens (R197, R210) -/

theorem take_append_getD {s : Bytes} {i : Nat} (h : i < s.length) :
    s.take i ++ [s.getD i 0] = s.take (i + 1) := by
  rw [List.take_add_one, List.getD_eq_getElem?_getD, List.getElem?_eq_getElem h]
  rfl

/-- Copying a match onto the input so far gives the input up to its end, overlap or not (R210). -/
theorem copyMatch_take {s : Bytes} {dist len i : Nat} (h1 : 1 ≤ dist) (hback : dist ≤ i)
    (hfits : i + len ≤ s.length) (hsame : ∀ k < len, s[i + k]? = s[i - dist + k]?) :
    copyMatch dist len (s.take i) = s.take (i + len) := by
  induction len generalizing i with
  | zero => rfl
  | succ len ih =>
    have hlen : (s.take i).length = i := List.length_take_of_le (by omega)
    have hbyte : (s.take i).getD (i - dist) 0 = s.getD i 0 := by
      rw [List.getD_eq_getElem?_getD, List.getD_eq_getElem?_getD, List.getElem?_take,
        if_pos (by omega)]
      exact congrArg (Option.getD · 0) (hsame 0 (by omega)).symm
    rw [copyMatch, hlen, hbyte, take_append_getD (by omega),
      ih (by omega) (by omega) fun k hk => ?_]
    · congr 1
      omega
    · have := hsame (k + 1) (by omega)
      rw [Nat.add_right_comm i 1 k, Nat.add_assoc i k 1, this]
      congr 1
      omega

/-! ## `InflateCodes` and `Inflate` (R207, R210) -/

/-- The bits of a block with the fixed codes after its header: the tokens and the end of block. -/
def blockBits (ts : List Token) : List Bool := ts.flatMap tokenBits ++ codeBits 0 7

theorem blockBits_cons (t : Token) (ts : List Token) :
    blockBits (t :: ts) = tokenBits t ++ blockBits ts := by
  rw [blockBits, List.flatMap_cons, List.append_assoc]
  rfl

/-- The decoder reads a literal (R210). -/
theorem inflateCodes_lit {fuel : Nat} {r : BitReader} {b : Byte} (out : Bytes)
    (h : r.Next (tokenBits (.lit b))) :
    inflateCodes fixedLitCode fixedDistCode (fuel + 1) r out =
      inflateCodes fixedLitCode fixedDistCode fuel (r.skip (tokenBits (.lit b)).length)
        (out ++ [b]) := by
  have hlt := b.isLt
  rw [inflateCodes, decodeSym_fixLit (by omega) h]
  simp [tokenBits, hlt]

/-- The decoder reads a match (R210). -/
theorem inflateCodes_copy {fuel len dist : Nat} {r : BitReader} {out : Bytes}
    (hlen : 3 ≤ len ∧ len ≤ 258) (hdist : 1 ≤ dist ∧ dist ≤ 32768) (hback : dist ≤ out.length)
    (h : r.Next (tokenBits (.copy len dist))) :
    inflateCodes fixedLitCode fixedDistCode (fuel + 1) r out =
      inflateCodes fixedLitCode fixedDistCode fuel (r.skip (tokenBits (.copy len dist)).length)
        (copyMatch dist len out) := by
  obtain ⟨hsym, hbase, hextra, hfits⟩ := lenSym_inverse len hlen.2 hlen.1
  obtain ⟨hj, hdbase, hdfits⟩ := distSym_inverse hdist.1 hdist.2
  simp only [tokenBits, next_append, length_codeBits, length_fieldBits, List.length_append] at h
  obtain ⟨⟨⟨hlit, hlext⟩, hdsym⟩, hdext⟩ := h
  have h1 := decodeSym_fixLit (by omega) hlit
  have h2 := getBits_field_of_lt hlext hfits
  have h3 := decodeSym_fixDist (by omega) hdsym
  have h4 := getBits_field_of_lt hdext hdfits
  have hn256 : ¬(lenSym len).symbol < 256 := by omega
  have hne : (lenSym len).symbol ≠ 256 := by omega
  have hn285 : ¬285 < (lenSym len).symbol := by omega
  have hn29 : ¬29 < (distSym dist).symbol := by omega
  simp only [BitReader.skip_skip] at h2 h3 h4
  have hdextra : distExtra.getD (distSym dist).symbol 0 = (distSym dist).extraBits := rfl
  rw [inflateCodes]
  simp only [h1, h2, h3, h4, hn256, hne, hn285, hn29, Nat.not_lt.2 hback, if_false, hextra, hdextra,
    hbase, hdbase, Option.bind_eq_bind, Option.bind_some]
  rw [tokenBits]
  simp only [List.length_append, length_codeBits, length_fieldBits]

/-- The decoder reads the end of the block (R210). -/
theorem inflateCodes_end {fuel : Nat} {r : BitReader} (out : Bytes) (h : r.Next (codeBits 0 7)) :
    inflateCodes fixedLitCode fixedDistCode (fuel + 1) r out = some (r.skip 7, out) := by
  have hsym : decodeSym fixedLitCode r = some (256, r.skip 7) := decodeSym_fixLit (by decide) h
  rw [inflateCodes, hsym]
  rfl

/-- The decoder reads the tokens of a parse, from the input so far to the whole of it (R213). -/
theorem inflateCodes_parses {s : Bytes} {i fuel : Nat} {ts : List Token} {r : BitReader}
    (hp : Parses s i ts) (hfuel : ts.length < fuel) (h : r.Next (blockBits ts)) :
    inflateCodes fixedLitCode fixedDistCode fuel r (s.take i) =
      some (r.skip (blockBits ts).length, s) := by
  induction hp generalizing fuel r with
  | done =>
    obtain ⟨fuel, rfl⟩ := Nat.exists_eq_add_of_lt hfuel
    rw [List.take_length]
    exact inflateCodes_end s h
  | lit hi _ ih =>
    obtain ⟨fuel, rfl⟩ : ∃ f, fuel = f + 1 := ⟨fuel - 1, by omega⟩
    rw [blockBits_cons, next_append] at h
    rw [inflateCodes_lit _ h.1, take_append_getD hi, ih (by simpa using hfuel) h.2, blockBits_cons,
      BitReader.skip_skip, List.length_append]
  | copy hm _ ih =>
    obtain ⟨fuel, rfl⟩ : ∃ f, fuel = f + 1 := ⟨fuel - 1, by omega⟩
    obtain ⟨hlen, hdist, hback, hfits, hsame⟩ := hm
    rw [blockBits_cons, next_append] at h
    rw [inflateCodes_copy hlen hdist (by rw [List.length_take]; omega) h.1,
      copyMatch_take hdist.1 hback hfits hsame, ih (by simpa using hfuel) h.2, blockBits_cons,
      BitReader.skip_skip, List.length_append]

theorem next_of_getBit {r : BitReader} {bits : List Bool}
    (h : ∀ i < bits.length, getBit (r.skip i) = some ((bits.getD i false).toNat, r.skip (i + 1))) :
    r.Next bits := by
  induction bits generalizing r with
  | nil => trivial
  | cons x bits ih =>
    refine ⟨h 0 (Nat.succ_pos _), ih fun i hi => ?_⟩
    rw [BitReader.skip_skip, BitReader.skip_skip, Nat.add_comm 1, Nat.add_comm 1]
    exact h (i + 1) (Nat.succ_lt_succ hi)

/-- The reader at the start of bytes that spell `bits`, whatever comes after them. -/
theorem next_of_spells {bs : Bytes} {bits : List Bool} (rest : Bytes) (h : Spells bs bits)
    (hlen : bits.length ≤ 8 * bs.length) :
    BitReader.Next { data := bs ++ rest, pos := 0 } bits := by
  refine next_of_getBit fun i hi => ?_
  have hbyte : (bs ++ rest)[i / 8]? = some (bs.getD (i / 8) 0) := by
    have hlt : i / 8 < bs.length := by omega
    rw [List.getElem?_append_left hlt, List.getD_eq_getElem?_getD, List.getElem?_eq_getElem hlt]
    rfl
  have hbit := h (i / 8) (i % 8) (Nat.mod_lt _ (by decide))
  rw [Nat.div_add_mod] at hbit
  simp only [getBit, BitReader.skip, Nat.zero_add, hbyte, hbit]

/-- One block: its header, and its body by the block type (R207). -/
theorem inflateBlocks_block {fuel btype : Nat} {r r' : BitReader} {out out' : Bytes} (final : Bool)
    (hheader : r.Next (fieldBits final.toNat 1 ++ fieldBits btype 2)) (htype : btype < 4)
    (hbody : inflateBlock btype (r.skip 3) out = some (r', out')) :
    inflateBlocks (fuel + 1) r out =
      if final then some (r', out') else inflateBlocks fuel r' out' := by
  obtain ⟨hfinal, htypeBits⟩ := next_append.1 hheader
  rw [length_fieldBits] at htypeBits
  have h1 := getBits_field_of_lt hfinal (Bool.toNat_lt final)
  have h2 := getBits_field_of_lt htypeBits htype
  rw [BitReader.skip_skip] at h2
  rw [inflateBlocks]
  simp only [h1, h2, hbody, Option.bind_eq_bind, Option.bind_some]
  cases final <;> rfl

/-- `Inflate` gives back what `DeflateFixedLZ` was given, whatever follows the stream (R213). -/
theorem inflate_deflateFixedLz (s rest : Bytes) :
    inflate (deflateFixedLz s ++ rest) = some (s, (deflateFixedLz s).length) := by
  obtain ⟨hlen, hspells⟩ := deflateFixedLz_spells s
  have hbits : fixedLzBits s = (fieldBits 1 1 ++ fieldBits 1 2) ++ blockBits (tokens s) := by
    simp only [fixedLzBits, blockBits, List.append_assoc]
  have hcount : (fixedLzBits s).length = 3 + (blockBits (tokens s)).length := by
    rw [hbits, List.length_append, List.length_append, length_fieldBits, length_fieldBits]
  have hparse := tokens_parses s
  have hfuel : (tokens s).length < 8 * (deflateFixedLz s ++ rest).length + 1 := by
    have := hparse.length_bits.1
    rw [blockBits, List.length_append] at hcount
    rw [List.length_append]
    omega
  have hnext := next_of_spells rest hspells (by omega)
  rw [hbits, next_append] at hnext
  obtain ⟨hheader, hblock⟩ := hnext
  have hbody := inflateCodes_parses hparse hfuel hblock
  rw [List.take_zero] at hbody
  rw [inflate, inflateBlocks_block true hheader (by decide) hbody]
  simp [BitReader.skip, hlen, hcount]

end Sys2Proof.Machine
end

section
/-! SUPPORT. The reference decoder on a `STORED` stream and on the zlib wrapper (42_deflate.md R208,
R212, R213). -/

namespace Sys2Proof.Machine

/-- The bits of a byte sequence as the reader gives them (R121). -/
def byteBits (bs : Bytes) : List Bool := bs.flatMap fun b => fieldBits b.toNat 8

theorem byteBits_append (a b : Bytes) : byteBits (a ++ b) = byteBits a ++ byteBits b :=
  List.flatMap_append

@[simp] theorem length_byteBits (bs : Bytes) : (byteBits bs).length = 8 * bs.length := by
  rw [byteBits, List.length_flatMap]
  simp [Nat.mul_comm]

theorem spells_byteBits (bs : Bytes) : Spells bs (byteBits bs) := by
  induction bs with
  | nil => intro k j _; simp [byteBits]
  | cons b bs ih =>
    have hcons : byteBits (b :: bs) = fieldBits b.toNat 8 ++ byteBits bs := List.flatMap_cons
    intro k j hj
    rw [hcons]
    cases k with
    | zero =>
      rw [List.getD_append _ _ _ _ (by simpa using hj), Nat.mul_zero, Nat.zero_add,
        List.getD_eq_getElem?_getD (l := fieldBits _ _), getElem?_fieldBits _ hj]
      rfl
    | succ k =>
      rw [List.getD_append_right _ _ _ _ (by rw [length_fieldBits]; omega), length_fieldBits,
        List.getD_cons_succ, ih k j hj]
      congr 1
      omega

theorem fieldBits_add (v m n : Nat) :
    fieldBits v (m + n) = fieldBits (v % 2 ^ m) m ++ fieldBits (v / 2 ^ m) n := by
  refine List.ext_getElem? fun i => ?_
  rcases Nat.lt_or_ge i m with him | him
  · rw [List.getElem?_append_left (by simpa using him), getElem?_fieldBits _ him,
      getElem?_fieldBits _ (by omega), Nat.testBit_mod_two_pow]
    simp [him]
  · rw [List.getElem?_append_right (by simpa using him), length_fieldBits]
    rcases Nat.lt_or_ge i (m + n) with hin | hin
    · rw [getElem?_fieldBits _ hin, getElem?_fieldBits _ (by omega), Nat.testBit_div_two_pow]
      congr 2
      omega
    · rw [List.getElem?_eq_none (by simpa using hin),
        List.getElem?_eq_none (by rw [length_fieldBits]; omega)]

theorem byteBits_le16 (v : BitVec 16) : byteBits (le16 v) = fieldBits v.toNat 16 := by
  have hlow : (v.extractLsb' 0 8).toNat = v.toNat % 2 ^ 8 := by
    simp [BitVec.extractLsb'_toNat]
  have hhigh : (v.extractLsb' 8 8).toNat = v.toNat / 2 ^ 8 := by
    have := v.isLt
    rw [BitVec.extractLsb'_toNat, Nat.shiftRight_eq_div_pow]
    omega
  rw [fieldBits_add v.toNat 8 8, ← hlow, ← hhigh]
  simp [byteBits, le16]

/-- `LEN` bytes read one by one (R208). -/
theorem readBytes_bytes {r : BitReader} {bs : Bytes} (out : Bytes) (h : r.Next (byteBits bs)) :
    readBytes bs.length r out = some (r.skip (8 * bs.length), out ++ bs) := by
  induction bs generalizing r out with
  | nil => simp [readBytes, BitReader.skip]
  | cons b bs ih =>
    have hcons : byteBits (b :: bs) = fieldBits b.toNat 8 ++ byteBits bs := List.flatMap_cons
    rw [hcons, next_append, length_fieldBits] at h
    have hbyte := getBits_field_of_lt h.1 b.isLt
    rw [List.length_cons, readBytes]
    simp only [hbyte, Option.bind_eq_bind, Option.bind_some]
    rw [ih _ h.2, BitReader.skip_skip, BitVec.ofNat_toNat, BitVec.setWidth_eq, ← List.append_cons,
      Nat.mul_succ, Nat.add_comm 8]

/-- The decoder reads one stored block from a byte boundary (R208). -/
theorem inflateBlock_stored {r : BitReader} {final : Bool} {data : Bytes} (out : Bytes)
    (halign : r.pos % 8 = 0) (hlen : data.length < 65536)
    (h : r.Next (byteBits (storedBlock final data))) :
    r.Next (fieldBits final.toNat 1 ++ fieldBits 0 2) ∧
      inflateBlock 0 (r.skip 3) out =
        some (r.skip (8 * (storedBlock final data).length), out ++ data) := by
  have hheader : byteBits [(BitVec.ofBool final).setWidth 8] =
      (fieldBits final.toNat 1 ++ fieldBits 0 2) ++ fieldBits 0 5 := by
    cases final <;> rfl
  rw [length_storedBlock]
  simp only [storedBlock, byteBits_append, byteBits_le16, hheader, next_append, List.length_append,
    length_fieldBits] at h
  obtain ⟨⟨⟨⟨hhead, -⟩, hlenBits⟩, hnlenBits⟩, hdata⟩ := h
  refine ⟨next_append.2 hhead, ?_⟩
  have hskip : alignByte (r.skip 3) = r.skip 8 := by
    simp only [alignByte, BitReader.skip]
    congr 1
    omega
  have h1 := getBits_field_of_lt hlenBits (BitVec.isLt _)
  have h2 := getBits_field_of_lt hnlenBits (BitVec.isLt _)
  have h3 := readBytes_bytes out hdata
  have hnat : (BitVec.ofNat 16 data.length).toNat = data.length := Nat.mod_eq_of_lt hlen
  have hblock (r : BitReader) : inflateBlock 0 r out = inflateStored r out := rfl
  rw [BitVec.toNat_xor] at h2
  simp only [hnat, BitReader.skip_skip] at h1 h2 h3
  rw [hblock, inflateStored, hskip]
  simp only [h1, h2, h3, Option.bind_eq_bind, Option.bind_some]
  have hend : 1 + 2 + 5 + 16 + 16 + 8 * data.length = 8 * (5 + data.length) := by omega
  rw [hend]
  exact if_neg (not_not.2 rfl)

/-- The decoder reads the blocks of R203 from a byte boundary. -/
theorem inflateBlocks_storedBlocks {n fuel : Nat} {rest : Bytes} {r : BitReader} (out : Bytes)
    (hn : rest.length ≤ n) (hne : rest ≠ []) (hfuel : rest.length ≤ fuel) (halign : r.pos % 8 = 0)
    (h : r.Next (byteBits (storedBlocks n rest))) :
    inflateBlocks fuel r out =
      some (r.skip (8 * (storedBlocks n rest).length), out ++ rest) := by
  induction n generalizing fuel rest r out with
  | zero => exact absurd (List.eq_nil_of_length_eq_zero (Nat.le_zero.1 hn)) hne
  | succ n ih =>
    have hpos := List.length_pos_iff.2 hne
    have hmax : maxStored = 65535 := rfl
    obtain ⟨fuel, rfl⟩ : ∃ f, fuel = f + 1 := ⟨fuel - 1, by omega⟩
    rw [storedBlocks, if_neg hne] at h ⊢
    rw [byteBits_append, next_append, length_byteBits] at h
    obtain ⟨hheader, hbody⟩ :=
      inflateBlock_stored out halign (by rw [List.length_take]; omega) h.1
    rw [inflateBlocks_block _ hheader (by decide) hbody]
    by_cases hlast : rest.length ≤ maxStored
    · have htake : rest.take maxStored = rest := List.take_of_length_le hlast
      have hdrop : rest.drop maxStored = [] := List.drop_of_length_le hlast
      have hnil : storedBlocks n [] = [] := by cases n <;> rfl
      rw [htake, hdrop, hnil, List.append_nil, if_pos (decide_eq_true hlast)]
    · have hlen : (rest.drop maxStored).length = rest.length - maxStored := List.length_drop
      have hne' : rest.drop maxStored ≠ [] := List.length_pos_iff.1 (by omega)
      have halign' : (r.pos + 8 * (storedBlock (decide (rest.length ≤ maxStored))
        (rest.take maxStored)).length) % 8 = 0 := by omega
      rw [if_neg (by simpa using hlast), ih _ (by omega) hne' (by omega) halign' h.2,
        List.append_assoc, List.take_append_drop, BitReader.skip_skip, List.length_append,
        Nat.mul_add]

/-- `Inflate` gives back what `DeflateStored` was given, whatever follows the stream (R213). -/
theorem inflate_deflateStored (s rest : Bytes) :
    inflate (deflateStored s ++ rest) = some (s, (deflateStored s).length) := by
  have hnext : BitReader.Next { data := deflateStored s ++ rest, pos := 0 }
      (byteBits (deflateStored s)) :=
    next_of_spells rest (spells_byteBits _) (length_byteBits _).le
  have hblocks : inflateBlocks (8 * (deflateStored s ++ rest).length + 1)
      { data := deflateStored s ++ rest, pos := 0 } [] =
      some (BitReader.skip { data := deflateStored s ++ rest, pos := 0 }
        (8 * (deflateStored s).length), s) := by
    by_cases hs : s = []
    · subst hs
      obtain ⟨hheader, hbody⟩ := inflateBlock_stored [] rfl (by decide) hnext
      exact inflateBlocks_block true hheader (by decide) hbody
    · have hlen := length_storedBlocks (Nat.le_refl s.length)
      rw [deflateStored, if_neg hs] at hnext ⊢
      exact inflateBlocks_storedBlocks [] (Nat.le_refl _) hs
        (by rw [List.length_append, hlen]; omega) rfl hnext
  rw [inflate, hblocks]
  simp [BitReader.skip]
  omega

/-! ## `ZlibDecode` (R212) -/

/-- `ZlibDecode` opens the wrapper of deflate data that `Inflate` reads. -/
theorem zlibDecode_zlibWrap {deflateData s : Bytes}
    (h : ∀ rest, inflate (deflateData ++ rest) = some (s, deflateData.length)) :
    zlibDecode (zlibWrap deflateData s) = some s := by
  have hlen := length_zlibWrap deflateData s
  have hdrop : (zlibWrap deflateData s).drop 2 = deflateData ++ be32 (adler32 s) := rfl
  have hcmf : (zlibWrap deflateData s).getD 0 0 = 0x78 := rfl
  have hflg : (zlibWrap deflateData s).getD 1 0 = 0xDA := rfl
  have hcheck : zlibHeaderOk 0x78 0xDA = true := by decide
  have htrailer : ((zlibWrap deflateData s).drop (2 + deflateData.length)).take 4 =
      be32 (adler32 s) := by
    rw [← List.drop_drop, hdrop, List.drop_left]
    rfl
  rw [zlibDecode, if_neg (by omega), hcmf, hflg, hcheck, if_neg (by simp), hdrop, h]
  simp only [htrailer]
  rw [if_neg (by omega), if_neg (not_not.2 rfl)]

/-- Z1 (R190) holds of both instances (R213). -/
theorem zlibDecode_zStream {mode : CompMode} (h : mode ≠ .other) (s : Bytes) :
    zlibDecode (zStream mode s) = some s := by
  cases mode with
  | fixedLz => exact zlibDecode_zlibWrap (inflate_deflateFixedLz s)
  | stored => exact zlibDecode_zlibWrap (inflate_deflateStored s)
  | other => exact absurd rfl h

end Sys2Proof.Machine
end

section
/-! SUPPORT. `PngParse` on the datastream of an image (43_png_framing.md R254, R256). -/

namespace Sys2Proof.Machine

/-- The parts of a chunk at the head of what is left (R102). -/
theorem chunk_append_parts {type data : Bytes} (rest : Bytes) (htype : type.length = 4) :
    let p := chunk type data ++ rest
    p.take 4 = be32Nat data.length ∧ (p.drop 4).take 4 = type ∧
      (p.drop 8).take data.length = data ∧
      (p.drop (8 + data.length)).take 4 = be32 (crc32 (type ++ data)) ∧
      p.drop (12 + data.length) = rest := by
  intro p
  have hp : StandsAt p 0 (chunk type data) := ⟨[], rest, rfl, rfl⟩
  obtain ⟨hbody, hcrc⟩ := hp.split
  obtain ⟨hhead, hdata⟩ := hbody.split
  obtain ⟨hlen, htypeAt⟩ := hhead.split
  have hdataIndex : 0 + (be32Nat data.length ++ type).length = 8 := by
    rw [List.length_append, length_be32Nat, htype]
  have hcrcIndex : 0 + (be32Nat data.length ++ type ++ data).length = 8 + data.length := by
    rw [List.length_append, ← Nat.add_assoc, hdataIndex]
  rw [hcrcIndex] at hcrc
  rw [hdataIndex] at hdata
  have htypeEq := htypeAt.take_drop
  rw [htype] at htypeEq
  refine ⟨hlen.take_drop, htypeEq, hdata.take_drop, hcrc.take_drop, ?_⟩
  refine List.drop_left' ?_
  rw [length_chunk, htype]

/-- `PngParse` takes a chunk off the head of what is left (R256). -/
theorem parseChunks_chunk {fuel : Nat} {type data : Bytes} (rest : Bytes) (htype : type.length = 4)
    (hdata : data.length < 2 ^ 31) :
    parseChunks (fuel + 1) (chunk type data ++ rest) =
      (parseChunks fuel rest).map ((type, data) :: ·) := by
  obtain ⟨hlen, htypeAt, hdataAt, hcrc, hrest⟩ := chunk_append_parts (data := data) rest htype
  have hlong : 12 + data.length ≤ (chunk type data ++ rest).length := by
    rw [List.length_append, length_chunk]
    omega
  have hne : chunk type data ++ rest ≠ [] := List.length_pos_iff.1 (by omega)
  have hn : beValue (be32Nat data.length) = data.length := by
    rw [be32Nat, beValue_be32]
    exact Nat.mod_eq_of_lt (by omega)
  rw [parseChunks, if_neg hne, if_neg (by omega)]
  simp only [hlen, hn, htypeAt, hdataAt, hcrc, hrest]
  rw [if_neg (by omega), if_neg (not_not.2 rfl)]

/-- `PngParse` of the datastream of R100 is the image of its IHDR data and its zlib stream. -/
theorem pngParse_pngStream (width height : Word) {z : Bytes} (hz : z.length < 2 ^ 31) :
    pngParse (pngStream width height z) = parseImage (ihdrData width height) z := by
  have hlen := length_pngStream width height z
  have hsig : (pngStream width height z).take 8 = pngSignature := rfl
  have hbody : (pngStream width height z).drop 8 = chunk typeIhdr (ihdrData width height) ++
      (chunk typeIdat z ++ (chunk typeIend [] ++ [])) := by
    simp only [pngStream, List.append_assoc, List.append_nil]
    exact List.drop_left' rfl
  have hchunks : parseChunks ((pngStream width height z).length + 1)
      ((pngStream width height z).drop 8) =
      some [(typeIhdr, ihdrData width height), (typeIdat, z), (typeIend, [])] := by
    rw [hbody, hlen, Nat.add_comm 57, parseChunks_chunk _ rfl (by rw [length_ihdrData]; decide),
      parseChunks_chunk _ rfl hz, parseChunks_chunk _ rfl (by decide)]
    rfl
  have hhead : ¬((pngStream width height z).length < 8 ∨
      (pngStream width height z).take 8 ≠ pngSignature) := by
    rw [hlen, hsig]
    exact not_or.2 ⟨by omega, not_not.2 rfl⟩
  rw [pngParse, if_neg hhead, hchunks]
  simp

/-- Consecutive reads are one read. -/
theorem Memory.readWritten_add (m : Memory) (a n k : Nat) :
    m.readWritten a (n + k) =
      (m.readWritten a n).bind fun bs => (m.readWritten (a + n) k).map (bs ++ ·) := by
  induction n generalizing a with
  | zero => simp [readWritten]
  | succ n ih =>
    rw [Nat.succ_add, readWritten, readWritten]
    cases m.read a with
    | none => rfl
    | some b =>
      simp only [ih, Nat.add_comm n 1, ← Nat.add_assoc]
      cases m.readWritten (a + 1) n with
      | none => rfl
      | some bs =>
        simp only [Option.bind_some, Option.map_some, Option.map_map]
        rfl

/-- Stripping the filter bytes of the scanline buffer gives the pixels (R105, R254). -/
theorem stripFilters_scanRows {pix : Memory} {rowBytes r n : Nat} {scan : Bytes}
    (h : scanRows pix rowBytes r n = some scan) :
    stripFilters rowBytes n scan = pix.readWritten (r * rowBytes) (n * rowBytes) := by
  induction n generalizing r scan with
  | zero =>
    obtain rfl : [] = scan := by simpa [scanRows] using h
    simp [stripFilters, Memory.readWritten]
  | succ n ih =>
    cases hrow : pix.readWritten (r * rowBytes) rowBytes with
    | none => simp [scanRows, hrow] at h
    | some row =>
      simp only [scanRows, hrow, Option.map_eq_some_iff] at h
      obtain ⟨rest, hrest, rfl⟩ := h
      have hlen := Memory.length_readWritten hrow
      have hne : ¬((0x00 : Byte) ≠ 0x00 ∨ (row ++ rest).length < rowBytes) := by
        rw [List.length_append, hlen]
        simp
      rw [Nat.succ_mul, Nat.add_comm (n * rowBytes), Memory.readWritten_add, hrow, Option.bind_some,
        ← Nat.succ_mul, ← ih hrest, List.cons_append]
      simp only [stripFilters]
      rw [if_neg hne, List.take_left' hlen, List.drop_left' hlen]

/-- The image that an IHDR chunk and a zlib stream give (R256). -/
theorem parseImage_ihdrData {width height : Word} {z scan pixels : Bytes}
    (hw : 0 < width.toNat ∧ width.toNat < 2 ^ 31) (hh : 0 < height.toNat ∧ height.toNat < 2 ^ 31)
    (hz : zlibDecode z = some scan)
    (hlen : scan.length = height.toNat * (1 + 3 * width.toNat))
    (hstrip : stripFilters (3 * width.toNat) height.toNat scan = some pixels) :
    parseImage (ihdrData width height) z =
      some { width := width.toNat, height := height.toNat, pixels := pixels } := by
  have hwidth : beValue ((ihdrData width height).take 4) = width.toNat := beValue_be32 width
  have hheight : beValue (((ihdrData width height).drop 4).take 4) = height.toNat :=
    beValue_be32 height
  have htail : (ihdrData width height).drop 8 = ihdrTail := rfl
  rw [parseImage]
  simp only [hwidth, hheight, htail, hz]
  rw [if_neg (by omega), if_neg (not_not.2 rfl), if_neg (not_not.2 hlen), hstrip]
  rfl

/-- The dimensions of an accepted image are those of a PNG (R104: at most `2^31 - 1`). -/
theorem dimensions_lt {s : State} (ha : s.ImageAccepted) :
    (0 < s.width.toNat ∧ s.width.toNat < 2 ^ 31) ∧
      (0 < s.height.toNat ∧ s.height.toNat < 2 ^ 31) := by
  obtain ⟨hw, hh, hpix, -, -⟩ := ha
  have hwpos : 0 < s.width.toNat := Nat.pos_of_ne_zero ((toNat_eq_zero_iff _).not.2 hw)
  have hhpos : 0 < s.height.toNat := Nat.pos_of_ne_zero ((toNat_eq_zero_iff _).not.2 hh)
  have hwle := Nat.le_mul_of_pos_right s.width.toNat hhpos
  have hhle := Nat.le_mul_of_pos_left s.height.toNat hwpos
  have hlt := s.pixLen.isLt
  omega

namespace State.CanEncode

variable {s : State} {scan : Bytes}

/-- R258's scanline buffer is the one that `PNG.ENCODE` builds. -/
theorem scanlines_eq (h : s.CanEncode scan) : scanlines s = some scan := by
  obtain ⟨scan', hs⟩ := Option.isSome_iff_exists.1 ((scanlines_isSome h.accepted).2 h.written)
  rwa [isScan_unique h.isScan (isScan_of_scanlines hs)]

/-- The scanline buffer without its filter bytes is the image's pixels (R254). -/
theorem stripFilters_eq (h : s.CanEncode scan) :
    ∃ pixels, pixelData s = some pixels ∧
      stripFilters (3 * s.width.toNat) s.height.toNat scan = some pixels := by
  obtain ⟨pixels, hpixels⟩ := Option.isSome_iff_exists.1
    ((Memory.readWritten_isSome s.pix 0 s.pixLen.toNat).2 fun k hk => by
      rw [Nat.zero_add]
      exact h.written k hk)
  refine ⟨pixels, hpixels, ?_⟩
  have hlen : s.height.toNat * (s.width.toNat * 3) = s.pixLen.toNat := by
    rw [h.accepted.2.2.1]
    ring
  rw [Nat.mul_comm 3, stripFilters_scanRows h.scanlines_eq, Nat.zero_mul, hlen]
  exact hpixels

/-- The run of a command finds the same image. -/
theorem during (h : s.CanEncode scan) (w : Word) : (s.during w).CanEncode scan :=
  ⟨h.config, h.accepted, h.written, h.isScan, h.zFits, h.outFits⟩

theorem of_during {w : Word} (h : (s.during w).CanEncode scan) : s.CanEncode scan :=
  ⟨h.config, h.accepted, h.written, h.isScan, h.zFits, h.outFits⟩

/-- `PngParse` gives back the image, where `ZlibDecode` gives back the scanline buffer (R254). -/
theorem pngParse_eq (h : s.CanEncode scan) {pixels : Bytes}
    (hround : zlibDecode (zStream s.cfg.compMode scan) = some scan)
    (hstrip : stripFilters (3 * s.width.toNat) s.height.toNat scan = some pixels) :
    pngParse (pngStream s.width s.height (zStream s.cfg.compMode scan)) =
      some { width := s.width.toNat, height := s.height.toNat, pixels := pixels } := by
  obtain ⟨hw, hh⟩ := dimensions_lt h.accepted
  rw [pngParse_pngStream _ _ (h.zFits.trans_lt (zCap_lt h.config))]
  exact parseImage_ihdrData hw hh hround h.length_scan.1 hstrip

/-- The IDAT payload in the output of a successful `PNG.ENCODE` is the zlib stream (R251). -/
theorem idat_payload (h : s.CanEncode scan) :
    ((pngStream s.width s.height (zStream s.cfg.compMode scan)).drop 41).take
        (s.atEnd scan).complete.zLen.toNat =
      zStream s.cfg.compMode scan := by
  obtain ⟨-, -, hlt⟩ := exec_pngEncode_canEncode h
  obtain ⟨-, ⟨-, hzLen⟩, -⟩ := atEnd_fields s scan
  have hlen : (s.atEnd scan).complete.zLen.toNat = (zStream s.cfg.compMode scan).length := by
    rw [State.complete_zLen, hzLen]
    exact Nat.mod_eq_of_lt (by omega)
  obtain ⟨-, hidat, -⟩ := pngStream_chunks s.width s.height (zStream s.cfg.compMode scan)
  rw [hlen]
  exact hidat.split.1.split.2.take_drop

end State.CanEncode

/-- The code that R248 and the capacity rules give for an image that cannot be encoded (R258). -/
def encodeError (s : State) : PngeError :=
  if s.width = 0 ∨ s.height = 0 then .unsupportedDimensions
  else if s.pixLen.toNat ≠ s.width.toNat * s.height.toNat * 3 then .bufferSizeMismatch
  else .capacityExceeded

theorem validate_raised_encodeError {s t : State} {e : PngeError} (h : validate s = .raised e t) :
    e = encodeError s := by
  rcases validate_cases s with ⟨-, hv⟩ | ⟨hzero, hv⟩ | ⟨hd, hn, hv⟩ | ⟨hd, hn, -, hv⟩ <;>
    cases h.symm.trans hv
  · rw [encodeError, if_pos hzero]
  · rw [encodeError, if_neg (not_or.2 hd), if_pos hn]
  · rw [encodeError, if_neg (not_or.2 hd), if_neg (not_not.2 hn)]

/-- `PNG.ENCODE` of a written image that it cannot encode fails with that code (R258). -/
theorem encodeRun_cannot {s : State} {scan : Bytes} (hc : s.cfg.wellFormed = true)
    (hp : s.PixWritten) (hscan : s.IsScan scan) (hno : ¬s.CanEncode scan) :
    ∃ t, encodeRun s = .raised (encodeError s) t := by
  by_cases ha : s.ImageAccepted
  · have herr : encodeError s = .capacityExceeded := by
      rw [encodeError, if_neg (not_or.2 ⟨ha.1, ha.2.1⟩), if_neg (not_not.2 ha.2.2.1)]
    rw [herr]
    rcases encodeRun_cases hc ha with ⟨hnp, -, -⟩ | ⟨scan', hs, -, hrun⟩
    · exact absurd hp hnp
    · obtain rfl := isScan_unique (isScan_of_scanlines hs) hscan
      rcases hrun with ⟨-, hrun⟩ | ⟨-, -, hrun⟩ | ⟨-, -, -, hrun⟩ | ⟨hz, hout, -⟩
      · exact ⟨_, hrun⟩
      · exact ⟨_, hrun⟩
      · exact ⟨_, hrun⟩
      · exact absurd ⟨hc, ha, hp, hscan, hz, hout⟩ hno
  · obtain ⟨e, he, hrun⟩ := encodeRun_rejected ha
    exact ⟨_, validate_raised_encodeError he ▸ hrun⟩

end Sys2Proof.Machine
end

section
/-! The statement of 43_png_framing.md on the encoder as a whole (R254, R258). -/

namespace Sys2Proof.Machine

/-- Settles O55: the output is the datastream of the compressed scanline buffer; both instances are
undone by `ZlibDecode` (`zlibDecode_zStream`), and `PngParse` undoes the rest
(`pngParse_pngStream`, `stripFilters_scanRows`). -/
theorem encoderIsCorrect : Obligations.EncoderIsCorrect := by
  unfold Obligations.EncoderIsCorrect
  refine ⟨fun s scan hready h hother => ?_, fun s scan hready hc hp hscan hno => ?_⟩
  · have hd := h.during (encode .pngEncode)
    obtain ⟨hexec, hout⟩ := exec_pngEncode_output hd
    obtain ⟨-, -, herr, -⟩ := atEnd_fields (s.during (encode .pngEncode)) scan
    obtain ⟨pixels, hpixels, hstrip⟩ := h.stripFilters_eq
    have hround : zlibDecode (zStream s.cfg.compMode scan) = some scan :=
      (em _).elim hother fun hmode => zlibDecode_zStream hmode scan
    have hfilter (r : Nat) (hr : r < s.height.toNat) :
        scan[r * (1 + 3 * s.width.toNat)]? = some 0x00 := by
      rw [Nat.mul_comm 3]
      exact h.isScan.2 r hr 0 (by omega)
    refine ⟨_, _, pixels, (runWord_encode hready .pngEncode).trans hexec, herr.trans hready.2, hout,
      hpixels, ?_, h.length_scan.1, hfilter, hstrip, hd.pngParse_eq hround hstrip⟩
    rw [hd.idat_payload]
    exact hround
  · obtain ⟨x, hrun⟩ := encodeRun_cannot (s := s.during (encode .pngEncode)) hc hp hscan
      fun h => hno h.of_during
    exact ⟨_, _, (runWord_encode hready .pngEncode).trans (congrArg Flow.finishEncode hrun), rfl,
      rfl, rfl⟩

end Sys2Proof.Machine
end

section
/-! SUPPORT. What a write to `CMD` does (44_system.md R282), the other registers the host writes
(R286), and which reads the error code reaches (R285). -/

namespace Sys2Proof.Machine

/-- R284: the registers cannot be written while busy. -/
theorem writeRegister_busy {s : State} (offset : Nat) (v : Word) (hb : s.busy = true) :
    writeRegister offset v s = s := by
  simp [writeRegister, hb]

/-- While idle a write to `CMD` is an issue (R282). -/
theorem writeRegister_cmd {s : State} (w : Word) (hb : s.busy = false) :
    writeRegister 0x00 w s = issue w s := by
  simp [writeRegister, registerAt, hb]

theorem issue_refused {s : State} {w : Word} (he : s.err ≠ none) (hw : w ≠ 0x00000001) :
    issue w s = s := if_pos ⟨he, hw⟩

theorem issue_accepted {s : State} {w : Word} (h : s.err = none ∨ w = 0x00000001) :
    issue w s = { s with lastCmd := w, busy := true, done := false } :=
  if_neg fun ⟨he, hw⟩ => h.elim he hw

/-- The writable registers other than `CMD`; `ERR` does not matter (R285). -/
theorem writeRegister_image {s : State} (v : Word) (hb : s.busy = false) :
    writeRegister 0x08 v s = { s with width := v } ∧
      writeRegister 0x0C v s = { s with height := v } ∧
      writeRegister 0x10 v s = { s with pixLen := v } := by
  simp [writeRegister, registerAt, hb]

/-- `STATUS` is at offset 4 alone (20_memory.md R62). -/
theorem eq_of_registerAt_status {offset : Nat} (h : registerAt offset = some .status) :
    offset = 0x04 := by
  unfold registerAt at h
  split at h <;> cases h
  rfl

/-- `STATUS` alone shows the error code. -/
theorem registerValue_withErr {r : Register} (hr : r ≠ .status) (s : State)
    (e : Option PngeError) : registerValue { s with err := e } r = registerValue s r := by
  cases r with
  | status => exact absurd rfl hr
  | _ => rfl

theorem readRegister_withErr {offset : Nat} (h : offset ≠ 0x04) (s : State)
    (e : Option PngeError) : readRegister offset { s with err := e } = readRegister offset s := by
  unfold readRegister
  cases hr : registerAt offset with
  | none => rfl
  | some r =>
    have hne : r ≠ .status := fun hs => h (eq_of_registerAt_status (hs ▸ hr))
    simp only [registerValue_withErr hne]

theorem readRegister_status {s : State} (h : s.busy = false) :
    readRegister 0x04 s = statusWord false s.done (errCode s.err) s.phase.code := by
  simp [readRegister, registerAt, registerValue, h]

/-- `SRST` is accepted after an error as well (R281). -/
theorem runWord_srst {s : State} (hb : s.busy = false) :
    runWord (encode .srst) s = .next s.softReset := by
  rw [runWord, writeRegister_cmd _ hb, issue_accepted (w := encode .srst) (.inr rfl),
    engineStep_busy rfl, perform_ok (decode_encode .srst)]
  rfl

/-- `NOP` leaves no trace but `LAST_CMD` and the completion flags (R280). -/
theorem runWord_nop {s : State} (h : s.Ready) :
    runWord (encode .nop) s = .next { s with lastCmd := 0, phase := .idle, done := true } := by
  have hlast : encode .nop = 0 := rfl
  rw [runWord_encode h .nop]
  simp [exec, execNop, Flow.finish, State.complete, hlast, h.1]

theorem readRegister_status_softReset (s : State) : readRegister 0x04 s.softReset = 0 :=
  (readRegister_status rfl).trans (show statusWord false false 0 0 = 0 from rfl)

end Sys2Proof.Machine
end

section
/-! The statements of 44_system.md. -/

namespace Sys2Proof.Machine

/-- Settles O21: while idle the write is an issue, refused or accepted (`issue_refused`,
`issue_accepted`). -/
theorem commandWriteIssues : Obligations.CommandWriteIssues := by
  unfold Obligations.CommandWriteIssues
  exact fun s w => ⟨writeRegister_busy 0x00 w,
    fun hb he hw => (writeRegister_cmd w hb).trans (issue_refused he hw),
    fun hb h => (writeRegister_cmd w hb).trans (issue_accepted h)⟩

/-- Settles O22: the test of `ERR` stands in the issue alone, and of the reads only that of `STATUS`
shows the code (`readRegister_withErr`). -/
theorem errorRefusesAllButSrst : Obligations.ErrorRefusesAllButSrst := by
  unfold Obligations.ErrorRefusesAllButSrst
  intro s hb he
  refine ⟨fun w hw => (writeRegister_cmd w hb).trans (issue_refused he hw),
    (writeRegister_cmd _ hb).trans (issue_accepted (.inr rfl)),
    fun v => writeRegister_image v hb, fun i b hi => ?_,
    fun offset _ h => (readRegister_withErr h s none).symm, fun _ => rfl, readRegister_status hb⟩
  rw [writePix_effective b hb hi]
  exact Memory.read_write_byte_same s.pix i b

/-- Settles O7: the three results are their definitions; a ready engine performs `NOP`
(`runWord_nop`), an idle one `SRST` (`runWord_srst`), and the other writes are ignored or
refused. -/
theorem systemCommandResults : Obligations.SystemCommandResults := by
  unfold Obligations.SystemCommandResults
  refine ⟨fun _ => rfl, fun _ => rfl, fun _ => rfl, rfl, rfl, rfl, ⟨.immediateNotZero, rfl⟩,
    fun _ => runWord_nop, fun s hb => ⟨s.softReset, runWord_srst hb,
      readRegister_status_softReset s, rfl, rfl, rfl, rfl, rfl⟩,
    fun s h => ⟨writeRegister_encode_refused h (by decide),
      writeRegister_encode_refused h (by decide)⟩,
    fun s hb => writeRegister_busy 0x00 _ hb⟩

end Sys2Proof.Machine
end

section
/-! SUPPORT. Where a command raises and what it leaves (60_exceptions.md R298). -/

namespace Sys2Proof.Machine

/-- A piece of pseudocode that stands at `s` raises there, if it raises; else it keeps `ERR`. -/
def Flow.RaisesUnchanged (s : State) : Flow → Prop
  | .go t => t.err = s.err
  | .raised _ t => t = s
  | .stuck _ => True

/-- The end of a step command that raises (R298). -/
theorem Flow.RaisesUnchanged.finish_eq {f : Flow} {s t : State} {e : PngeError}
    (hf : f.RaisesUnchanged s) (hs : s.err = none) (h : f.finish = .next t)
    (he : t.err = some e) : t = s.raise e := by
  cases f with
  | go x => cases h; cases (hf.trans hs).symm.trans he
  | raised e' x =>
    cases h
    cases hf
    obtain rfl : e' = e := Option.some.inj he
    rfl
  | stuck x => cases h

theorem appendOut_raisesUnchanged (bs : Bytes) (s : State) :
    (appendOut bs s).RaisesUnchanged s := by
  rcases appendOut_cases bs s with ⟨-, h⟩ | ⟨-, h⟩ <;> rw [h] <;> rfl

theorem emitChunk_raisesUnchanged (type data : Bytes) (s : State) :
    (emitChunk type data s).RaisesUnchanged s := by
  rcases emitChunk_cases type data s with ⟨-, h⟩ | ⟨-, h⟩ <;> rw [h] <;> rfl

theorem buildScan_raisesUnchanged (s : State) : (buildScan s).RaisesUnchanged s := by
  rcases buildScan_cases s with ⟨_, -, h⟩ | ⟨-, h⟩ <;> rw [h]
  · rfl
  · trivial

theorem ihdrRun_raisesUnchanged (s : State) :
    (ihdrRun s).RaisesUnchanged (s.setPhase .ihdr) := by
  by_cases hzero : s.width = 0 ∨ s.height = 0
  · rw [ihdrRun_zero hzero]; rfl
  · obtain ⟨hw, hh⟩ := not_or.1 hzero
    rw [ihdrRun_dimensions hw hh]
    exact emitChunk_raisesUnchanged _ _ _

theorem scanRun_raisesUnchanged (s : State) :
    (scanRun s).RaisesUnchanged (s.setPhase .scan) := by
  by_cases ha : s.ImageAccepted
  · rw [scanRun_accepted ha]
    exact buildScan_raisesUnchanged _
  · obtain ⟨e, he, -⟩ := encodeRun_rejected ha
    rw [scanRun_raised he]; rfl

/-- The states in which the pseudocode of `PNG.ENCODE` raises: in `Validate`, or at one of its three
capacity checks that can fail (R247). -/
inductive EncodeRaisePoint (s : State) : State → Prop
  | validate : EncodeRaisePoint s (s.clearLengths.setPhase .scan)
  | zcomp (scan : Bytes) : EncodeRaisePoint s (s.atZcomp scan)
  | idat (scan : Bytes) : EncodeRaisePoint s (s.atIdat scan)
  | iend (scan : Bytes) : EncodeRaisePoint s (s.atIend scan)

/-- The states in which a command that started in `s` records its error; `PNG.ENCODE` has zeroed the
three lengths before (R298). -/
inductive RaisePoint (s : State) : Instr → State → Prop
  | stepCommand {i : Instr} {p : Phase}
      (h : (i, p) ∈ [(Instr.pngSig, Phase.sig), (.pngIhdr, .ihdr), (.pngScan, .scan),
        (.pngIdat, .idat), (.pngIend, .iend)]) : RaisePoint s i (s.setPhase p)
  | zcomp : RaisePoint s .pngZcomp s.atZcompCheck
  | encode {u : State} (h : EncodeRaisePoint s u) : RaisePoint s .pngEncode u.clearLengths

section
variable {s t : State} {e : PngeError}

theorem exec_pngZcomp_raises (hs : s.err = none) (h : exec .pngZcomp s = .next t)
    (he : t.err = some e) : ∃ u, RaisePoint s .pngZcomp u ∧ t = u.raise e := by
  rcases exec_pngZcomp_cases s with ⟨-, hrun⟩ | ⟨-, hrun⟩ <;> cases hrun.symm.trans h
  · cases hs.symm.trans he
  · obtain rfl := Option.some.inj he
    exact ⟨_, .zcomp, rfl⟩

theorem finishEncode_raises {e' : PngeError} {u : State} (hu : EncodeRaisePoint s u)
    (h : (Flow.raised e' u).finishEncode = .next t) (he : t.err = some e) :
    ∃ u, RaisePoint s .pngEncode u ∧ t = u.raise e := by
  cases h
  obtain rfl : e' = e := Option.some.inj he
  exact ⟨_, .encode hu, rfl⟩

theorem exec_pngEncode_raises (hc : s.cfg.wellFormed = true) (hs : s.err = none)
    (h : exec .pngEncode s = .next t) (he : t.err = some e) :
    ∃ u, RaisePoint s .pngEncode u ∧ t = u.raise e := by
  change (encodeRun s).finishEncode = .next t at h
  by_cases ha : s.ImageAccepted
  · rcases encodeRun_cases hc ha with ⟨-, -, hrun⟩ | ⟨scan, -, -, hrun⟩
    · rw [hrun] at h; cases h
    · rcases hrun with ⟨-, hrun⟩ | ⟨-, -, hrun⟩ | ⟨-, -, -, hrun⟩ | ⟨-, -, hrun⟩ <;> rw [hrun] at h
      · exact finishEncode_raises (.zcomp scan) h he
      · exact finishEncode_raises (.idat scan) h he
      · exact finishEncode_raises (.iend scan) h he
      · obtain ⟨-, -, herr, -⟩ := atEnd_fields s scan
        cases h
        cases (herr.trans hs).symm.trans he
  · obtain ⟨e', -, hrun⟩ := encodeRun_rejected ha
    rw [hrun] at h
    exact finishEncode_raises .validate h he

/-- Every raise of a command, by the state it raises in (R298). -/
theorem exec_raises {i : Instr} (hc : s.cfg.wellFormed = true) (hs : s.err = none)
    (h : exec i s = .next t) (he : t.err = some e) : ∃ u, RaisePoint s i u ∧ t = u.raise e := by
  cases i with
  | nop | crcInit | crcByte imm8 | adlInit | adlByte imm8 | outClr =>
    cases h; cases hs.symm.trans he
  | srst => cases h; cases he
  | pngSig => exact ⟨_, .stepCommand (p := .sig) (by decide),
      (appendOut_raisesUnchanged _ _).finish_eq hs h he⟩
  | pngIhdr => exact ⟨_, .stepCommand (p := .ihdr) (by decide),
      (ihdrRun_raisesUnchanged s).finish_eq hs h he⟩
  | pngScan => exact ⟨_, .stepCommand (p := .scan) (by decide),
      (scanRun_raisesUnchanged s).finish_eq hs h he⟩
  | pngIdat => exact ⟨_, .stepCommand (p := .idat) (by decide),
      (emitChunk_raisesUnchanged _ _ _).finish_eq hs h he⟩
  | pngIend => exact ⟨_, .stepCommand (p := .iend) (by decide),
      (emitChunk_raisesUnchanged _ _ _).finish_eq hs h he⟩
  | pngZcomp => exact exec_pngZcomp_raises hs h he
  | pngEncode => exact exec_pngEncode_raises hc hs h he

end

/-- The signature and the IHDR chunk are 33 bytes, and when `PNG.ENCODE` compresses it has written no
other byte of `OUT` (R247). -/
theorem atZcomp_out_read (s : State) (scan : Bytes) {a : Nat} (ha : 33 ≤ a) :
    (s.atZcomp scan).out.read a = s.out.read a := by
  have hsig : (s.clearLengths.putOut pngSignature).OutIs pngSignature s.out :=
    outIs_putOut (P := []) (outIs_clearLengths s) (by decide)
  have hhead : s.afterHeader.OutIs
      (pngSignature ++ chunk typeIhdr (ihdrData s.width s.height)) s.out :=
    outIs_putOut hsig (by simp [length_chunk, pngSignature, typeIhdr])
  exact hhead.2 a (by rw [afterHeader_outLen]; exact ha)

/-- The phase of each state in which `PNG.ENCODE` raises, and what it has written there: nothing in
phase `SCAN`, in phase `ZCOMP` no byte of `ZBUF` and of `OUT` only the first 33 (R298). -/
theorem EncodeRaisePoint.phase_writes {s u : State} (h : EncodeRaisePoint s u) :
    u.phase ∈ [Phase.scan, .zcomp, .idat, .iend] ∧
      (u.phase = .scan → u = s.clearLengths.setPhase .scan) ∧
      (u.phase = .zcomp → u.zbuf = s.zbuf ∧ ∀ a, 33 ≤ a → u.out.read a = s.out.read a) := by
  cases h with
  | validate => exact ⟨by simp, fun _ => rfl, nofun⟩
  | zcomp scan =>
    have hphase : (s.atZcomp scan).phase = .zcomp := by simp [State.atZcomp]
    have hzbuf : (s.atZcomp scan).zbuf = s.zbuf := by
      simp [State.atZcomp, State.afterScan, State.afterHeader]
    exact ⟨by simp [hphase], by simp [hphase], fun _ => ⟨hzbuf, fun _ => atZcomp_out_read s scan⟩⟩
  | idat scan => simp [State.atIdat]
  | iend scan => simp [State.atIend]

/-- The frame of a `PNG.ENCODE` that raises, from what every command keeps (`exec_inputs`). -/
theorem eq_of_encodeRaise {s t : State} {e : PngeError} (hin : t.inputs = s.inputs)
    (hflags : t.err = some e ∧ t.busy = false ∧ t.done = true)
    (hlengths : t.outLen = 0 ∧ t.scanLen = 0 ∧ t.zLen = 0) :
    t = { s with phase := t.phase, err := some e, busy := false, done := true, outLen := 0,
                 scanLen := 0, zLen := 0, out := t.out, scan := t.scan, zbuf := t.zbuf,
                 crc := t.crc, ada := t.ada, adb := t.adb, bitbuf := t.bitbuf,
                 bitcnt := t.bitcnt } := by
  cases t
  simp only [State.inputs, Inputs.mk.injEq] at hin
  simp_all

end Sys2Proof.Machine
end

section
/-! SUPPORT. What becomes of an error that is set (60_exceptions.md R300). -/

namespace Sys2Proof.Machine

theorem issue_err (w : Word) (s : State) : (issue w s).err = s.err := by
  unfold issue
  split <;> rfl

theorem writeRegister_err (offset : Nat) (v : Word) (s : State) :
    (writeRegister offset v s).err = s.err := by
  unfold writeRegister
  split
  · rfl
  · split
    · exact issue_err v s
    all_goals rfl

/-- The host cannot write `ERR`. -/
theorem hostStep_err (a : HostAction) (s : State) : (hostStep a s).err = s.err := by
  cases a with
  | readRegister offset => rfl
  | writeRegister offset v => exact writeRegister_err offset v s
  | readOut i => rfl
  | writePix i b =>
    rw [hostStep_writePix, writePix]
    split_ifs <;> rfl

/-- Where the engine, if busy, runs `SRST`, its turn keeps `ERR` or clears it. -/
theorem engineStep_err_of_srst {s t : State} (hcmd : s.busy = true → s.lastCmd = encode .srst)
    (h : engineStep s = .next t) : t.err = s.err ∨ t.err = none := by
  cases hb : s.busy with
  | false =>
    cases (engineStep_idle hb).symm.trans h
    exact .inl rfl
  | true =>
    have hdecode : decode s.lastCmd = .ok .srst := by rw [hcmd hb, decode_encode]
    rw [engineStep_busy hb, perform_ok hdecode] at h
    cases h
    exact .inr rfl

/-- An error that is set stays or is cleared (R300). -/
theorem step_err_kept_or_cleared {s t : State} (hinv : s.Inv) (hs : s.err ≠ none)
    (h : step s = .next t) : t.err = s.err ∨ t.err = none := by
  rcases step_cases h with ⟨a, -, rfl⟩ | ⟨-, rfl⟩ | ⟨-, hengine⟩
  · exact .inl (hostStep_err a s.popTurn)
  · exact .inr rfl
  · refine engineStep_err_of_srst (s := s.popTurn) (fun hb => ?_) hengine
    rcases hinv.errState hs with ⟨hidle, -⟩ | ⟨-, hcmd⟩
    · cases hidle.symm.trans hb
    · exact hcmd

end Sys2Proof.Machine
end

section
/-! The statements of 60_exceptions.md on a raise (R298) and on errors that stand (R300). -/

namespace Sys2Proof.Machine

/-- Settles O17: a command raises in one of the states of `RaisePoint` (`exec_raises`), and each of
them is read off field by field; an illegal word is `perform_error`. -/
theorem raiseLeavesExactly : Obligations.RaiseLeavesExactly := by
  unfold Obligations.RaiseLeavesExactly
  refine ⟨fun i s t e hc hs h he => ?_, fun s ⟨x, hx⟩ => perform_error hx⟩
  obtain ⟨u, hu, rfl⟩ := exec_raises hc hs h he
  refine ⟨rfl, rfl, ?_⟩
  cases hu with
  | stepCommand hp =>
    exact ⟨fun _ _ => ⟨hp, rfl⟩, fun hi => by simp [hi] at hp, fun hi => by simp [hi] at hp⟩
  | zcomp => exact ⟨fun hne => absurd rfl hne, fun _ => ⟨rfl, rfl⟩, nofun⟩
  | @encode u hu =>
    obtain ⟨hmem, hscan, hzcomp⟩ := hu.phase_writes
    refine ⟨fun _ hne => absurd rfl hne, nofun, fun _ => ⟨hmem, ?_, fun hphase => ?_, hzcomp⟩⟩
    · have hin := exec_inputs (i := .pngEncode) nofun h
      exact eq_of_encodeRaise hin ⟨rfl, rfl, rfl⟩ ⟨rfl, rfl, rfl⟩
    · rw [hscan hphase]; rfl

/-- Settles O19: the issue refuses every other word (`issue_refused`), `SRST` clears `ERR`, and a
step keeps the error or clears it (`step_err_kept_or_cleared`). -/
theorem firstErrorStands : Obligations.FirstErrorStands := by
  unfold Obligations.FirstErrorStands
  refine ⟨fun s w hb he hissued => ?_, fun s => ⟨s.softReset, rfl, rfl⟩, fun s t e hinv h he => ?_⟩
  · by_contra hw
    rw [writeRegister_cmd w hb, issue_refused he hw, hb] at hissued
    cases hissued
  · exact he ▸ step_err_kept_or_cleared hinv (by simp [he]) h

end Sys2Proof.Machine
end

section
/-! SUPPORT. The state a hardware reset leaves, read through the views and `STATUS` (10_state.md
R30, R31; 44_system.md R286). -/

namespace Sys2Proof.Machine

theorem step_of_hardwareReset {s : State} (h : s.turns.head? = some .hardwareReset) :
    step s = .next (hardwareReset s.popTurn) :=
  stepTurn_reset h

theorem crcVal_hardwareReset (s : State) : crcVal (hardwareReset s) = 0x00000000 :=
  BitVec.xor_self (x := (0xFFFFFFFF : Word))

theorem adlerVal_hardwareReset (s : State) : adlerVal (hardwareReset s) = 0x00000001 :=
  show ((0 : BitVec 16).setWidth 32 <<< 16) ||| (1 : BitVec 16).setWidth 32 = (1 : Word) by decide

theorem statusWord_hardwareReset (s : State) :
    statusWord (hardwareReset s).busy (hardwareReset s).done (errCode (hardwareReset s).err)
      (hardwareReset s).phase.code = 0x00000000 :=
  show statusWord false false 0 0 = 0 from rfl

theorem hardwareReset_pix_read (s : State) (i : Nat) : (hardwareReset s).pix.read i = none :=
  Memory.read_nil i

end Sys2Proof.Machine
end

section
/-! The statement of 70_reset_and_hazards.md on the hardware reset (R320, R321). -/

namespace Sys2Proof.Machine

/-- Settles O29: the step is `hardwareReset` whatever the state was (`step_of_hardwareReset`). The
sixteen registers are fields of that state; `CRC_VAL`, `ADLER_VAL`, `STATUS` and `PIX` have a lemma
each. -/
theorem hardwareResetIsTotal : Obligations.HardwareResetIsTotal := by
  unfold Obligations.HardwareResetIsTotal
  intro s hreset
  exact ⟨hardwareReset s.popTurn, step_of_hardwareReset hreset,
    rfl, rfl, rfl, rfl, rfl, rfl, rfl, rfl, rfl, rfl, rfl, rfl, rfl, rfl, rfl, rfl,
    crcVal_hardwareReset _, adlerVal_hardwareReset _, statusWord_hardwareReset _,
    hardwareReset_pix_read _⟩

end Sys2Proof.Machine
end

section
/-! SUPPORT. What the opcode map builds is a command with the row's opcode (30_encoding.md R92), and
the fields of its word are those of the word decoded. -/

namespace Sys2Proof

/-- A row builds a command with its own opcode, and with the immediate given or, where the opcode
takes none, with 0. -/
theorem fields_build {r : OpcodeRow} (hr : r ∈ opcodeMap) (b : Byte) :
    Laws.opcodeOf (r.build b) = opField r.pattern ∧
      (Laws.immediateOf (r.build b) = b ∨
        ¬TakesImmediate (opField r.pattern) ∧ Laws.immediateOf (r.build b) = 0) := by
  unfold TakesImmediate
  revert r
  simp [opcodeMap, opField, Laws.opcodeOf, Laws.immediateOf]

/-- A word that decodes to a command is that command's word (R94). -/
theorem encode_of_decode {w : Word} {i : Instr} (h : decode w = .ok i) : encode i = w := by
  obtain ⟨r, hr, hsel, rfl⟩ := decode_eq_ok h
  obtain ⟨hzero, hop, htakes⟩ := (selects_iff hr w).1 hsel
  obtain ⟨hop', himm', hzero'⟩ := fields_encode (r.build (imm8Field w))
  obtain ⟨hbuildOp, hbuildImm⟩ := fields_build hr (imm8Field w)
  have himm : Laws.immediateOf (r.build (imm8Field w)) = imm8Field w := by
    rcases hbuildImm with himm | ⟨hnone, hz⟩
    · exact himm
    · exact hz.trans (htakes.resolve_left (hop ▸ hnone)).symm
  exact (word_eq_iff_fields _ _).2 ⟨hzero'.trans hzero.symm, himm'.trans himm,
    hop'.trans (hbuildOp.trans hop.symm)⟩

end Sys2Proof
end

section
/-! The statements of 30_encoding.md Part A on decoding and encoding. -/

namespace Sys2Proof.Machine

/-- Settles O1: the fields of a command's word select its row alone (`decode_encode`), and a row
that selects a word builds the command with the word's fields (`encode_of_decode`). -/
theorem decodeEncodeInverse : Obligations.DecodeEncodeInverse := by
  unfold Obligations.DecodeEncodeInverse
  exact ⟨fun i _ => decode_encode i, fun _ _ => encode_of_decode⟩

/-- Settles O2: each of the fourteen words is the encoding of its command. -/
theorem specWordsDecode : Obligations.SpecWordsDecode := by
  unfold Obligations.SpecWordsDecode
  exact ⟨decode_encode .nop, decode_encode .srst, decode_encode .crcInit,
    decode_encode (.crcByte 0xFF), decode_encode .adlInit, decode_encode (.adlByte 0x61),
    decode_encode .outClr, decode_encode .pngSig, decode_encode .pngIhdr, decode_encode .pngScan,
    decode_encode .pngZcomp, decode_encode .pngIdat, decode_encode .pngIend,
    decode_encode .pngEncode⟩

end Sys2Proof.Machine
end

section
/-! SUPPORT. How every command ends (44_system.md R283; 60_exceptions.md R298). -/

namespace Sys2Proof.Machine

/-- A run of `PNG.ENCODE` with the three lengths zeroed where it raises (R247). -/
def Flow.clearOnRaise : Flow → Flow
  | .go s => .go s
  | .raised e s => .raised e s.clearLengths
  | .stuck x => .stuck x

theorem Flow.clearOnRaise_eq_go {f : Flow} {s : State} (h : f.clearOnRaise = .go s) :
    f = .go s := by
  cases f with
  | go u => exact h
  | raised e u => cases h
  | stuck x => cases h

/-- So `PNG.ENCODE` ends as a step command does. -/
theorem exec_pngEncode_eq (s : State) :
    exec .pngEncode s = (encodeRun s).clearOnRaise.finish := by
  change (encodeRun s).finishEncode = _
  cases encodeRun s <;> rfl

/-- Every command but `SRST` runs its pseudocode and then sets the completion flags or records the
error. -/
theorem exec_eq_finish {i : Instr} (hi : i ≠ .srst) (s : State) :
    ∃ f : Flow, exec i s = f.finish := by
  cases i with
  | srst => exact absurd rfl hi
  | nop => exact ⟨.go s, rfl⟩
  | crcInit => exact ⟨.go (s.setCrc crcInitial), rfl⟩
  | crcByte b => exact ⟨.go (s.setCrc (crcStep s.crc b)), rfl⟩
  | adlInit => exact ⟨.go (s.setAdler adlerInitial), rfl⟩
  | adlByte b => exact ⟨.go (s.setAdler (adlerStep (s.ada, s.adb) b)), rfl⟩
  | outClr => exact ⟨.go s.clearOut, rfl⟩
  | pngSig | pngIhdr | pngScan | pngZcomp | pngIdat | pngIend => exact ⟨_, rfl⟩
  | pngEncode => exact ⟨_, exec_pngEncode_eq s⟩

/-- The flags of a machine that has performed a command: `DONE` is 1, and `PHASE` shows no phase
but that of a failure (R283, R298). -/
def State.Ended (s : State) : Prop :=
  s.busy = false ∧ s.done = true ∧ (s.err = none → s.phase = .idle)

theorem ended_complete (s : State) : s.complete.Ended := ⟨rfl, rfl, fun _ => rfl⟩

theorem ended_raise (s : State) (e : PngeError) : (s.raise e).Ended := ⟨rfl, rfl, nofun⟩

theorem Flow.ended_finish {f : Flow} {t : State} (h : f.finish = .next t) : t.Ended := by
  cases f with
  | go s => cases h; exact ended_complete s
  | raised e s => cases h; exact ended_raise s e
  | stuck x => cases h

theorem exec_ended {i : Instr} {s t : State} (hi : i ≠ .srst) (h : exec i s = .next t) :
    t.Ended := by
  obtain ⟨f, hf⟩ := exec_eq_finish hi s
  exact Flow.ended_finish (hf.symm.trans h)

theorem exec_ne_refused (i : Instr) (s : State) (r : Refusal) : exec i s ≠ .refused r := by
  intro h
  by_cases hi : i = .srst
  · subst hi; cases h
  · obtain ⟨f, hf⟩ := exec_eq_finish hi s
    rw [hf] at h
    cases f <;> cases h

end Sys2Proof.Machine
end

section
/-! SUPPORT. The part of the invariant that speaks of the configuration, the checksum units and the
memories (10_state.md R27 to R29, R35, R37; 60_exceptions.md R294): every piece of pseudocode keeps
it. -/

namespace Sys2Proof.Machine

/-- A buffer with length register `len`: canonical, inside its capacity, and written below its
length. -/
structure Memory.IsBuffer (m : Memory) (len : Word) (cap : Nat) : Prop where
  canonical : m.wf
  bounded : m.within cap
  length : len.toNat ≤ cap
  filled : m.filled len.toNat

namespace Memory.IsBuffer

variable {m : Memory} {len : Word} {cap : Nat}

/-- Nothing need have been written below the length 0. -/
theorem zero (h : m.IsBuffer len cap) : m.IsBuffer 0 cap :=
  ⟨h.canonical, h.bounded, Nat.zero_le cap, filled_zero m⟩

/-- Bytes written at the end of what is filled. -/
theorem append (h : m.IsBuffer len cap) (hcap : cap < 2 ^ 32) {bs : Bytes}
    (hfits : len.toNat + bs.length ≤ cap) :
    (m.write len.toNat bs).IsBuffer (BitVec.ofNat 32 (len.toNat + bs.length)) cap := by
  have hlen : (BitVec.ofNat 32 (len.toNat + bs.length)).toNat = len.toNat + bs.length :=
    Nat.mod_eq_of_lt (hfits.trans_lt hcap)
  refine ⟨wf_write m _ bs h.canonical, within_write m _ bs cap h.bounded hfits, ?_, ?_⟩
  · rwa [hlen]
  · rw [hlen]
    exact filled_write m _ bs h.filled

/-- Bytes written from index 0 on. -/
theorem replace (h : m.IsBuffer len cap) (hcap : cap < 2 ^ 32) {bs : Bytes}
    (hfits : bs.length ≤ cap) : (m.write 0 bs).IsBuffer (BitVec.ofNat 32 bs.length) cap := by
  have happ := h.zero.append hcap (bs := bs) (by simpa using hfits)
  rwa [show (0 : Word).toNat = 0 from rfl, Nat.zero_add] at happ

end Memory.IsBuffer

/-- The invariant but for the flags. -/
structure State.DataInv (s : State) : Prop where
  config : s.cfg.wellFormed = true
  sums : AdlerRange (s.ada, s.adb)
  bits : s.bitbuf = 0 ∧ s.bitcnt = 0
  pix : s.pix.wf ∧ s.pix.within s.cfg.pixCap
  scan : s.scan.IsBuffer s.scanLen s.cfg.scanCap
  zbuf : s.zbuf.IsBuffer s.zLen s.cfg.zCap
  out : s.out.IsBuffer s.outLen s.cfg.outCap

/-- The invariant of the flags (R23, R36). -/
structure State.FlagsInv (s : State) : Prop where
  busyDone : ¬(s.busy = true ∧ s.done = true)
  errState : s.err ≠ none →
    (s.busy = false ∧ s.done = true) ∨ (s.busy = true ∧ s.lastCmd = 0x00000001)
  phaseIdle : s.err = none → s.phase = .idle

theorem inv_iff (s : State) : s.Inv ↔ s.FlagsInv ∧ s.DataInv := by
  constructor
  · rintro ⟨hc, hbd, herr, hphase, hsums, hbits, ⟨ho, hs, hz⟩, ⟨cp, cs, cz, co⟩, ⟨bp, bs, bz, bo⟩,
      ⟨fs, fz, fo⟩⟩
    exact ⟨⟨hbd, herr, hphase⟩, ⟨hc, hsums, hbits, ⟨cp, bp⟩, ⟨cs, bs, hs, fs⟩, ⟨cz, bz, hz, fz⟩,
      ⟨co, bo, ho, fo⟩⟩⟩
  · rintro ⟨⟨hbd, herr, hphase⟩, ⟨hc, hsums, hbits, ⟨cp, bp⟩, ⟨cs, bs, hs, fs⟩, ⟨cz, bz, hz, fz⟩,
      ⟨co, bo, ho, fo⟩⟩⟩
    exact ⟨hc, hbd, herr, hphase, hsums, hbits, ⟨ho, hs, hz⟩, ⟨cp, cs, cz, co⟩, ⟨bp, bs, bz, bo⟩,
      ⟨fs, fz, fo⟩⟩

theorem State.Ended.flagsInv {s : State} (h : s.Ended) : s.FlagsInv := by
  obtain ⟨hb, hd, hp⟩ := h
  exact ⟨by simp [hb], fun _ => .inl ⟨hb, hd⟩, hp⟩

namespace State.DataInv

variable {s : State}

theorem setPhase (h : s.DataInv) (p : Phase) : (s.setPhase p).DataInv := { h with }

theorem setCrc (h : s.DataInv) (c : Word) : (s.setCrc c).DataInv := { h with }

theorem complete (h : s.DataInv) : s.complete.DataInv := { h with }

theorem raise (h : s.DataInv) (e : PngeError) : (s.raise e).DataInv := { h with }

theorem setAdler (h : s.DataInv) {ab : BitVec 16 × BitVec 16} (hab : AdlerRange ab) :
    (s.setAdler ab).DataInv := { h with sums := hab }

theorem clearOut (h : s.DataInv) : s.clearOut.DataInv := { h with out := h.out.zero }

theorem clearLengths (h : s.DataInv) : s.clearLengths.DataInv :=
  { h with scan := h.scan.zero, zbuf := h.zbuf.zero, out := h.out.zero }

theorem startZ (h : s.DataInv) : (s.startZ 0 0).DataInv :=
  { h with bits := ⟨rfl, rfl⟩, zbuf := h.zbuf.zero }

theorem setScan (h : s.DataInv) {bs : Bytes} (hfits : bs.length ≤ s.cfg.scanCap) :
    (s.setScan bs).DataInv :=
  { h with scan := h.scan.replace (capacities_lt h.config).1 hfits }

theorem setZ (h : s.DataInv) {z : Bytes} (hfits : z.length ≤ s.cfg.zCap) : (s.setZ z).DataInv :=
  { h with zbuf := h.zbuf.replace ((zCap_lt h.config).trans (by decide)) hfits }

theorem putOut (h : s.DataInv) {bs : Bytes} (hfits : s.outLen.toNat + bs.length ≤ s.cfg.outCap) :
    (s.putOut bs).DataInv :=
  { h with out := h.out.append (capacities_lt h.config).2 hfits }

theorem softReset (h : s.DataInv) : s.softReset.DataInv :=
  { h with
    sums := adlerInitial_range, bits := ⟨rfl, rfl⟩,
    scan := h.scan.zero, zbuf := h.zbuf.zero, out := h.out.zero }

theorem hardwareReset (hc : s.cfg.wellFormed = true) : (hardwareReset s).DataInv := by
  have hempty (cap : Nat) : Memory.IsBuffer [] 0 cap :=
    ⟨.nil, nofun, Nat.zero_le cap, Memory.filled_zero []⟩
  exact ⟨hc, adlerInitial_range, ⟨rfl, rfl⟩, ⟨.nil, nofun⟩, hempty _, hempty _, hempty _⟩

/-! ## The steps -/

/-- The end of a step command keeps what its run kept. -/
theorem finish {f : Flow} {t : State} (hf : f.All DataInv) (h : f.finish = .next t) :
    t.DataInv := by
  cases f with
  | go u => cases h; exact DataInv.complete hf
  | raised e u => cases h; exact DataInv.raise hf e
  | stuck x => cases h

theorem clearOnRaise {f : Flow} (hf : f.All DataInv) : f.clearOnRaise.All DataInv := by
  cases f with
  | go u => exact hf
  | raised e u => exact DataInv.clearLengths hf
  | stuck x => trivial

theorem appendOut (h : s.DataInv) (bs : Bytes) : (appendOut bs s).All DataInv := by
  rcases appendOut_cases bs s with ⟨hfits, he⟩ | ⟨-, he⟩ <;> rw [he]
  · exact h.putOut hfits
  · exact h

theorem emitChunk (h : s.DataInv) {type : Bytes} (htype : type.length = 4) (data : Bytes) :
    (emitChunk type data s).All DataInv := by
  rcases emitChunk_cases type data s with ⟨hfits, he⟩ | ⟨-, he⟩ <;> rw [he]
  · refine (h.setCrc _).putOut ?_
    rw [length_chunk, htype]
    simp only [State.setCrc_outLen, State.setCrc_cfg]
    omega
  · exact h

theorem ihdrRun (h : s.DataInv) : (ihdrRun s).All DataInv := by
  by_cases hzero : s.width = 0 ∨ s.height = 0
  · rw [ihdrRun_zero hzero]
    exact h.setPhase .ihdr
  · obtain ⟨hw, hh⟩ := not_or.1 hzero
    rw [ihdrRun_dimensions hw hh]
    exact (h.setPhase .ihdr).emitChunk rfl _

/-- The scanline buffer of an accepted image fits `SCAN` (R248). -/
theorem scanRun (h : s.DataInv) : (scanRun s).All DataInv := by
  by_cases ha : s.ImageAccepted
  · rw [scanRun_accepted ha]
    rcases buildScan_cases (s.setPhase .scan) with ⟨bs, hbs, he⟩ | ⟨-, he⟩ <;> rw [he]
    · refine (h.setPhase .scan).setScan ?_
      rw [length_scanlines hbs]
      exact ha.2.2.2.2
    · trivial
  · obtain ⟨e, he, -⟩ := encodeRun_rejected ha
    rw [scanRun_raised he]
    exact h.setPhase .scan

theorem atZcompCheck (h : s.DataInv) : s.atZcompCheck.DataInv :=
  ((h.setPhase .zcomp).setAdler (adlerFold_range adlerInitial_range _)).startZ

theorem exec_pngZcomp {t : State} (h : s.DataInv) (ht : exec .pngZcomp s = .next t) :
    t.DataInv := by
  rcases exec_pngZcomp_cases s with ⟨hfits, he⟩ | ⟨-, he⟩ <;> cases he.symm.trans ht
  · exact (h.atZcompCheck.setZ hfits).complete
  · exact h.atZcompCheck.raise _

/-! ## `PNG.ENCODE`, state by state (43_png_framing.md R247) -/

theorem afterHeader (h : s.DataInv) : s.afterHeader.DataInv := by
  have hcap := le_outCap h.config
  have hsig : (((s.clearLengths.setPhase .scan).setPhase .sig).putOut pngSignature).DataInv :=
    ((h.clearLengths.setPhase .scan).setPhase .sig).putOut (by simp [pngSignature]; omega)
  exact ((hsig.setPhase .ihdr).setCrc _).putOut
    (by simp [length_chunk, pngSignature, typeIhdr]; omega)

theorem atZcomp (h : s.DataInv) {scan : Bytes} (hscan : scan.length ≤ s.cfg.scanCap) :
    (s.atZcomp scan).DataInv := by
  have hafter : (s.afterScan scan).DataInv := (h.afterHeader.setPhase .scan).setScan hscan
  exact ((hafter.setPhase .zcomp).setAdler (adlerFold_range adlerInitial_range scan)).startZ

theorem atIdat {scan : Bytes} (h : (s.atZcomp scan).DataInv)
    (hz : (zStream s.cfg.compMode scan).length ≤ s.cfg.zCap) : (s.atIdat scan).DataInv :=
  (h.setZ hz).setPhase .idat

theorem atIend {scan : Bytes} (h : (s.atIdat scan).DataInv)
    (hout : 45 + (zStream s.cfg.compMode scan).length ≤ s.cfg.outCap) :
    (s.atIend scan).DataInv := by
  refine ((h.setCrc _).putOut ?_).setPhase .iend
  rw [length_chunk, State.setCrc_outLen, atIdat_outLen]
  change 33 + (8 + 4 + _) ≤ s.cfg.outCap
  omega

theorem atEnd {scan : Bytes} (h : (s.atIend scan).DataInv)
    (hout : 57 + (zStream s.cfg.compMode scan).length ≤ s.cfg.outCap) :
    (s.atEnd scan).DataInv := by
  refine (h.setCrc _).putOut ?_
  have hmod := Nat.mod_le (45 + (zStream s.cfg.compMode scan).length) (2 ^ 32)
  rw [length_chunk, State.setCrc_outLen, atIend_outLen, BitVec.toNat_ofNat]
  change _ + (8 + 4 + 0) ≤ s.cfg.outCap
  omega

theorem encodeRun (h : s.DataInv) : (encodeRun s).All DataInv := by
  by_cases ha : s.ImageAccepted
  · rcases encodeRun_cases h.config ha with ⟨-, -, hrun⟩ | ⟨scan, hs, -, hrun⟩
    · rw [hrun]; trivial
    · have hzcomp : (s.atZcomp scan).DataInv :=
        h.atZcomp (length_scanlines hs ▸ ha.2.2.2.2)
      rcases hrun with ⟨-, hrun⟩ | ⟨hz, -, hrun⟩ | ⟨hz, ho, -, hrun⟩ | ⟨hz, ho, hrun⟩ <;> rw [hrun]
      · exact hzcomp
      · exact hzcomp.atIdat hz
      · exact (hzcomp.atIdat hz).atIend ho
      · exact ((hzcomp.atIdat hz).atIend (by omega)).atEnd ho
  · obtain ⟨e, -, hrun⟩ := encodeRun_rejected ha
    rw [hrun]
    exact h.clearLengths.setPhase .scan

/-- Every command keeps the data. -/
theorem exec {i : Instr} {t : State} (h : s.DataInv) (ht : exec i s = .next t) : t.DataInv := by
  cases i with
  | nop => exact finish (f := .go s) h ht
  | srst => cases ht; exact h.softReset
  | crcInit => exact finish (f := .go _) (h.setCrc _) ht
  | crcByte b => exact finish (f := .go _) (h.setCrc _) ht
  | adlInit => exact finish (f := .go _) (h.setAdler adlerInitial_range) ht
  | adlByte b => exact finish (f := .go _) (h.setAdler (adlerStep_range _ b)) ht
  | outClr => exact finish (f := .go _) h.clearOut ht
  | pngSig => exact finish ((h.setPhase .sig).appendOut pngSignature) ht
  | pngIhdr => exact finish h.ihdrRun ht
  | pngScan => exact finish h.scanRun ht
  | pngZcomp => exact h.exec_pngZcomp ht
  | pngIdat => exact finish ((h.setPhase .idat).emitChunk rfl (zData s)) ht
  | pngIend => exact finish ((h.setPhase .iend).emitChunk rfl []) ht
  | pngEncode => exact finish (clearOnRaise h.encodeRun) (exec_pngEncode_eq s ▸ ht)

end State.DataInv

end Sys2Proof.Machine
end

section
/-! SUPPORT. Everything a host step can do (20_memory.md R65 to R67, R70; 44_system.md R284,
R286). -/

namespace Sys2Proof.Machine

/-- Where a register stands (20_memory.md R62). -/
def Register.offset : Register → Nat
  | .cmd => 0x00
  | .status => 0x04
  | .width => 0x08
  | .height => 0x0C
  | .pixLen => 0x10
  | .outLen => 0x14
  | .scanLen => 0x18
  | .zLen => 0x1C
  | .crcVal => 0x20
  | .adlerVal => 0x24
  | .lastCmd => 0x28

theorem registerAt_eq_some {offset : Nat} {r : Register} (h : registerAt offset = some r) :
    offset = r.offset := by
  unfold registerAt at h
  split at h <;> cases h <;> rfl

/-- From `0x2C` on there is no register (R33). -/
theorem registerAt_reserved {offset : Nat} (h : 0x2C ≤ offset) : registerAt offset = none := by
  cases hr : registerAt offset with
  | none => rfl
  | some r =>
    have hoff := registerAt_eq_some hr
    cases r <;> simp [Register.offset] at hoff <;> omega

/-- A register write is ignored, or it is an issue, or it writes one of the three image registers
(R284, R286). -/
theorem writeRegister_cases (offset : Nat) (v : Word) (s : State) :
    writeRegister offset v s = s ∨
    s.busy = false ∧
      (offset = 0x00 ∧ writeRegister offset v s = issue v s ∨
        offset = 0x08 ∧ writeRegister offset v s = { s with width := v } ∨
        offset = 0x0C ∧ writeRegister offset v s = { s with height := v } ∨
        offset = 0x10 ∧ writeRegister offset v s = { s with pixLen := v }) := by
  cases hb : s.busy with
  | true => exact .inl (writeRegister_busy offset v hb)
  | false =>
    simp only [writeRegister, hb]
    cases hr : registerAt offset with
    | none => exact .inl rfl
    | some r =>
      have hoff := registerAt_eq_some hr
      cases r with
      | cmd => exact .inr ⟨trivial, .inl ⟨hoff, rfl⟩⟩
      | width => exact .inr ⟨trivial, .inr (.inl ⟨hoff, rfl⟩)⟩
      | height => exact .inr ⟨trivial, .inr (.inr (.inl ⟨hoff, rfl⟩))⟩
      | pixLen => exact .inr ⟨trivial, .inr (.inr (.inr ⟨hoff, rfl⟩))⟩
      | status | outLen | scanLen | zLen | crcVal | adlerVal | lastCmd => exact .inl rfl

/-- What a host step makes of `s`. -/
inductive HostEffect (s : State) : State → Prop
  | ignored : HostEffect s s
  | answered (a : Answer) : HostEffect s (answer a s)
  | issued (w : Word) (hb : s.busy = false) (h : s.err = none ∨ w = 0x00000001) :
      HostEffect s { s with lastCmd := w, busy := true, done := false }
  | width (v : Word) (hb : s.busy = false) : HostEffect s { s with width := v }
  | height (v : Word) (hb : s.busy = false) : HostEffect s { s with height := v }
  | pixLen (v : Word) (hb : s.busy = false) : HostEffect s { s with pixLen := v }
  | pixel (i : Nat) (b : Byte) (hb : s.busy = false) (hi : i < s.cfg.pixCap) :
      HostEffect s { s with pix := s.pix.write i [b] }

theorem issue_effect {s : State} (w : Word) (hb : s.busy = false) : HostEffect s (issue w s) := by
  by_cases h : s.err ≠ none ∧ w ≠ 0x00000001
  · rw [issue_refused h.1 h.2]
    exact .ignored
  · have h : s.err = none ∨ w = 0x00000001 := by
      rwa [not_and_or, not_not, not_not] at h
    rw [issue_accepted h]
    exact .issued w hb h

theorem hostStep_effect (a : HostAction) (s : State) : HostEffect s (hostStep a s) := by
  cases a with
  | readRegister offset => exact .answered _
  | readOut i => exact .answered _
  | writeRegister offset v =>
    change HostEffect s (writeRegister offset v s)
    rcases writeRegister_cases offset v s with h | ⟨hb, ⟨-, h⟩ | ⟨-, h⟩ | ⟨-, h⟩ | ⟨-, h⟩⟩ <;>
      rw [h]
    · exact .ignored
    · exact issue_effect v hb
    · exact .width v hb
    · exact .height v hb
    · exact .pixLen v hb
  | writePix i b =>
    rw [hostStep_writePix]
    by_cases h : s.busy = true ∨ s.cfg.pixCap ≤ i
    · rw [writePix_ignored b h]
      exact .ignored
    · obtain ⟨hb, hi⟩ := not_or.1 h
      have hb : s.busy = false := Bool.eq_false_of_not_eq_true hb
      have hi : i < s.cfg.pixCap := Nat.not_le.1 hi
      rw [writePix_effective b hb hi]
      exact .pixel i b hb hi

/-- While a command runs a host step changes the model's record of reads at most (R284). -/
theorem hostStep_busy {s : State} (a : HostAction) (hb : s.busy = true) :
    hostStep a s =
      { s with answers := (hostStep a s).answers, draws := (hostStep a s).draws } := by
  have heffect := hostStep_effect a s
  generalize hostStep a s = t at heffect
  cases heffect with
  | ignored | answered => rfl
  | issued _ hidle _ | width _ hidle | height _ hidle | pixLen _ hidle | pixel _ _ hidle _ =>
    cases hb.symm.trans hidle

theorem hostStep_cfg (a : HostAction) (s : State) : (hostStep a s).cfg = s.cfg := by
  have heffect := hostStep_effect a s
  generalize hostStep a s = t at heffect
  cases heffect <;> rfl

theorem hostStep_out (a : HostAction) (s : State) : (hostStep a s).out = s.out := by
  have heffect := hostStep_effect a s
  generalize hostStep a s = t at heffect
  cases heffect <;> rfl

/-- What `HostReadOut` answers for a byte of the output (R66). -/
theorem readOut_output {s : State} {i : Nat} {b : Byte} (hb : s.busy = false)
    (hi : i < s.outLen.toNat) (h : s.out.read i = some b) : readOut i s = b := by
  simp [readOut, hb, hi, h]

/-- What it answers otherwise (R66). -/
theorem readOut_free {s : State} {i : Nat} (h : s.busy = true ∨ s.outLen.toNat ≤ i) :
    readOut i s = Config.freeByte s.draws := by
  refine if_neg fun ⟨hb, hi⟩ => ?_
  rcases h with hbusy | hle
  · cases hbusy.symm.trans hb
  · exact absurd hi (Nat.not_lt.2 hle)

/-- An offset with no register reads 0 (R33). -/
theorem readRegister_reserved {s : State} {offset : Nat} (halign : offset % 4 = 0)
    (h : 0x2C ≤ offset) : readRegister offset s = 0 := by
  simp [readRegister, halign, registerAt_reserved h]

/-- The read-only registers and the reserved offsets ignore writes (R286, R33). -/
theorem writeRegister_readOnly {offset : Nat} (v : Word) (s : State)
    (h : offset = 0x04 ∨ 0x14 ≤ offset) : writeRegister offset v s = s := by
  rcases writeRegister_cases offset v s with hs | ⟨-, ⟨ho, -⟩ | ⟨ho, -⟩ | ⟨ho, -⟩ | ⟨ho, -⟩⟩
  · exact hs
  all_goals omega

/-- A write to `CMD` in any state (R282). -/
theorem writeRegister_cmd_eq (w : Word) (s : State) :
    writeRegister 0x00 w s =
      if s.busy = true ∨ (s.err ≠ none ∧ w ≠ 0x00000001) then s
      else { s with lastCmd := w, busy := true, done := false } := by
  cases hb : s.busy with
  | true => rw [writeRegister_busy 0x00 w hb, if_pos (.inl rfl)]
  | false =>
    simp only [writeRegister_cmd w hb, issue, Bool.false_eq_true, false_or]

/-- The bits of the status word by field (10_state.md R23). -/
theorem getLsbD_statusWord (busy done : Bool) (err phase : BitVec 4) {i : Nat} (hi : i < 32) :
    (statusWord busy done err phase).getLsbD i =
      if i < 4 then decide (i = 0) && busy || decide (i = 1) && done
      else if i < 8 then err.getLsbD (i - 4) else phase.getLsbD (i - 8) := by
  split_ifs with h4 h8
  · interval_cases i <;> simp [statusWord]
  · have h1 : i ≠ 0 ∧ i - 1 ≠ 0 ∧ i - 4 < 32 := by omega
    simp [statusWord, hi, h4, h8, h1]
  · have h1 : i ≠ 0 ∧ i - 1 ≠ 0 ∧ i - 8 < 32 := by omega
    have herr : err.getLsbD (i - 4) = false := err.getLsbD_of_ge _ (by omega)
    simp [statusWord, hi, h4, h8, h1, herr]

theorem extractLsb'_statusWord (busy done : Bool) (err phase : BitVec 4) :
    (statusWord busy done err phase).extractLsb' 2 2 = 0 ∧
      (statusWord busy done err phase).extractLsb' 4 4 = err ∧
      (statusWord busy done err phase).extractLsb' 8 4 = phase ∧
      (statusWord busy done err phase).extractLsb' 12 20 = 0 := by
  refine ⟨?_, ?_, ?_, ?_⟩ <;> refine BitVec.eq_of_getLsbD_eq fun i hi => ?_ <;>
    rw [BitVec.getLsbD_extractLsb', decide_eq_true hi, Bool.true_and,
      getLsbD_statusWord _ _ _ _ (by omega)]
  · have h0 : 2 + i < 4 ∧ 2 + i ≠ 0 ∧ 2 + i ≠ 1 := by omega
    simp [h0]
  · have h0 : ¬4 + i < 4 ∧ 4 + i < 8 := by omega
    simp [h0]
  · have h0 : ¬8 + i < 4 ∧ ¬8 + i < 8 := by omega
    simp [h0]
  · have h0 : ¬12 + i < 4 ∧ ¬12 + i < 8 := by omega
    simpa [h0] using phase.getLsbD_of_ge _ (by omega)

end Sys2Proof.Machine
end

section
/-! SUPPORT. Each kind of turn keeps the invariant (20_memory.md R70). -/

namespace Sys2Proof.Machine

theorem popTurn_inv {s : State} (h : s.Inv) : s.popTurn.Inv := { h with }

theorem hostStep_inv {s : State} (a : HostAction) (h : s.Inv) : (hostStep a s).Inv := by
  obtain ⟨hflags, hdata⟩ := (inv_iff s).1 h
  have heffect := hostStep_effect a s
  generalize hostStep a s = t at heffect
  rw [inv_iff]
  cases heffect with
  | ignored => exact ⟨hflags, hdata⟩
  | answered => exact ⟨{ hflags with }, { hdata with }⟩
  | issued w hb hw =>
    exact ⟨⟨nofun, fun he => .inr ⟨rfl, hw.resolve_left he⟩, hflags.phaseIdle⟩, { hdata with }⟩
  | width | height | pixLen => exact ⟨{ hflags with }, { hdata with }⟩
  | pixel i b hb hi =>
    obtain ⟨hwf, hwithin⟩ := hdata.pix
    exact ⟨{ hflags with }, { hdata with
      pix := ⟨Memory.wf_write _ i [b] hwf, Memory.within_write _ i [b] _ hwithin hi⟩ }⟩

theorem engineStep_inv {s t : State} (h : s.Inv) (ht : engineStep s = .next t) : t.Inv := by
  obtain ⟨-, hdata⟩ := (inv_iff s).1 h
  rcases engineStep_cases ht with ⟨-, rfl⟩ | ⟨-, i, -, hexec⟩ | ⟨-, -, rfl⟩
  · exact h
  · refine (inv_iff t).2 ⟨?_, hdata.exec hexec⟩
    by_cases hi : i = .srst
    · subst hi
      cases hexec
      exact ⟨nofun, fun he => absurd rfl he, fun _ => rfl⟩
    · exact (exec_ended hi hexec).flagsInv
  · exact (inv_iff _).2 ⟨(ended_raise _ _).flagsInv, (hdata.setPhase .idle).raise _⟩

theorem hardwareReset_inv {s : State} (hc : s.cfg.wellFormed = true) : (hardwareReset s).Inv :=
  (inv_iff _).2 ⟨⟨nofun, fun he => absurd rfl he, fun _ => rfl⟩, .hardwareReset hc⟩

end Sys2Proof.Machine
end

section
/-! The statements on the invariant of reachable states (10_state.md sections 2 to 6). -/

namespace Sys2Proof.Machine

/-- Settles O31: the turn taken off changes nothing the invariant speaks of, and each kind of turn
keeps it. -/
theorem everyStepKeepsInvariant : Obligations.EveryStepKeepsInvariant := by
  unfold Obligations.EveryStepKeepsInvariant
  intro s t h ht
  have hpop := popTurn_inv h
  rcases step_cases ht with ⟨a, -, rfl⟩ | ⟨-, rfl⟩ | ⟨-, hengine⟩
  · exact hostStep_inv a hpop
  · exact hardwareReset_inv hpop.config
  · exact engineStep_inv hpop hengine

/-- Settles O30: the state after reset is what a hardware reset makes of it, and its configuration
is in range. -/
theorem resetMeetsInvariant : Obligations.ResetMeetsInvariant := by
  unfold Obligations.ResetMeetsInvariant
  exact hardwareReset_inv (s := State.reset) (by decide)

end Sys2Proof.Machine
end

section
/-! SUPPORT. Which commands always end (60_exceptions.md section 1), and what becomes of `ERR`
(10_state.md R23). -/

namespace Sys2Proof.Machine

theorem not_pixWritten_iff (s : State) :
    ¬s.PixWritten ↔ ∃ k < s.pixLen.toNat, s.pix.read k = none := by
  simp only [State.PixWritten, Memory.filled, not_forall, Option.not_isSome_iff_eq_none,
    exists_prop]

/-- A run that has not met a byte the model cannot give. -/
def Flow.NotStuck (f : Flow) : Prop := ∀ x, f ≠ .stuck x

theorem Flow.NotStuck.finish {f : Flow} (h : f.NotStuck) : ∃ t, f.finish = .next t := by
  cases f with
  | go s => exact ⟨_, rfl⟩
  | raised e s => exact ⟨_, rfl⟩
  | stuck x => exact absurd rfl (h x)

theorem appendOut_notStuck (bs : Bytes) (s : State) : (appendOut bs s).NotStuck := by
  rcases appendOut_cases bs s with ⟨-, h⟩ | ⟨-, h⟩ <;> rw [h] <;> exact nofun

theorem emitChunk_notStuck (type data : Bytes) (s : State) : (emitChunk type data s).NotStuck := by
  rcases emitChunk_cases type data s with ⟨-, h⟩ | ⟨-, h⟩ <;> rw [h] <;> exact nofun

theorem zcompStep_notStuck (s : State) : (zcompStep s).NotStuck := by
  rcases zcompStep_cases s with ⟨-, h⟩ | ⟨-, h⟩ <;> rw [h] <;> exact nofun

theorem ihdrRun_notStuck (s : State) : (ihdrRun s).NotStuck := by
  by_cases hzero : s.width = 0 ∨ s.height = 0
  · rw [ihdrRun_zero hzero]
    exact nofun
  · obtain ⟨hw, hh⟩ := not_or.1 hzero
    rw [ihdrRun_dimensions hw hh]
    exact emitChunk_notStuck _ _ _

/-- A command that does not read `PIX` gives a next state. -/
theorem exec_next {i : Instr} (s : State) (hscan : i ≠ .pngScan) (henc : i ≠ .pngEncode) :
    ∃ t, exec i s = .next t := by
  cases i with
  | pngScan => exact absurd rfl hscan
  | pngEncode => exact absurd rfl henc
  | nop | srst | crcInit | crcByte b | adlInit | adlByte b | outClr => exact ⟨_, rfl⟩
  | pngSig => exact (appendOut_notStuck _ _).finish
  | pngIhdr => exact (ihdrRun_notStuck s).finish
  | pngZcomp => exact (zcompStep_notStuck s).finish
  | pngIdat => exact (emitChunk_notStuck _ _ _).finish
  | pngIend => exact (emitChunk_notStuck _ _ _).finish

theorem exec_pngScan_fault {s : State} {x : Fault} (h : exec .pngScan s = .fault x) :
    s.ImageAccepted ∧ ¬s.PixWritten := by
  by_cases ha : s.ImageAccepted
  · refine ⟨ha, fun hp => ?_⟩
    obtain ⟨bs, -, he⟩ := exec_pngScan_written ha hp
    cases he.symm.trans h
  · obtain ⟨e, -, he⟩ := exec_pngScan_rejected ha
    cases he.symm.trans h

theorem exec_pngEncode_fault {s : State} {x : Fault} (hc : s.cfg.wellFormed = true)
    (h : exec .pngEncode s = .fault x) : s.ImageAccepted ∧ ¬s.PixWritten := by
  change (encodeRun s).finishEncode = .fault x at h
  by_cases ha : s.ImageAccepted
  · refine ⟨ha, fun hp => ?_⟩
    rcases encodeRun_cases hc ha with ⟨hnp, -, -⟩ | ⟨scan, -, -, hrun⟩
    · exact hnp hp
    · rcases hrun with ⟨-, hrun⟩ | ⟨-, -, hrun⟩ | ⟨-, -, -, hrun⟩ | ⟨-, -, hrun⟩ <;>
        rw [hrun] at h <;> cases h
  · obtain ⟨e, -, hrun⟩ := encodeRun_rejected ha
    rw [hrun] at h
    cases h

/-- The one fault, and when it comes (R75). -/
theorem exec_fault_iff (i : Instr) {s : State} (hc : s.cfg.wellFormed = true) :
    (∃ x, exec i s = .fault x) ↔
      (i = .pngScan ∨ i = .pngEncode) ∧ s.ImageAccepted ∧ ¬s.PixWritten := by
  constructor
  · rintro ⟨x, hx⟩
    by_cases hscan : i = .pngScan
    · subst hscan
      exact ⟨.inl rfl, exec_pngScan_fault hx⟩
    · by_cases henc : i = .pngEncode
      · subst henc
        exact ⟨.inr rfl, exec_pngEncode_fault hc hx⟩
      · obtain ⟨t, ht⟩ := exec_next s hscan henc
        cases ht.symm.trans hx
  · rintro ⟨rfl | rfl, ha, hp⟩
    · exact ⟨_, exec_pngScan_unwritten ha hp⟩
    · exact ⟨_, exec_pngEncode_unwritten hc ha hp⟩

/-- `PNG.ENCODE` keeps `ERR` where it reaches its end. -/
theorem encodeRun_keepsErr (s t : State) (h : encodeRun s = .go t) : t.err = s.err := by
  obtain ⟨s6, h, hiend⟩ := Flow.andThen_eq_go h
  obtain ⟨s5, h, hidat⟩ := Flow.andThen_eq_go h
  obtain ⟨s4, h, hzcomp⟩ := Flow.andThen_eq_go h
  obtain ⟨s3, h, hscan⟩ := Flow.andThen_eq_go h
  obtain ⟨s2, h, hihdr⟩ := Flow.andThen_eq_go h
  obtain ⟨s1, h, hsig⟩ := Flow.andThen_eq_go h
  obtain ⟨rfl, -⟩ := validate_eq_go h
  have hbuild : s4.err = s3.err := by
    have hkeeps := buildScan_raisesUnchanged (s3.setPhase .scan)
    rwa [show buildScan (s3.setPhase .scan) = .go s4 from hscan] at hkeeps
  have hhead : s3.err = s2.err :=
    (isStepIn_emitChunk typeIhdr (data := fun s => ihdrData s.width s.height) .ihdr
      fun _ _ _ => rfl).keepsErr s2 s3 hihdr
  calc t.err = s6.err := isStepIn_iendStep.keepsErr s6 t hiend
    _ = s5.err := isStepIn_idatStep.keepsErr s5 s6 hidat
    _ = s4.err := isStepIn_zcompStep.keepsErr s4 s5 hzcomp
    _ = s2.err := hbuild.trans hhead
    _ = s.err := isStepIn_sigStep.keepsErr (s.clearLengths.setPhase .scan) s2 hsig

/-- A run that keeps `ERR` to its end leaves it as it was or records an error. -/
theorem Flow.err_finish {f : Flow} {err : Option PngeError} {t : State}
    (hf : ∀ u, f = .go u → u.err = err) (h : f.finish = .next t) :
    t.err = err ∨ t.err ≠ none := by
  cases f with
  | go u => cases h; exact .inl (hf u rfl)
  | raised e u => cases h; exact .inr nofun
  | stuck x => cases h

theorem engineStep_cfg {s t : State} (h : engineStep s = .next t) : t.cfg = s.cfg := by
  rcases engineStep_cases h with ⟨-, rfl⟩ | ⟨-, i, -, hexec⟩ | ⟨-, -, rfl⟩
  · rfl
  · by_cases hi : i = .srst
    · subst hi; cases hexec; rfl
    · exact congrArg Inputs.cfg (exec_inputs hi hexec)
  · rfl

/-- No command but `SRST` clears `ERR`. -/
theorem exec_err {i : Instr} {s t : State} (hi : i ≠ .srst) (h : exec i s = .next t) :
    t.err = s.err ∨ t.err ≠ none := by
  cases i with
  | srst => exact absurd rfl hi
  | nop | crcInit | crcByte b | adlInit | adlByte b | outClr => cases h; exact .inl rfl
  | pngSig => exact Flow.err_finish (isStepIn_sigStep.keepsErr s) h
  | pngIhdr => exact Flow.err_finish (isStepIn_ihdrRun.keepsErr s) h
  | pngScan => exact Flow.err_finish (isStepIn_scanRun.keepsErr s) h
  | pngZcomp => exact Flow.err_finish (isStepIn_zcompStep.keepsErr s) h
  | pngIdat => exact Flow.err_finish (isStepIn_idatStep.keepsErr s) h
  | pngIend => exact Flow.err_finish (isStepIn_iendStep.keepsErr s) h
  | pngEncode =>
    rw [exec_pngEncode_eq] at h
    exact Flow.err_finish (fun u hu => encodeRun_keepsErr s u (Flow.clearOnRaise_eq_go hu)) h

/-- What the engine's turn makes of `ERR`: it keeps it, or a command other than `SRST` (or an
illegal word) ends with an error, or `SRST` clears it (R23). -/
theorem engineStep_err_cases {s t : State} (h : engineStep s = .next t) :
    t.err = s.err ∨
    s.busy = true ∧ (s.lastCmd ≠ 0x00000001 ∧ t.err ≠ none ∧ t.busy = false ∧ t.done = true ∨
      s.lastCmd = 0x00000001 ∧ t.err = none) := by
  have hsrst : decode 0x00000001 = .ok .srst := decode_encode .srst
  rcases engineStep_cases h with ⟨-, rfl⟩ | ⟨hb, i, hi, hexec⟩ | ⟨hb, ⟨e, he⟩, rfl⟩
  · exact .inl rfl
  · by_cases hne : i = .srst
    · subst hne
      cases hexec
      exact .inr ⟨hb, .inr ⟨(encode_of_decode hi).symm, rfl⟩⟩
    · refine (exec_err hne hexec).imp_right fun herr => ⟨hb, .inl ⟨fun hw => ?_, herr, ?_⟩⟩
      · rw [hw, hsrst] at hi
        exact hne (Except.ok.inj hi).symm
      · obtain ⟨hbusy, hdone, -⟩ := exec_ended hne hexec
        exact ⟨hbusy, hdone⟩
  · refine .inr ⟨hb, .inl ⟨fun hw => ?_, nofun, rfl, rfl⟩⟩
    rw [hw, hsrst] at he
    cases he

end Sys2Proof.Machine
end

section
/-! The statements on the step and the performed command (44_system.md section 1), on stops and
errors (60_exceptions.md section 1), and on what commands keep (10_state.md). -/

namespace Sys2Proof.Machine

/-- Settles O5: `SRST` sets every flag anew; every other command ends as `Flow.finish` does
(`exec_ended`). -/
theorem performedCommandsAreDone : Obligations.PerformedCommandsAreDone := by
  unfold Obligations.PerformedCommandsAreDone
  intro i s t h
  by_cases hi : i = .srst
  · subst hi
    cases h
    exact ⟨rfl, fun hne => absurd rfl hne, fun _ => rfl, fun _ => rfl⟩
  · obtain ⟨hb, hd, hp⟩ := exec_ended hi h
    exact ⟨hb, fun _ => hd, fun heq => absurd heq hi, hp⟩

/-- Settles O6, by `exec_ne_refused` and `exec_fault_iff`. -/
theorem onlyUnwrittenPixelsStop : Obligations.OnlyUnwrittenPixelsStop := by
  unfold Obligations.OnlyUnwrittenPixelsStop
  intro i s hc
  rw [← not_pixWritten_iff]
  exact ⟨exec_ne_refused i s, exec_fault_iff i hc⟩

/-- Settles O18: the host cannot write `ERR`, a hardware reset clears it, and the engine's turn is
`engineStep_err_cases`. -/
theorem errChangesOnlyByFailureOrReset : Obligations.ErrChangesOnlyByFailureOrReset := by
  unfold Obligations.ErrChangesOnlyByFailureOrReset
  intro s t h
  rcases step_cases h with ⟨a, -, rfl⟩ | ⟨hreset, rfl⟩ | ⟨hturn, hengine⟩
  · have hkeep : (hostStep a s.popTurn).err = s.err := hostStep_err a s.popTurn
    exact ⟨fun h0 h1 => absurd (hkeep.trans h0) h1, fun h0 h1 => absurd (hkeep.symm.trans h1) h0⟩
  · exact ⟨fun _ h1 => absurd rfl h1, fun _ _ => .inl hreset⟩
  · rcases engineStep_err_cases hengine with hkeep | ⟨hb, ⟨hw, he, hidle⟩ | ⟨hw, he⟩⟩
    · have hkeep : t.err = s.err := hkeep
      exact ⟨fun h0 h1 => absurd (hkeep.trans h0) h1, fun h0 h1 => absurd (hkeep.symm.trans h1) h0⟩
    · exact ⟨fun _ _ => ⟨hturn, hb, hw, hidle⟩, fun _ h1 => absurd h1 he⟩
    · exact ⟨fun _ h1 => absurd he h1, fun _ _ => .inr ⟨hturn, hb, hw⟩⟩

/-- Settles O32: no command but `SRST` writes an input (`exec_inputs`), `SRST` keeps `PIX`, and the
configuration is kept by each kind of turn. -/
theorem commandsKeepInputs : Obligations.CommandsKeepInputs := by
  unfold Obligations.CommandsKeepInputs
  refine ⟨fun i s t h => ?_, fun s t h => ?_⟩
  · by_cases hi : i = .srst
    · subst hi
      cases h
      exact ⟨rfl, rfl, rfl, rfl, fun hne => absurd rfl hne⟩
    · have hin := exec_inputs hi h
      simp only [State.inputs, Inputs.mk.injEq] at hin
      obtain ⟨-, hw, hh, hn, hcmd, hpix, hturns, hanswers, hdraws⟩ := hin
      exact ⟨hpix, hturns, hanswers, hdraws, fun _ => ⟨hw, hh, hn, hcmd⟩⟩
  · rcases step_cases h with ⟨a, -, rfl⟩ | ⟨-, rfl⟩ | ⟨-, hengine⟩
    · exact hostStep_cfg a s.popTurn
    · rfl
    · exact engineStep_cfg (s := s.popTurn) hengine

/-- Settles O4, by what a step is for each kind of turn. -/
theorem stepRunsDecodedCommand : Obligations.StepRunsDecodedCommand := by
  unfold Obligations.StepRunsDecodedCommand
  refine ⟨fun s i hturn hb hi => ?_, fun s hturn hb ⟨e, he⟩ => ?_, fun s hturn hb => ?_,
    fun s a => stepTurn_host, fun s => stepTurn_reset⟩
  · exact (stepTurn_engine hturn).trans
      ((engineStep_busy (s := s.popTurn) hb).trans (perform_ok (s := s.popTurn) hi))
  · exact (stepTurn_engine hturn).trans
      ((engineStep_busy (s := s.popTurn) hb).trans (perform_error (s := s.popTurn) he))
  · exact (stepTurn_engine hturn).trans (engineStep_idle (s := s.popTurn) hb)

/-- Settles O57: the step is `hardwareReset` of the state with the turn taken off. -/
theorem hardwareResetKeepsModelFields : Obligations.HardwareResetKeepsModelFields := by
  unfold Obligations.HardwareResetKeepsModelFields
  exact fun s => step_of_hardwareReset

end Sys2Proof.Machine
end

section
/-! The statements on the host's accesses (20_memory.md section 3; 44_system.md section 3). -/

namespace Sys2Proof.Machine

/-- Settles O23: each host action leaves the state as `hostStep_busy` says, and busy. -/
theorem busyEngineIgnoresHost : Obligations.BusyEngineIgnoresHost := by
  unfold Obligations.BusyEngineIgnoresHost
  intro actions
  induction actions with
  | nil => exact fun _ _ => rfl
  | cons a actions ih =>
    intro s hb
    have hstep := hostStep_busy a hb
    have hrest := ih (hostStep a s) (by rw [hstep]; exact hb)
    rw [List.foldl_cons]
    generalize actions.foldl (fun s a => hostStep a s) (hostStep a s) = t at hrest ⊢
    rw [hstep] at hrest
    exact hrest

/-- Settles O24: the values are those of `registerValue`; the writes are `writeRegister_image`,
`writeRegister_busy`, `writeRegister_readOnly` and `writeRegister_cmd_eq`. -/
theorem registerAccessTable : Obligations.RegisterAccessTable := by
  unfold Obligations.RegisterAccessTable
  intro s result
  exact ⟨rfl, rfl, rfl, rfl, rfl, rfl, rfl, rfl, rfl, rfl, rfl,
    fun _ => readRegister_reserved, fun v => writeRegister_image v,
    fun offset v => writeRegister_busy offset v, fun _ v => writeRegister_readOnly v s,
    fun w => writeRegister_cmd_eq w s, fun _ => rfl⟩

/-- Settles O25: `BUSY` and `DONE` are the two lowest bits; the fields are
`extractLsb'_statusWord`. -/
theorem statusWordLayout : Obligations.StatusWordLayout := by
  unfold Obligations.StatusWordLayout
  intro busy done err phase w
  exact ⟨by simp [w, statusWord], by simp [w, statusWord],
    extractLsb'_statusWord busy done err phase⟩

/-- Settles O26: a read is an `answer`, and a register write one of the cases of
`writeRegister_cases`. -/
theorem readsHaveNoSideEffect : Obligations.ReadsHaveNoSideEffect := by
  unfold Obligations.ReadsHaveNoSideEffect
  refine ⟨fun _ _ => rfl, fun _ _ => rfl, ?_⟩
  intro offset v s hne t
  rcases writeRegister_cases offset v s with h | ⟨-, ⟨h0, -⟩ | ⟨h8, h⟩ | ⟨hC, h⟩ | ⟨h10, h⟩⟩
  · rw [show t = s from h]
    exact ⟨rfl, .inl rfl, .inl rfl, .inl rfl⟩
  · exact absurd h0 hne
  · rw [show t = { s with width := v } from h]
    exact ⟨rfl, .inr ⟨h8, rfl⟩, .inl rfl, .inl rfl⟩
  · rw [show t = { s with height := v } from h]
    exact ⟨rfl, .inl rfl, .inr ⟨hC, rfl⟩, .inl rfl⟩
  · rw [show t = { s with pixLen := v } from h]
    exact ⟨rfl, .inl rfl, .inl rfl, .inr ⟨h10, rfl⟩⟩

/-- Settles O28, by the two cases of `readOut` and `hostStep_out`. -/
theorem readOutGivesOutputByte : Obligations.ReadOutGivesOutputByte := by
  unfold Obligations.ReadOutGivesOutputByte
  exact fun s i b => ⟨readOut_output, readOut_free, rfl, fun a => hostStep_out a s⟩

end Sys2Proof.Machine
end

section
/-! SUPPORT. What the tokens of a parse stand for (42_deflate.md R197), and the symbol of the
longest match (R198). -/

namespace Sys2Proof.Machine

/-- The output with what one token stands for (R124, R197). -/
def expandToken (out : Bytes) : Token → Bytes
  | .lit b => out ++ [b]
  | .copy len dist => copyMatch dist len out

theorem expandTokens_eq (ts : List Token) : expandTokens ts = ts.foldl expandToken [] := rfl

/-- The tokens of a parse extend the input so far to the whole of it. -/
theorem Parses.foldl_expandToken {s : Bytes} {i : Nat} {ts : List Token} (h : Parses s i ts) :
    ts.foldl expandToken (s.take i) = s := by
  induction h with
  | done => exact List.take_length
  | lit hi _ ih => rwa [List.foldl_cons, expandToken, take_append_getD hi]
  | copy hm _ ih =>
    rwa [List.foldl_cons, expandToken, copyMatch_take hm.dist_range.1 hm.back hm.fits hm.same]

/-- Every match of a parse is within the format's limits. -/
theorem Parses.copy_range {s : Bytes} {i len dist : Nat} {ts : List Token} (h : Parses s i ts)
    (hmem : .copy len dist ∈ ts) : (3 ≤ len ∧ len ≤ 258) ∧ 1 ≤ dist ∧ dist ≤ 32768 := by
  induction h with
  | done => cases hmem
  | lit _ _ ih => exact ih (by simpa using hmem)
  | copy hm _ ih =>
    rcases List.mem_cons.1 hmem with heq | hmem
    · obtain ⟨rfl, rfl⟩ := Token.copy.inj heq
      exact ⟨hm.len_range, hm.dist_range⟩
    · exact ih hmem

/-- Symbol 285 is for the longest match alone: every shorter one has an entry of `LBASE` before the
last (R198). -/
theorem lenSym_symbol_eq_285_iff {len : Nat} (h : 3 ≤ len) :
    (lenSym len).symbol = 285 ↔ len = 258 := by
  obtain ⟨hbound, -, -⟩ := largestIndex_spec (table := lengthBase) (v := len) h 27
  simp only [lenSym]
  split <;> omega

/-- The size of a `STORED` stream, of no data too (R214). -/
theorem length_zStream_stored_max (s : Bytes) :
    (zStream .stored s).length = 6 + s.length + 5 * max 1 ((s.length + 65534) / 65535) := by
  by_cases hs : s = []
  · subst hs
    exact length_zStream_nil.2
  · have hpos := List.length_pos_iff.2 hs
    have hone : 1 ≤ (s.length + 65534) / 65535 := by omega
    rw [length_zStream_stored hs, Nat.max_eq_right hone]

end Sys2Proof.Machine
end

section
/-! The statements of 42_deflate.md on the tokens, the codes and the two instances. -/

namespace Sys2Proof.Machine

/-- Settles O47: `Inflate` reads the tokens of the parse one by one (`inflate_deflateFixedLz`), and
`ZlibDecode` opens the wrapper. -/
theorem fixedLzRoundTrip : Obligations.FixedLzRoundTrip := by
  unfold Obligations.FixedLzRoundTrip
  refine ⟨fun s => ?_, zlibDecode_zStream (by decide)⟩
  have h := inflate_deflateFixedLz s []
  rwa [List.append_nil] at h

/-- Settles O46: `Inflate` reads the stored blocks one by one (`inflate_deflateStored`). -/
theorem storedRoundTrip : Obligations.StoredRoundTrip := by
  unfold Obligations.StoredRoundTrip
  refine ⟨fun s => ?_, zlibDecode_zStream (by decide)⟩
  have h := inflate_deflateStored s []
  rwa [List.append_nil] at h

/-- Settles O43: the tokens are a parse of the whole input (`tokens_parses`). -/
theorem tokensStandForTheirInput : Obligations.TokensStandForTheirInput := by
  unfold Obligations.TokensStandForTheirInput
  refine fun s => ⟨?_, fun len dist hmem => ?_⟩
  · rw [expandTokens_eq]
    exact (tokens_parses s).foldl_expandToken
  · obtain ⟨⟨h3, h258⟩, hdist⟩ := (tokens_parses s).copy_range hmem
    exact ⟨h3, h258, hdist⟩

/-- Settles O48: the sizes are those of the two instances' streams, and a `Z_CAP` that reaches the
bound for `SCAN_CAP` reaches it for `SCAN_LEN`. -/
theorem compressedSizeBounds : Obligations.CompressedSizeBounds := by
  unfold Obligations.CompressedSizeBounds
  refine ⟨length_zStream_stored_max, fun s => (length_zStream_fixedLz s).1,
    fun s hmode hlen hcap => ?_⟩
  have hdata : (scanData s).length = s.scanLen.toNat := Memory.length_readAny ..
  have hbound := (length_zStream_fixedLz (scanData s)).1
  rcases exec_pngZcomp_cases s with ⟨-, hexec⟩ | ⟨hover, -⟩
  · exact ⟨_, hexec, rfl⟩
  · rw [hmode] at hover
    omega

/-- Settles O44: `lenSym_inverse` and `distSym_inverse`. -/
theorem symbolsInvertByBaseAndExtra : Obligations.SymbolsInvertByBaseAndExtra := by
  unfold Obligations.SymbolsInvertByBaseAndExtra
  refine ⟨fun len h3 h258 => ?_, fun dist h1 hmax => ?_⟩
  · obtain ⟨⟨hlow, hhigh⟩, hbase, hbits, hfits⟩ := lenSym_inverse len h258 h3
    exact ⟨hlow, hhigh, hbase, hbits.symm, hfits, lenSym_symbol_eq_285_iff h3⟩
  · obtain ⟨hj, hbase, hfits⟩ := distSym_inverse h1 hmax
    exact ⟨hj, hbase, rfl, hfits⟩

/-- Settles O45: the canonical construction gives the two lists of entries, symbol by symbol. -/
theorem fixedCodesAreCanonical : Obligations.FixedCodesAreCanonical := by
  unfold Obligations.FixedCodesAreCanonical
  rw [fixedLitCode_eq, fixedDistCode_eq]
  refine ⟨fun s hs => ?_, by simp, fun s hs => ?_, by simp⟩
  · rw [List.getElem?_map, List.getElem?_range hs]
    rfl
  · rw [List.getElem?_map, List.getElem?_range hs]
    rfl

end Sys2Proof.Machine
end

section
/-! SUPPORT. What the host reads after `PNG.ENCODE` (43_png_framing.md section 3): the registers of
an idle engine, the unit registers where the pseudocode ends, and the end of the zlib stream in
`OUT`. -/

namespace Sys2Proof.Machine

/-- The length registers of an idle engine (R286). -/
theorem readRegister_lengths {s : State} (hb : s.busy = false) :
    readRegister 0x14 s = s.outLen ∧ readRegister 0x18 s = s.scanLen ∧
      readRegister 0x1C s = s.zLen := by
  simp [readRegister, registerAt, registerValue, whenIdle, hb]

/-- `STATUS` of an idle engine that has completed a command (R23). -/
theorem readRegister_status_completed {s : State} (hb : s.busy = false) (hd : s.done = true)
    (he : s.err = none) (hp : s.phase = .idle) : readRegister 0x04 s = 0x00000002 := by
  rw [readRegister_status hb, hd, he, hp]
  rfl

/-- `STATUS` of an idle engine with an error (R23). -/
theorem readRegister_status_failed {s : State} {e : PngeError} (hb : s.busy = false)
    (hd : s.done = true) (he : s.err = some e) :
    readRegister 0x04 s =
      0x00000002 ||| (e.code.setWidth 32 <<< 4) ||| (s.phase.code.setWidth 32 <<< 8) := by
  rw [readRegister_status hb, hd, he]
  rfl

/-- `CRC_VAL` with the CRC unit on `m` (R30, R152). -/
theorem crcVal_of_fold {s : State} {m : Bytes} (h : s.crc = crcFold crcInitial m) :
    crcVal s = crc32 m := by
  rw [crcVal, h, crc32]

/-- `ADLER_VAL` after the Adler pass over `m` (R31, R180). -/
theorem adlerVal_of_sums {s : State} {m : Bytes} (ha : s.ada = (adlerFold adlerInitial m).1)
    (hb : s.adb = (adlerFold adlerInitial m).2) : adlerVal s = adler32 m := by
  rw [adlerVal_eq_append, ha, hb, adler32]

/-- At the capacity checks of the compression and of the IDAT chunk the CRC unit is on the IHDR
chunk and the Adler unit on the scanline buffer (R247). -/
theorem atZcomp_units (s : State) (scan : Bytes) :
    (s.atZcomp scan).crc = crcFold crcInitial (typeIhdr ++ ihdrData s.width s.height) ∧
      (s.atZcomp scan).ada = (adlerFold adlerInitial scan).1 ∧
      (s.atZcomp scan).adb = (adlerFold adlerInitial scan).2 := by
  simp [State.atZcomp, State.afterScan, State.afterHeader]

theorem atIdat_units (s : State) (scan : Bytes) :
    (s.atIdat scan).crc = crcFold crcInitial (typeIhdr ++ ihdrData s.width s.height) ∧
      (s.atIdat scan).ada = (adlerFold adlerInitial scan).1 ∧
      (s.atIdat scan).adb = (adlerFold adlerInitial scan).2 := by
  simpa only [State.atIdat, State.setPhase_crc, State.setPhase_ada, State.setPhase_adb,
    State.setZ_crc, State.setZ_ada, State.setZ_adb] using atZcomp_units s scan

/-- At the IEND chunk's capacity check the CRC unit is on the IDAT chunk (R240). -/
theorem atIend_crc (s : State) (scan : Bytes) :
    (s.atIend scan).crc = crcFold crcInitial (typeIdat ++ zStream s.cfg.compMode scan) := by
  simp [State.atIend]

/-- At the end it is on the IEND chunk, and the Adler unit still on the scanline buffer (R246). -/
theorem atEnd_units (s : State) (scan : Bytes) :
    (s.atEnd scan).crc = crcFold crcInitial (typeIend ++ []) ∧
      (s.atEnd scan).ada = (adlerFold adlerInitial scan).1 ∧
      (s.atEnd scan).adb = (adlerFold adlerInitial scan).2 := by
  simp [State.atEnd, State.atIend, State.atIdat, State.atZcomp]

theorem crc32_typeIend : crc32 (typeIend ++ []) = 0xAE426082 := by decide +kernel

theorem atEnd_outLen {s : State} {scan : Bytes}
    (h : 57 + (zStream s.cfg.compMode scan).length < 2 ^ 32) :
    (s.atEnd scan).outLen.toNat = 57 + (zStream s.cfg.compMode scan).length := by
  rw [← Memory.length_readWritten (atEnd_outIs s scan h).1, length_pngStream]

/-- What `ZlibDecode` has checked of a stream that it accepts (R212). -/
theorem zlibDecode_eq_some {z s : Bytes} (h : zlibDecode z = some s) :
    ∃ used, z.length = 2 + used + 4 ∧ (z.drop (2 + used)).take 4 = be32 (adler32 s) := by
  unfold zlibDecode at h
  split_ifs at h
  cases hinf : inflate (z.drop 2) with
  | none => simp [hinf] at h
  | some r =>
    obtain ⟨data, used⟩ := r
    simp only [hinf] at h
    split_ifs at h with hlen htrailer
    obtain rfl := Option.some.inj h
    exact ⟨used, not_not.1 hlen, not_not.1 htrailer⟩

/-- Such a stream ends with the Adler-32 of what it gives (R108). -/
theorem zlibDecode_trailer {z s : Bytes} (h : zlibDecode z = some s) :
    4 ≤ z.length ∧ z.drop (z.length - 4) = be32 (adler32 s) := by
  obtain ⟨used, hlen, htrailer⟩ := zlibDecode_eq_some h
  have hstart : z.length - 4 = 2 + used := by omega
  have hall : (z.drop (2 + used)).take 4 = z.drop (2 + used) :=
    List.take_of_length_le (by rw [List.length_drop]; omega)
  rw [hstart, ← hall]
  exact ⟨by omega, htrailer⟩

/-- What stands in the bytes read can be read by itself. -/
theorem StandsAt.readWritten {m : Memory} {n i : Nat} {p bs : Bytes} (h : StandsAt p i bs)
    (hp : m.readWritten 0 n = some p) : m.readWritten i bs.length = some bs := by
  obtain ⟨pre, post, rfl, rfl⟩ := h
  refine Memory.readWritten_eq_some fun k hk => ?_
  have hn := Memory.length_readWritten hp
  rw [List.length_append, List.length_append] at hn
  have hbyte := Memory.getElem?_readWritten hp (k := pre.length + k) (by omega)
  rw [Nat.zero_add, List.append_assoc, List.getElem?_append_right (Nat.le_add_right _ _),
    Nat.add_sub_cancel_left, List.getElem?_append_left hk] at hbyte
  exact hbyte.symm

/-- The zlib stream of the datastream ends 16 bytes before its end (R100). -/
theorem pngStream_trailer (width height : Word) {z : Bytes} (hz : 4 ≤ z.length) :
    StandsAt (pngStream width height z) (57 + z.length - 20) (z.drop (z.length - 4)) := by
  obtain ⟨-, hidat, -⟩ := pngStream_chunks width height z
  have hdata : StandsAt (pngStream width height z) 41 z := hidat.split.1.split.2
  rw [← List.take_append_drop (z.length - 4) z] at hdata
  have hlast := hdata.split.2
  rw [List.take_append_drop, List.length_take] at hlast
  rwa [show 57 + z.length - 20 = 41 + min (z.length - 4) z.length by omega]

/-- The four bytes of `OUT` before the last 16 are the Adler-32 of the scanline buffer. -/
theorem State.CanEncode.out_trailer {s : State} {scan : Bytes} (h : s.CanEncode scan)
    (hround : zlibDecode (zStream s.cfg.compMode scan) = some scan) :
    (s.atEnd scan).out.readWritten ((s.atEnd scan).outLen.toNat - 20) 4 =
      some (be32 (adler32 scan)) := by
  obtain ⟨-, -, hlt⟩ := exec_pngEncode_canEncode h
  obtain ⟨hz, htrailer⟩ := zlibDecode_trailer hround
  have hstands := pngStream_trailer s.width s.height hz
  rw [htrailer, ← atEnd_outLen hlt] at hstands
  exact hstands.readWritten (atEnd_outIs s scan hlt).1

/-- What the unit registers hold where `PNG.ENCODE` raises, by the phase (R247). -/
structure State.RaisedUnits (s : State) (buffer : Bytes) (u : State) : Prop where
  phase : u.phase ∈ [Phase.scan, .zcomp, .idat, .iend]
  scan : u.phase = .scan → u.crc = s.crc ∧ u.ada = s.ada ∧ u.adb = s.adb
  compress : u.phase = .zcomp ∨ u.phase = .idat →
    u.crc = crcFold crcInitial (typeIhdr ++ ihdrData s.width s.height) ∧
      u.ada = (adlerFold adlerInitial buffer).1 ∧ u.adb = (adlerFold adlerInitial buffer).2
  iend : u.phase = .iend →
    u.crc = crcFold crcInitial (typeIdat ++ zStream s.cfg.compMode buffer)

theorem encodeRun_raisedUnits {s u : State} {e : PngeError} {scan : Bytes}
    (hc : s.cfg.wellFormed = true) (hscan : s.IsScan scan) (h : encodeRun s = .raised e u) :
    s.RaisedUnits scan u := by
  by_cases ha : s.ImageAccepted
  · rcases encodeRun_cases hc ha with ⟨-, -, hrun⟩ | ⟨scan', hs, -, hrun⟩
    · rw [hrun] at h
      cases h
    · obtain rfl := isScan_unique (isScan_of_scanlines hs) hscan
      rcases hrun with ⟨-, hrun⟩ | ⟨-, -, hrun⟩ | ⟨-, -, -, hrun⟩ | ⟨-, -, hrun⟩ <;>
        rw [hrun] at h
      · obtain ⟨-, rfl⟩ := Flow.raised.inj h
        have hphase : (s.atZcomp scan').phase = .zcomp := by simp [State.atZcomp]
        exact ⟨by simp [hphase], by simp [hphase], fun _ => atZcomp_units s scan',
          by simp [hphase]⟩
      · obtain ⟨-, rfl⟩ := Flow.raised.inj h
        have hphase : (s.atIdat scan').phase = .idat := by simp [State.atIdat]
        exact ⟨by simp [hphase], by simp [hphase], fun _ => atIdat_units s scan',
          by simp [hphase]⟩
      · obtain ⟨-, rfl⟩ := Flow.raised.inj h
        have hphase : (s.atIend scan').phase = .iend := by simp [State.atIend]
        exact ⟨by simp [hphase], by simp [hphase], by simp [hphase], fun _ => atIend_crc s scan'⟩
      · cases h
  · obtain ⟨e', -, hrun⟩ := encodeRun_rejected ha
    rw [hrun] at h
    obtain ⟨-, rfl⟩ := Flow.raised.inj h
    exact ⟨by simp, fun _ => ⟨rfl, rfl, rfl⟩, by simp, nofun⟩

end Sys2Proof.Machine
end

section
/-! SUPPORT. `PNG.ENCODE` of one image in two states (43_png_framing.md R255). -/

namespace Sys2Proof.Machine

theorem Memory.readWritten_congr {m m' : Memory} {a n : Nat}
    (h : ∀ k < n, m.read (a + k) = m'.read (a + k)) : m.readWritten a n = m'.readWritten a n := by
  induction n generalizing a with
  | zero => rfl
  | succ n ih =>
    have hrest : m.readWritten (a + 1) n = m'.readWritten (a + 1) n := ih fun k hk => by
      rw [Nat.add_assoc, Nat.add_comm 1]
      exact h (k + 1) (by omega)
    have hfirst : m.read a = m'.read a := h 0 (by omega)
    rw [readWritten, readWritten, hfirst, hrest]

/-- The scanline buffer reads the pixels of its rows alone (R105). -/
theorem scanRows_congr {m m' : Memory} {rowBytes r n : Nat}
    (h : ∀ k < (r + n) * rowBytes, m.read k = m'.read k) :
    scanRows m rowBytes r n = scanRows m' rowBytes r n := by
  induction n generalizing r with
  | zero => rfl
  | succ n ih =>
    have hrow : m.readWritten (r * rowBytes) rowBytes = m'.readWritten (r * rowBytes) rowBytes :=
      Memory.readWritten_congr fun k hk => h _ (row_index_lt (by omega) hk)
    have hrest : scanRows m rowBytes (r + 1) n = scanRows m' rowBytes (r + 1) n := ih fun k hk =>
      h k (by rwa [Nat.add_assoc, Nat.add_comm 1] at hk)
    rw [scanRows, scanRows, hrow, hrest]

namespace State.SameImage

variable {s u : State}

theorem during (h : s.SameImage u) (w : Word) : (s.during w).SameImage (u.during w) := h

theorem accepted (h : s.SameImage u) (ha : s.ImageAccepted) : u.ImageAccepted := by
  obtain ⟨hcfg, hw, hh, hn, -⟩ := h
  rwa [State.ImageAccepted, ← hcfg, ← hw, ← hh, ← hn]

theorem scanlines_eq (h : s.SameImage u) (ha : s.ImageAccepted) : scanlines s = scanlines u := by
  obtain ⟨-, hw, hh, -, hpix⟩ := h
  rw [scanlines, scanlines, ← hw, ← hh]
  refine scanRows_congr fun k hk => hpix k ?_
  rw [ha.2.2.1]
  calc k < (0 + s.height.toNat) * (s.width.toNat * 3) := hk
    _ = s.width.toNat * s.height.toNat * 3 := by ring

end State.SameImage

/-- `PNG.ENCODE` stops where the scanline buffer cannot be built (R75). -/
theorem encodeRun_stuck {s : State} (hc : s.cfg.wellFormed = true) (ha : s.ImageAccepted)
    (hs : scanlines s = none) : encodeRun s = .stuck .pixNeverWritten := by
  rcases encodeRun_cases hc ha with ⟨-, -, hrun⟩ | ⟨scan, hs', -⟩
  · exact hrun
  · cases hs.symm.trans hs'

/-- How `PNG.ENCODE` runs once the scanline buffer is built: three capacity checks (R247). -/
theorem encodeRun_eq_of_scanlines {s : State} {scan : Bytes} (hc : s.cfg.wellFormed = true)
    (ha : s.ImageAccepted) (hs : scanlines s = some scan) :
    encodeRun s =
      if s.cfg.zCap < (zStream s.cfg.compMode scan).length then
        .raised .capacityExceeded (s.atZcomp scan)
      else if s.cfg.outCap < 45 + (zStream s.cfg.compMode scan).length then
        .raised .capacityExceeded (s.atIdat scan)
      else if s.cfg.outCap < 57 + (zStream s.cfg.compMode scan).length then
        .raised .capacityExceeded (s.atIend scan)
      else .go (s.atEnd scan) := by
  rcases encodeRun_cases hc ha with ⟨-, hnone, -⟩ | ⟨scan', hs', -, hrun⟩
  · cases hnone.symm.trans hs
  · obtain rfl := Option.some.inj (hs'.symm.trans hs)
    rcases hrun with ⟨hz, hrun⟩ | ⟨hz, ho, hrun⟩ | ⟨hz, ho, ho', hrun⟩ | ⟨hz, ho, hrun⟩
    · rw [hrun, if_pos hz]
    · rw [hrun, if_neg (by omega), if_pos ho]
    · rw [hrun, if_neg (by omega), if_neg (by omega), if_pos ho']
    · rw [hrun, if_neg (by omega), if_neg (by omega), if_neg (by omega)]

/-- Two runs of `PNG.ENCODE` that end alike for the host (R255). -/
inductive Flow.Alike : Flow → Flow → Prop
  | stuck (x : Fault) : Alike (.stuck x) (.stuck x)
  | raised (e : PngeError) {x y : State} (hphase : x.phase = y.phase) :
      Alike (.raised e x) (.raised e y)
  | go {x y : State} (houtputs : x.complete.OutputsAgree y.complete)
      (hunits : x.crc = y.crc ∧ x.ada = y.ada ∧ x.adb = y.adb) : Alike (.go x) (.go y)

/-- Two completed commands with the same error code, lengths and output read alike. -/
theorem outputsAgree_complete {x y : State} {P : Bytes} {o o' : Memory} (herr : x.err = y.err)
    (hlens : x.outLen = y.outLen ∧ x.scanLen = y.scanLen ∧ x.zLen = y.zLen) (hx : x.OutIs P o)
    (hy : y.OutIs P o') : x.complete.OutputsAgree y.complete := by
  obtain ⟨hout, hscan, hz⟩ := hlens
  refine ⟨rfl, rfl, herr, rfl, hout, hscan, hz, fun i hi => ?_⟩
  have hread := Memory.getElem?_readWritten hx.1 hi
  have hread' := Memory.getElem?_readWritten hy.1 (k := i) (hout ▸ hi)
  rw [Nat.zero_add] at hread hread'
  exact hread.symm.trans hread'

/-- The host reads the same after two successful encodings of one image. -/
theorem atEnd_outputsAgree {s u : State} {scan : Bytes} (h : s.SameImage u) (herr : s.err = u.err)
    (hz : 57 + (zStream s.cfg.compMode scan).length < 2 ^ 32) :
    (s.atEnd scan).complete.OutputsAgree (u.atEnd scan).complete := by
  obtain ⟨hcfg, hw, hh, -, -⟩ := h
  have hzu : 57 + (zStream u.cfg.compMode scan).length < 2 ^ 32 := hcfg ▸ hz
  have hout := atEnd_outIs u scan hzu
  rw [← hcfg, ← hw, ← hh] at hout
  obtain ⟨⟨-, hscanLen⟩, ⟨-, hzLen⟩, hkeep, -⟩ := atEnd_fields s scan
  obtain ⟨⟨-, hscanLen'⟩, ⟨-, hzLen'⟩, hkeep', -⟩ := atEnd_fields u scan
  rw [← hcfg] at hzLen'
  have hlen : (s.atEnd scan).outLen = (u.atEnd scan).outLen :=
    BitVec.eq_of_toNat_eq (by rw [atEnd_outLen hz, atEnd_outLen hzu, hcfg])
  exact outputsAgree_complete (hkeep.trans (herr.trans hkeep'.symm))
    ⟨hlen, hscanLen.trans hscanLen'.symm, hzLen.trans hzLen'.symm⟩ (atEnd_outIs s scan hz) hout

/-- `PNG.ENCODE` looks at the image and the configuration alone (R255). -/
theorem encodeRun_alike {s u : State} (hc : s.cfg.wellFormed = true) (h : s.SameImage u)
    (herr : s.err = u.err) : (encodeRun s).Alike (encodeRun u) := by
  have ⟨hcfg, hw, hh, hn, _⟩ := h
  have hcu : u.cfg.wellFormed = true := hcfg ▸ hc
  by_cases ha : s.ImageAccepted
  · have hau := h.accepted ha
    have hlines := h.scanlines_eq ha
    cases hs : scanlines s with
    | none =>
      rw [encodeRun_stuck hc ha hs, encodeRun_stuck hcu hau (hlines ▸ hs)]
      exact .stuck _
    | some scan =>
      rw [encodeRun_eq_of_scanlines hc ha hs, encodeRun_eq_of_scanlines hcu hau (hlines ▸ hs),
        ← hcfg]
      split_ifs with hz hidat hiend
      · exact .raised _ (by simp [State.atZcomp])
      · exact .raised _ (by simp [State.atIdat])
      · exact .raised _ (by simp [State.atIend])
      · refine .go (atEnd_outputsAgree h herr ?_) ?_
        · have := (capacities_lt hc).2
          omega
        · obtain ⟨hcrc, hada, hadb⟩ := atEnd_units s scan
          obtain ⟨hcrc', hada', hadb'⟩ := atEnd_units u scan
          exact ⟨hcrc.trans hcrc'.symm, hada.trans hada'.symm, hadb.trans hadb'.symm⟩
  · obtain ⟨e, he, hrun⟩ := encodeRun_rejected ha
    rw [hrun, encodeRun_raised (validate_raised_congr he hcfg.symm hw.symm hh.symm hn.symm)]
    exact .raised e rfl

end Sys2Proof.Machine
end

section
/-! The statements of 43_png_framing.md section 3 on what the host reads, and of section 4 on what
the result depends on. -/

namespace Sys2Proof.Machine

/-- Settles O51: the run reaches its end (`exec_pngEncode_canEncode`), where the registers hold the
lengths and checksums of what was written; the zlib stream ends with the Adler-32 as `ZlibDecode`
accepts it (`zlibDecode_trailer`). -/
theorem encodeSuccessRegisters : Obligations.EncodeSuccessRegisters := by
  unfold Obligations.EncodeSuccessRegisters
  intro s scan hready h
  have hd := h.during (encode .pngEncode)
  obtain ⟨hexec, -, hlt⟩ := exec_pngEncode_canEncode hd
  obtain ⟨⟨-, hscanLen⟩, -, herr, -⟩ := atEnd_fields (s.during (encode .pngEncode)) scan
  obtain ⟨hcrc, hada, hadb⟩ := atEnd_units (s.during (encode .pngEncode)) scan
  have houtLen := atEnd_outLen hlt
  have htrailer := hd.out_trailer
  have hin := exec_inputs (by decide) hexec
  simp only [State.inputs, Inputs.mk.injEq] at hin
  obtain ⟨-, hw, hh, hn, hcmd, -⟩ := hin
  generalize (s.during (encode .pngEncode)).atEnd scan = t at *
  obtain ⟨hout, hscan, -⟩ := readRegister_lengths (s := t.complete) rfl
  refine ⟨t.complete, (runWord_encode hready .pngEncode).trans hexec,
    readRegister_status_completed rfl rfl (herr.trans hready.2) rfl, hout.trans ?_, hscan.trans ?_,
    (readRegister_crcVal rfl).trans ((crcVal_of_fold hcrc).trans crc32_typeIend),
    (readRegister_adlerVal rfl).trans (adlerVal_of_sums hada hadb), hcmd, hw, hh, hn,
    fun hother => htrailer ?_⟩
  · refine BitVec.eq_of_toNat_eq (houtLen.trans (Nat.mod_eq_of_lt ?_).symm)
    exact hlt
  · rw [← h.length_scan.1]
    exact hscanLen
  · exact (em _).elim hother fun hmode => zlibDecode_zStream hmode scan

/-- Settles O52: a `PNG.ENCODE` that fails has raised with the unit registers of
`encodeRun_raisedUnits`, and zeroes the three lengths. -/
theorem encodeFailureRegisters : Obligations.EncodeFailureRegisters := by
  unfold Obligations.EncodeFailureRegisters
  intro s t e scan hready hc hscan hrun he
  have hexec : exec .pngEncode (s.during (encode .pngEncode)) = .next t :=
    (runWord_encode hready .pngEncode).symm.trans hrun
  have hin := exec_inputs (by decide) hexec
  change (encodeRun (s.during (encode .pngEncode))).finishEncode = .next t at hexec
  cases hflow : encodeRun (s.during (encode .pngEncode)) with
  | stuck x =>
    rw [hflow] at hexec
    cases hexec
  | go u =>
    have hkeep : u.err = s.err := encodeRun_keepsErr (s.during (encode .pngEncode)) u hflow
    rw [hflow] at hexec
    cases hexec
    cases (hkeep.trans hready.2).symm.trans he
  | raised e' u =>
    obtain ⟨hphase, hunits, hcompress, hiend⟩ :=
      encodeRun_raisedUnits (s := s.during (encode .pngEncode)) hc hscan hflow
    rw [hflow] at hexec
    cases hexec
    obtain rfl := Option.some.inj he
    obtain ⟨hout, hscanLen, hz⟩ := readRegister_lengths (s := u.clearLengths.raise e') rfl
    refine ⟨readRegister_status_failed rfl rfl rfl, hout, hscanLen, hz,
      congrArg Inputs.lastCmd hin, hphase, hunits, fun hp => ?_, fun hp => ?_⟩
    · obtain ⟨hcrc, hada, hadb⟩ := hcompress hp
      exact ⟨(readRegister_crcVal rfl).trans (crcVal_of_fold hcrc),
        (readRegister_adlerVal rfl).trans (adlerVal_of_sums hada hadb)⟩
    · exact (readRegister_crcVal rfl).trans (crcVal_of_fold (hiend hp))

/-- Settles O56: the two runs end alike (`encodeRun_alike`), and so do the two commands. -/
theorem encodeDependsOnImageAlone : Obligations.EncodeDependsOnImageAlone := by
  unfold Obligations.EncodeDependsOnImageAlone
  intro s u hs hu hc h
  have herr : s.err = u.err := hs.2.trans hu.2.symm
  have halike := encodeRun_alike (s := s.during (encode .pngEncode)) hc
    (h.during (encode .pngEncode)) herr
  have hrun : runWord (encode .pngEncode) s =
    (encodeRun (s.during (encode .pngEncode))).finishEncode := runWord_encode hs .pngEncode
  have hrun' : runWord (encode .pngEncode) u =
    (encodeRun (u.during (encode .pngEncode))).finishEncode := runWord_encode hu .pngEncode
  rw [hrun, hrun']
  generalize encodeRun (s.during (encode .pngEncode)) = f at halike
  generalize encodeRun (u.during (encode .pngEncode)) = g at halike
  cases halike with
  | stuck x => exact ⟨fun _ hf => hf, fun _ ht => (nomatch ht)⟩
  | raised e hphase =>
    refine ⟨fun _ hf => (nomatch hf), fun t ht => ⟨_, rfl, ?_⟩⟩
    cases ht
    exact ⟨⟨rfl, rfl, rfl, hphase, rfl, rfl, rfl, fun i hi => absurd hi i.not_lt_zero⟩,
      fun hnone => (nomatch hnone)⟩
  | go houtputs hunits =>
    refine ⟨fun _ hf => (nomatch hf), fun t ht => ⟨_, rfl, ?_⟩⟩
    cases ht
    exact ⟨houtputs, fun _ => hunits⟩

end Sys2Proof.Machine
end
